-- ==== Sys2Proof/Word.lean ====
section
/-! DEFINITION. The word types of RTCSEQ: the widths of 00_scope.md R6 and 30_encoding.md. -/

namespace Sys2Proof

/-- A byte: a chip register, a bus byte, an error code or a byte count (R6, R7). -/
abbrev Byte := BitVec 8

/-- A command word `CMD72` (R90). -/
abbrev Cmd := BitVec 72

/-- A packed BCD Date (R96). -/
abbrev Date := BitVec 32

/-- A packed BCD Time (R97). -/
abbrev Time := BitVec 24

/-- A result word, and the operand field of a command word (R90, R102). -/
abbrev Word := BitVec 64

end Sys2Proof
end

