-- ==== Sys2Proof/Config.lean ====
section
/-! DEFINITION. The parameters of 00_scope.md R6 that the block names, and the two things the spec leaves open that
are fixed outside the block: what the environment does when the state's own list of moves is used up, and EPOCH_W. -/

namespace Sys2Proof

/-- One move of the environment (20_memory.md R58): what it does with one transport call.

* `returns`: whether the call ever returns (00_scope.md R13 (b)).
* `code`: the answer of `T_END` (error code, R54) or of `T_REQ` (byte count, R55).
* `data`: the byte `T_READ` delivers where no rule fixes it (`any_8`, R56; 93_implementation_defined.md U1).
* `took`: how many data bytes of a failed write the chip took (R59; U2).
* `ticks`: the chip registers the environment changes after the call and before the next one (R58, U9, U10), or, where
  the call never returns, during it (log 21): register number and new content, in order. -/
structure EnvMove where
  returns : Bool
  code : Byte
  data : Byte
  took : Nat
  ticks : List (BitVec 4 × Byte)
  deriving DecidableEq, Repr, Inhabited

/-- The environment's moves once the list in the state is used up: free, nothing is known of them
(00_scope.md R9 `any_N`, 20_memory.md R58). DESIGN CHOICE of form, safe: log 3. -/
opaque Config.freeMove : Nat → EnvMove

/-- `EPOCH_W - 32`, an open parameter of the implementation (U12, 92_eei_decisions.md D22): log 12. -/
opaque Config.epochExtra : Fin 33

/-- `EPOCH_W`, the width of the epoch count: `32 <= EPOCH_W <= 64` and nothing more is known (R6, R133). -/
def Config.epochWidth : Nat := 32 + Config.epochExtra.val

theorem Config.epochWidth_ge : 32 ≤ Config.epochWidth := by
  unfold Config.epochWidth; omega

theorem Config.epochWidth_le : Config.epochWidth ≤ 64 := by
  unfold Config.epochWidth; omega

/-! Masks (R6). -/

/-- `STOP_MASK`, in CS1 (R36). -/
def Config.stopMask : Byte := 0x20#8

/-- `AF_MASK`, the alarm flag in CS2 (R37). -/
def Config.afMask : Byte := 0x08#8

/-- `TF_MASK`, the timer flag in CS2 (R37). -/
def Config.tfMask : Byte := 0x04#8

/-- `AIE_MASK`, a parameter with the value the spec takes from general knowledge (R37, D29, U13). PRESUMED: log 13. -/
def Config.aieMask : Byte := 0x02#8

/-- `TIE_MASK`, a parameter with the value the spec takes from general knowledge (R37, D29, U13). PRESUMED: log 13. -/
def Config.tieMask : Byte := 0x01#8

/-- `VL_MASK`, the voltage-low flag in the seconds register (R38). -/
def Config.vlMask : Byte := 0x80#8

/-- `CENTURY_MASK`, in the month register (R40). -/
def Config.centuryMask : Byte := 0x80#8

/-- `ALARM_WDAY_MASK`, applied by `SETALARM` (R136, R192; 90_conflicts.md C10: the literal is normative). -/
def Config.alarmWdayMask : Byte := 0xF7#8

/-! Chip register addresses (R6, R36 to R43) at which transactions start. -/

def Config.regCs1 : Byte := 0x00#8
def Config.regCs2 : Byte := 0x01#8
def Config.regSec : Byte := 0x02#8
def Config.regAlarm : Byte := 0x09#8
def Config.regClkout : Byte := 0x0D#8
def Config.regTimer : Byte := 0x0E#8

end Sys2Proof
end

