-- ==== Sys2Proof/Syntax.lean ====
section
/-! DEFINITION. The commands of RTCSEQ (30_encoding.md R91): one constructor per row of the opcode table, in the
table's order. -/

namespace Sys2Proof

/-- A command with its operands (R91; operand formats R94 to R101). -/
inductive Instr where
  /-- `BEGIN speed, address` (R150). -/
  | begin (speed : BitVec 32) (address : Byte)
  /-- `RESET` (R151), the chip's control registers; not the block's reset (R231). -/
  | reset
  /-- `GETSTATUS` (R152). -/
  | getstatus
  /-- `ISRUNNING` (R153). -/
  | isrunning
  /-- `ISALARM` (R154). -/
  | isalarm
  /-- `ISTIMER` (R155). -/
  | istimer
  /-- `NOW twice` (R170). -/
  | now (twice : Bool)
  /-- `EPOCH twice` (R171). -/
  | epoch (twice : Bool)
  /-- `ADJUST DATE:TIME` (R172). -/
  | adjust (date : Date) (time : Time)
  /-- `ADJUSTE t` (R173); `t` is a number of `EPOCH_W` bits in a 64-bit field (R101). -/
  | adjuste (t : Word)
  /-- `ACTIVEALARM enable` (R190). -/
  | activealarm (enable : Bool)
  /-- `ACTIVETIMER enable` (R191). -/
  | activetimer (enable : Bool)
  /-- `SETALARM a` (R192). -/
  | setalarm (a : BitVec 32)
  /-- `GETALARM` (R193). -/
  | getalarm
  /-- `SETTIMER v` (R194). -/
  | settimer (v : BitVec 16)
  /-- `GETTIMER` (R195). -/
  | gettimer
  /-- `SETCLOCKOUT b` (R196). -/
  | setclockout (b : Byte)
  /-- `GETCLOCKOUT` (R197). -/
  | getclockout
  deriving DecidableEq, Repr

end Sys2Proof
end

