-- ==== Sys2Proof/WellFormed.lean ====
section
/-! DEFINITION. Well-formed commands: every operand fits its field of the command word. All operand types but one are
exactly as wide as their fields (30_encoding.md R94 to R100); the epoch count must fit `EPOCH_W` bits (R101). -/

namespace Sys2Proof

/-- Well-formed for an epoch count of `epochW` bits (R101). -/
def Instr.wellFormedAt (epochW : Nat) : Instr → Bool
  | .begin _ _ => true
  | .reset => true
  | .getstatus => true
  | .isrunning => true
  | .isalarm => true
  | .istimer => true
  | .now _ => true
  | .epoch _ => true
  | .adjust _ _ => true
  | .adjuste t => decide (t.toNat < 2 ^ epochW)
  | .activealarm _ => true
  | .activetimer _ => true
  | .setalarm _ => true
  | .getalarm => true
  | .settimer _ => true
  | .gettimer => true
  | .setclockout _ => true
  | .getclockout => true

/-- Well-formed on this implementation, whose `EPOCH_W` is open (log 12). -/
def Instr.wellFormed (i : Instr) : Bool := i.wellFormedAt Config.epochWidth

end Sys2Proof
end

