-- ==== Sys2Proof/Decode.lean ====
section
/-! DEFINITION. The command word `CMD72` (30_encoding.md R90 to R101): its decoder, total on any 72 bits and rejecting
reserved opcodes by name (R92), and its encoder. -/

namespace Sys2Proof

/-- Why a command word is no command. -/
inductive DecodeError where
  /-- `op` is in 0x12 .. 0xFF (R92). -/
  | reservedOpcode (op : Byte)
  deriving DecidableEq, Repr

/-- `op = cmd[71:64]` (R90). -/
def opField (c : Cmd) : Byte := c.extractLsb' 64 8

/-- `arg = cmd[63:0]` (R90). -/
def argField (c : Cmd) : Word := c.extractLsb' 0 64

/-- A command word from its two fields (R90). -/
def mkCmd (op : Byte) (arg : Word) : Cmd := op ++ arg

/-- `speed = arg[31:0]` (R94). -/
def argSpeed (a : Word) : BitVec 32 := a.extractLsb' 0 32

/-- `address = arg[39:32]` (R94). -/
def argAddress (a : Word) : Byte := a.extractLsb' 32 8

/-- The flag operand `arg[0]` (R95). -/
def argFlag (a : Word) : Bool := a.getLsbD 0

/-- `DATE = arg[63:32]` (R98). -/
def argDate (a : Word) : Date := a.extractLsb' 32 32

/-- `TIME = arg[23:0]`; `arg[31:24]` is ignored (R98). -/
def argTime (a : Word) : Time := a.extractLsb' 0 24

/-- The epoch count `arg[EPOCH_W-1:0]` (R101). -/
def argEpoch (epochW : Nat) (a : Word) : Word := BitVec.ofNat 64 (a.toNat % 2 ^ epochW)

/-- The alarm value `arg[31:0]` (R99). -/
def argAlarm (a : Word) : BitVec 32 := a.extractLsb' 0 32

/-- The timer value `arg[15:0]` (R100). -/
def argTimer (a : Word) : BitVec 16 := a.extractLsb' 0 16

/-- The byte operand `arg[7:0]` (R101). -/
def argByte (a : Word) : Byte := a.extractLsb' 0 8

/-- The decoder for an epoch count of `epochW` bits: opcode map R91, operands R94 to R101; bits a command does not
name are ignored (R93). -/
def decodeAt (epochW : Nat) (c : Cmd) : Except DecodeError Instr :=
  let a := argField c
  match (opField c).toNat with
  | 0x00 => .ok (.begin (argSpeed a) (argAddress a))
  | 0x01 => .ok .reset
  | 0x02 => .ok .getstatus
  | 0x03 => .ok .isrunning
  | 0x04 => .ok .isalarm
  | 0x05 => .ok .istimer
  | 0x06 => .ok (.now (argFlag a))
  | 0x07 => .ok (.epoch (argFlag a))
  | 0x08 => .ok (.adjust (argDate a) (argTime a))
  | 0x09 => .ok (.adjuste (argEpoch epochW a))
  | 0x0A => .ok (.activealarm (argFlag a))
  | 0x0B => .ok (.activetimer (argFlag a))
  | 0x0C => .ok (.setalarm (argAlarm a))
  | 0x0D => .ok .getalarm
  | 0x0E => .ok (.settimer (argTimer a))
  | 0x0F => .ok .gettimer
  | 0x10 => .ok (.setclockout (argByte a))
  | 0x11 => .ok .getclockout
  | _ => .error (.reservedOpcode (opField c))

/-- The decoder of this implementation, whose `EPOCH_W` is open (log 12). -/
def decode (c : Cmd) : Except DecodeError Instr := decodeAt Config.epochWidth c

/-- The opcode map (R91). -/
def Instr.opcode : Instr → Byte
  | .begin _ _ => 0x00#8
  | .reset => 0x01#8
  | .getstatus => 0x02#8
  | .isrunning => 0x03#8
  | .isalarm => 0x04#8
  | .istimer => 0x05#8
  | .now _ => 0x06#8
  | .epoch _ => 0x07#8
  | .adjust _ _ => 0x08#8
  | .adjuste _ => 0x09#8
  | .activealarm _ => 0x0A#8
  | .activetimer _ => 0x0B#8
  | .setalarm _ => 0x0C#8
  | .getalarm => 0x0D#8
  | .settimer _ => 0x0E#8
  | .gettimer => 0x0F#8
  | .setclockout _ => 0x10#8
  | .getclockout => 0x11#8

/-- A flag operand in its field (R95). -/
def flagOperand (b : Bool) : Word := (BitVec.ofBool b).setWidth 64

/-- The operand field of a command, unused bits zero (R94 to R101). -/
def Instr.operand : Instr → Word
  | .begin speed address => (0#24 ++ address : BitVec 32) ++ speed
  | .reset => 0#64
  | .getstatus => 0#64
  | .isrunning => 0#64
  | .isalarm => 0#64
  | .istimer => 0#64
  | .now twice => flagOperand twice
  | .epoch twice => flagOperand twice
  | .adjust date time => date ++ (0#8 ++ time : BitVec 32)
  | .adjuste t => t
  | .activealarm enable => flagOperand enable
  | .activetimer enable => flagOperand enable
  | .setalarm a => a.setWidth 64
  | .getalarm => 0#64
  | .settimer v => v.setWidth 64
  | .gettimer => 0#64
  | .setclockout b => b.setWidth 64
  | .getclockout => 0#64

/-- The encoder: the command word of a command (R90, R91, R94 to R101). -/
def encode (i : Instr) : Cmd := mkCmd i.opcode i.operand

/-- The command a table word of `nbits` bits stands for (the bits above are zero), numbered as
spec/opcode_table.json numbers them: the 72-bit word itself, `op` in bits 71:64 (R90). -/
def decodeTableWord (nbits w : Nat) : Option Instr :=
  match decode (BitVec.ofNat 72 (w % 2 ^ nbits)) with
  | .ok i => some i
  | .error _ => none

end Sys2Proof
end

