-- ==== Sys2Proof/Machine/State.lean ====
section
/-! DEFINITION. The state of RTCSEQ (10_state.md R20 to R30), of its environment as far as the spec gives it
(R36 to R47, 20_memory.md R58) and of the host's input port, as plain data; and the value of every field after reset
(R48, R230). -/

namespace Sys2Proof.Machine

/-- A stop of the machine with a fault: NONE. "There is no fault outcome" (00_scope.md R13), "No exceptions"
(60_exceptions.md R214); so this type has no constructor and no step ever faults: log 19. -/
inductive Fault
  deriving DecidableEq, Repr

/-- The step gives no meaning. All are safe: a claim may become unprovable, none becomes false. -/
inductive Refusal where
  /-- An instruction without a meaning, by its mnemonic; raised by `exec`'s refused arms, of which none is left. Safe. -/
  | notModelled (mnemonic : String)
  /-- The host presents a word with a reserved opcode; raised by `step` (30_encoding.md R92,
  93_implementation_defined.md U3: `refuse`). Safe. -/
  | reservedOpcode (op : Byte)
  /-- A command other than `BEGIN` before the first `BEGIN` since reset has completed; raised by every meaning but
  `BEGIN`'s (70_reset_and_hazards.md R233, U4: `refuse`). Safe. -/
  | beforeBegin
  /-- A command presented while `SEQ` is not `IDLE`; raised by every meaning (70_reset_and_hazards.md R245,
  U5: `refuse`). Safe. -/
  | busy
  /-- `SEQ` is `RUN(k)`, no call is outstanding, and the latched command is not one that loops (`NOW`, `EPOCH`):
  raised by `resume`, in states that no run reaches (log 18). Safe. -/
  | notResumable
  deriving DecidableEq, Repr

/-- The sequencer phase `SEQ` (10_state.md R30): idle, or about to make transport call `k` of the running command. -/
inductive Seq where
  | idle
  | run (k : Nat)
  deriving DecidableEq, Repr

/-- A transport call with its arguments (20_memory.md R50 to R56). -/
inductive Call where
  /-- `T_INIT()` (R50). -/
  | init
  /-- `T_SETCLOCK(f)` (R51). -/
  | setClock (f : BitVec 32)
  /-- `T_BEGIN(a)` (R52). -/
  | beginTx (a : Byte)
  /-- `T_WRITE(b)` (R53). -/
  | write (b : Byte)
  /-- `T_END(stop)` (R54). -/
  | endTx (stop : Bool)
  /-- `T_REQ(a, n)` (R55). -/
  | request (a : Byte) (n : Nat)
  /-- `T_READ()` (R56). -/
  | read
  deriving DecidableEq, Repr

/-- What the environment answered a transport call. -/
inductive Answer where
  /-- The call returned and has no result. -/
  | done
  /-- The call returned this byte: an error code (R54), a byte count (R55) or a data byte (R56). -/
  | value (b : Byte)
  /-- The call never returns (00_scope.md R13 (b)). -/
  | never
  deriving DecidableEq, Repr

/-- One transport call and its answer: what can be observed of a command besides its result (60_exceptions.md R223). -/
structure Event where
  call : Call
  answer : Answer
  deriving DecidableEq, Repr

/-- What the host presents (00_scope.md R11 (c); 70_reset_and_hazards.md R232). -/
inductive HostInput where
  /-- A command word on the command port (R90). -/
  | command (w : Cmd)
  /-- The reset input is asserted (R230, R232). -/
  | reset
  deriving DecidableEq, Repr

/-- The chip's register space (20_memory.md R61 (b)) as far as its contents are known: register address and content.
Canonical form: `Memory.wf`. -/
abbrev Memory := List Host.Cell

/-- How many registers the chip has: addresses 0x00 .. 0x0F (R61 (b)). -/
def Memory.size : Nat := 16

/-- The canonical form: addresses strictly rising and inside the map. No entry can equal what an unlisted register
reads as, which is no byte. -/
abbrev Memory.wf (m : Memory) : Prop :=
  m.Pairwise (fun c d => c.1 < d.1) ∧ ∀ c ∈ m, c.1 < Memory.size

/-- The state of the block, its environment and its host port. -/
structure State where
  -- block registers (10_state.md R20 to R25)
  addr : Byte
  speed : BitVec 32
  cs1c : Byte
  cs2c : Byte
  cs3c : Byte
  res : Word
  -- working registers (R26 to R29)
  op : Byte
  arg : Word
  rb : Vector Byte 9
  wb : Vector Byte 7
  err : Byte
  avail : Byte
  curDate : Date
  curTime : Time
  prevDate : Date
  prevValid : Bool
  -- control state (R30)
  seq : Seq
  -- environment: the chip's registers (R36 to R43), the transport's initialised fact (R46), the bytes of the open
  -- write transfer (R52, R53), the chip's register pointer (R47), whether the read in progress delivers register
  -- contents (R60), whether the outstanding call never returns (R13 (b))
  chip : Memory
  busInit : Bool
  sent : List Byte
  ptr : Byte
  readGood : Bool
  hung : Bool
  -- the model's own: the environment's coming moves, and how many were taken from the opaque constant (log 3)
  moves : List EnvMove
  freeMoves : Nat
  -- the model's own: the transport calls since reset (log 17)
  trace : List Event
  -- the model's own: the host's coming inputs (log 1), and whether a BEGIN has completed since reset (R233, log 15)
  host : List HostInput
  begun : Bool
  deriving DecidableEq, Repr

/-- Right after reset, with nothing placed (R48, R230, R232): block registers cleared, `SEQ` idle, the transport not
initialised. Nothing is known of the chip's registers. The working registers, which the spec leaves unspecified, are
zero (DESIGN CHOICE: log 5), and so is the counter of free moves (DESIGN CHOICE: log 3). -/
def State.reset : State where
  addr := 0#8
  speed := 0#32
  cs1c := 0#8
  cs2c := 0#8
  cs3c := 0#8
  res := 0#64
  op := 0#8
  arg := 0#64
  rb := Vector.replicate 9 0#8
  wb := Vector.replicate 7 0#8
  err := 0#8
  avail := 0#8
  curDate := 0#32
  curTime := 0#24
  prevDate := 0#32
  prevValid := false
  seq := .idle
  chip := []
  busInit := false
  sent := []
  ptr := 0#8
  readGood := false
  hung := false
  moves := []
  freeMoves := 0
  trace := []
  host := []
  begun := false

end Sys2Proof.Machine
end

