-- ==== Sys2Proof/Machine/Flags.lean ====
section
/-! DEFINITION. The flags of the cached status bytes (10_state.md R31), and the change `ACTIVEALARM` and `ACTIVETIMER`
make to CS2 (43_alarm_timer_clkout.md R190, R191). -/

namespace Sys2Proof.Machine

/-- Some bit of `mask` is set in `b`. -/
def flagSet (mask b : Byte) : Bool := b &&& mask != 0#8

/-- Running: the STOP bit of CS1 is clear (R36, R153). -/
def running (cs1 : Byte) : Bool := cs1 &&& Config.stopMask == 0#8

/-- STOP (R31). -/
def State.stop (s : State) : Bool := flagSet Config.stopMask s.cs1c

/-- AF, the alarm flag (R31). -/
def State.af (s : State) : Bool := flagSet Config.afMask s.cs2c

/-- TF, the timer flag (R31). -/
def State.tf (s : State) : Bool := flagSet Config.tfMask s.cs2c

/-- AIE, the alarm interrupt enable (R31). -/
def State.aie (s : State) : Bool := flagSet Config.aieMask s.cs2c

/-- TIE, the timer interrupt enable (R31). -/
def State.tie (s : State) : Bool := flagSet Config.tieMask s.cs2c

/-- VL, voltage low (R31). -/
def State.vl (s : State) : Bool := flagSet Config.vlMask s.cs3c

/-- The CS2 byte written back: the flag `flagMask` cleared, the enable `enableMask` set or cleared (R190, R191). -/
def armedCs2 (flagMask enableMask : Byte) (enable : Bool) (cs2 : Byte) : Byte :=
  let cleared := cs2 &&& ~~~ flagMask
  if enable then cleared ||| enableMask else cleared &&& ~~~ enableMask

end Sys2Proof.Machine
end

