-- ==== Sys2Proof/Machine/Codec.lean ====
section
/-! DEFINITION. The codec of 40_bcd_codec.md: BCD, year and century, calendar, time burst, epoch conversion, alarm and
timer packing. Pure functions, total on every input of their width (D20). On integers, `/` and `%` by the positive
constants used here are the floor division and remainder of 00_scope.md R8. -/

namespace Sys2Proof.Machine

/-! ### BCD bytes and words -/

/-- Nibble `i` of a word, nibble 0 least significant (R7). -/
def nibble {n : Nat} (v : BitVec n) (i : Nat) : Nat := (v.extractLsb' (4 * i) 4).toNat

/-- `bcd2bin8` (R120); on valid digits the inverse of `bin2bcd8` (R139 (d)). -/
def bcd2bin8 (b : Byte) : Nat := nibble b 1 * 10 + nibble b 0

/-- `bin2bcd8` (R121): the hundreds are dropped; up to 99 the inverse of `bcd2bin8` (R139 (d)). -/
def bin2bcd8 (n : Nat) : Byte := BitVec.ofNat 8 (n / 10 % 10 * 16 + n % 10)

/-- `bcd2bin16` (R122); on valid digits the inverse of `bin2bcd16` (R139 (d)). -/
def bcd2bin16 (v : BitVec 16) : Nat :=
  nibble v 3 * 1000 + nibble v 2 * 100 + nibble v 1 * 10 + nibble v 0

/-- `bin2bcd16` (R123): the ten-thousands are dropped; up to 9999 the inverse of `bcd2bin16` (R139 (d)). -/
def bin2bcd16 (n : Nat) : BitVec 16 :=
  BitVec.ofNat 16 (n / 1000 % 10 * 4096 + n / 100 % 10 * 256 + n / 10 % 10 * 16 + n % 10)

/-- `ValidBcd8` (R126): a premise of claims, never tested by the block. -/
def validBcd8 (b : Byte) : Bool := decide (nibble b 1 ≤ 9) && decide (nibble b 0 ≤ 9)

/-- `ValidBcd16` (R126). -/
def validBcd16 (v : BitVec 16) : Bool :=
  decide (nibble v 3 ≤ 9) && decide (nibble v 2 ≤ 9) && decide (nibble v 1 ≤ 9) && decide (nibble v 0 ≤ 9)

/-! ### Year and century -/

/-- `DecodeYear` (R124, R139 (a)). -/
def decodeYear (y : Byte) (c : Bool) : Nat := 2000 + bcd2bin8 y + (if c then 100 else 0)

/-- `CenturyBit` (R125); it has a period of 400 years (R139 (b)). -/
def centuryBit (year : Nat) : Byte := if year / 100 % 4 = 0 then 0x00#8 else Config.centuryMask

/-! ### Calendar -/

/-- `IsLeap` (R127). -/
def isLeap (y : Int) : Bool := y % 4 == 0 && (y % 100 != 0 || y % 400 == 0)

/-- `DaysFromCivil` (R128): days from 1970-01-01; outside valid dates the formula as written. -/
def daysFromCivil (y m d : Int) : Int :=
  let y1 := if m ≤ 2 then y - 1 else y
  let era := y1 / 400
  let yoe := y1 - era * 400
  let mp := if m > 2 then m - 3 else m + 9
  let doy := (153 * mp + 2) / 5 + d - 1
  let doe := yoe * 365 + yoe / 4 - yoe / 100 + doy
  era * 146097 + doe - 719468

/-- `CivilFromDays` (R129): year, month, day. -/
def civilFromDays (z : Int) : Int × Int × Int :=
  let z1 := z + 719468
  let era := z1 / 146097
  let doe := z1 - era * 146097
  let yoe := (doe - doe / 1460 + doe / 36524 - doe / 146096) / 365
  let y1 := yoe + era * 400
  let doy := doe - (365 * yoe + yoe / 4 - yoe / 100)
  let mp := (5 * doy + 2) / 153
  let d := doy - (153 * mp + 2) / 5 + 1
  let m := if mp < 10 then mp + 3 else mp - 9
  let y := if m ≤ 2 then y1 + 1 else y1
  (y, m, d)

/-- `DaysInMonth` (R130); 0 for a number that is no month. -/
def daysInMonth (y m : Int) : Int :=
  if m = 2 then (if isLeap y then 29 else 28)
  else if m = 4 ∨ m = 6 ∨ m = 9 ∨ m = 11 then 30
  else if 1 ≤ m ∧ m ≤ 12 then 31
  else 0

/-- `ValidDate` (R130): a premise of claims, never tested by the block. -/
def validDate (y m d : Int) : Bool :=
  decide (1 ≤ m ∧ m ≤ 12) && decide (1 ≤ d ∧ d ≤ daysInMonth y m)

/-- `Weekday` (R131): 0 = Sunday .. 6 = Saturday (D24). -/
def weekday (z : Int) : Nat := ((z + 4) % 7).toNat

/-! ### Fields of the packed date and time (R96, R97) -/

/-- The four-digit BCD year, `DATE[31:16]`. -/
def dateYear (date : Date) : BitVec 16 := date.extractLsb' 16 16

/-- The month byte with the century flag, `DATE[15:8]`. -/
def dateMonthByte (date : Date) : Byte := date.extractLsb' 8 8

/-- The day, `DATE[7:0]`. -/
def dateDay (date : Date) : Byte := date.extractLsb' 0 8

/-- The tens and units digits of the year, `DATE[23:16]` (R135). -/
def dateYearByte (date : Date) : Byte := date.extractLsb' 16 8

/-- The century flag, `DATE[15]`. -/
def dateCentury (date : Date) : Bool := date.getLsbD 15

/-- The month byte without the century flag, `DATE[15:8] & 0x7F` (R130, R133, R135; D25). -/
def dateMonth (date : Date) : Byte := dateMonthByte date &&& ~~~ Config.centuryMask

/-- The hour, `TIME[23:16]`. -/
def timeHour (time : Time) : Byte := time.extractLsb' 16 8

/-- The minute, `TIME[15:8]`. -/
def timeMinute (time : Time) : Byte := time.extractLsb' 8 8

/-- The second, `TIME[7:0]`. -/
def timeSecond (time : Time) : Byte := time.extractLsb' 0 8

/-- The day count of a packed date, decoded as R133 and R135 do. -/
def dateDays (date : Date) : Int :=
  daysFromCivil (bcd2bin16 (dateYear date)) (bcd2bin8 (dateMonth date)) (bcd2bin8 (dateDay date))

/-- `ValidDT` (R130). -/
def validDT (date : Date) (time : Time) : Bool :=
  validBcd16 (dateYear date) && validBcd8 (dateMonth date) && validBcd8 (dateDay date)
    && validBcd8 (timeHour time) && validBcd8 (timeMinute time) && validBcd8 (timeSecond time)
    && validDate (bcd2bin16 (dateYear date)) (bcd2bin8 (dateMonth date)) (bcd2bin8 (dateDay date))
    && decide (bcd2bin8 (timeHour time) ≤ 23) && decide (bcd2bin8 (timeMinute time) ≤ 59)
    && decide (bcd2bin8 (timeSecond time) ≤ 59)

/-- `ConsistentFlag` (R130). -/
def consistentFlag (date : Date) : Bool :=
  dateCentury date == (centuryBit (bcd2bin16 (dateYear date))).getLsbD 7

/-! ### The time burst -/

/-- The date half of `DecodeBurst` (R132): the month byte keeps its century flag. -/
def burstDate (rb : Vector Byte 9) : Date :=
  bin2bcd16 (decodeYear rb[8] (rb[7].getLsbD 7)) ++ (rb[7] ++ rb[5] : BitVec 16)

/-- The time half of `DecodeBurst` (R132): hour, minute, second with the voltage-low flag masked off. -/
def burstTime (rb : Vector Byte 9) : Time :=
  rb[4] ++ (rb[3] ++ (rb[2] &&& ~~~ Config.vlMask) : BitVec 16)

/-- `DecodeBurst` (R132); `EncodeBurst` undoes it but for the weekday (R139 (e)). -/
def decodeBurst (rb : Vector Byte 9) : Date × Time := (burstDate rb, burstTime rb)

/-- `EncodeBurst` (R135, R139 (e)): second, minute, hour, day, weekday, month with century bit, year. -/
def encodeBurst (date : Date) (time : Time) : List Byte :=
  [timeSecond time, timeMinute time, timeHour time, dateDay date,
    BitVec.ofNat 8 (weekday (dateDays date)),
    dateMonth date ||| centuryBit (bcd2bin16 (dateYear date)),
    dateYearByte date]

/-! ### Epoch conversion -/

/-- The integer `t` of R133, before truncation. -/
def bcdToSeconds (date : Date) (time : Time) : Int :=
  dateDays date * 86400 + bcd2bin8 (timeHour time) * 3600 + bcd2bin8 (timeMinute time) * 60
    + bcd2bin8 (timeSecond time)

/-- `BcdToEpoch` (R133) for an epoch count of `epochW` bits; `EpochToBcd` undoes it in the domain of R139 (c). -/
def bcdToEpoch (epochW : Nat) (date : Date) (time : Time) : Nat :=
  (bcdToSeconds date time % (2 ^ epochW : Nat)).toNat

/-- `EpochToBcd` (R134); `BcdToEpoch` undoes it up to the year 9999 (R139 (c)). The years it meets are at least 1970, the
months and days positive. -/
def epochToBcd (t : Nat) : Date × Time :=
  let c := civilFromDays ((t / 86400 : Nat) : Int)
  let sod := t % 86400
  (bin2bcd16 c.1.toNat ++ ((bin2bcd8 c.2.1.toNat ||| centuryBit c.1.toNat) ++ bin2bcd8 c.2.2.toNat : BitVec 16),
    bin2bcd8 (sod / 3600) ++ (bin2bcd8 (sod % 3600 / 60) ++ bin2bcd8 (sod % 60) : BitVec 16))

/-! ### Alarm and timer packing -/

/-- `AlarmToBytes` (R136): minute, hour, day, weekday with bit 3 cleared. -/
def alarmToBytes (a : BitVec 32) : List Byte :=
  [a.extractLsb' 8 8, a.extractLsb' 16 8, a.extractLsb' 24 8, a.extractLsb' 0 8 &&& Config.alarmWdayMask]

/-- `BytesToAlarm` (R137) of the bytes read from registers 0x09 .. 0x0C. -/
def bytesToAlarm (b0 b1 b2 b3 : Byte) : BitVec 32 := (b2 ++ b1 : BitVec 16) ++ (b0 ++ b3 : BitVec 16)

/-- `TimerToBytes` (R138): control, then countdown value. -/
def timerToBytes (v : BitVec 16) : List Byte := [v.extractLsb' 8 8, v.extractLsb' 0 8]

/-- `BytesToTimer` (R138). -/
def bytesToTimer (b0 b1 : Byte) : BitVec 16 := b0 ++ b1

end Sys2Proof.Machine
end

