-- ==== Sys2Proof/Machine/Operands.lean ====
section
/-! DEFINITION. The formats of results in `RES` (30_encoding.md R102). The formats of operands are read and written by
Sys2Proof/Decode.lean (R94 to R101), the fields of packed values by Sys2Proof/Machine/Codec.lean. -/

namespace Sys2Proof.Machine

/-- A bool result: `RES[0]`, the rest 0 (R102). -/
def boolResult (b : Bool) : Word := (BitVec.ofBool b).setWidth 64

/-- A byte result (R102). -/
def byteResult (b : Byte) : Word := b.setWidth 64

/-- A timer value result (R100, R102). -/
def timerResult (v : BitVec 16) : Word := v.setWidth 64

/-- An alarm value result (R99, R102). -/
def alarmResult (a : BitVec 32) : Word := a.setWidth 64

/-- A BCD DateTime result: `DATE` high, `RES[31:24] = 0`, `TIME` low (R98, R102). -/
def dateTimeResult (date : Date) (time : Time) : Word := date ++ (0#8 ++ time : BitVec 32)

/-- An epoch result: the count in `RES[EPOCH_W-1:0]`, the rest 0 (R102). -/
def epochResult (count : Nat) : Word := BitVec.ofNat 64 count

end Sys2Proof.Machine
end

