-- ==== Sys2Proof/Machine/Ops.lean ====
section
/-! DEFINITION. The shared operations: the chip's registers, the environment's moves, the seven transport calls
(20_memory.md R50 to R56), the two transactions (R59, R60), accepting and ending a command (10_state.md R30), the
block's reset (70_reset_and_hazards.md R230, R232). There is no operation that takes an exception: the block has none
(60_exceptions.md R214, R217).

Every operation leaves a state whose outstanding call never returns (`hung`) as it is: the block makes the next call
only after the previous one has returned (20_memory.md section 1). -/

namespace Sys2Proof.Machine

/-! ### The chip's registers -/

/-- What an unlisted register reads as: no known content; a read of it delivers a free byte. The spec gives no
power-on contents (91_not_in_source.md N5). DESIGN CHOICE, safe: log 4. -/
def Memory.unlisted : Option Byte := none

/-- The known content of register `x` (R61 (b)). -/
def Memory.read : Memory → Nat → Option Byte
  | [], _ => Memory.unlisted
  | (a, b) :: rest, x => if a = x then some b else Memory.read rest x

/-- Registers with the content of `a` replaced, addresses kept strictly rising. -/
def Memory.insert : Memory → Nat → Byte → Memory
  | [], a, b => [(a, b)]
  | (c, d) :: rest, a, b =>
    if a < c then (a, b) :: (c, d) :: rest
    else if a = c then (a, b) :: rest
    else (c, d) :: Memory.insert rest a b

/-- One byte stored into register `a`; nothing outside the map, which no transaction reaches (R62, U11: log 11). -/
def Memory.write (m : Memory) (a : Nat) (b : Byte) : Memory :=
  if a < Memory.size then m.insert a b else m

/-- Bytes stored into register `a` and the following ones (R62). -/
def Memory.store : Memory → Nat → List Byte → Memory
  | m, _, [] => m
  | m, a, b :: bs => Memory.store (m.write a b) (a + 1) bs

/-- The chip's own changes of its registers, in order (R58). -/
def Memory.tick : Memory → List (BitVec 4 × Byte) → Memory
  | m, [] => m
  | m, (a, b) :: rest => Memory.tick (m.write a.toNat b) rest

/-! ### The environment's moves -/

/-- The environment's move for the `k`-th transport call from here: from the list of moves, and past its end from the
opaque constant (log 3). -/
def State.moveAt (s : State) (k : Nat) : EnvMove :=
  if h : k < s.moves.length then s.moves[k] else Config.freeMove (s.freeMoves + (k - s.moves.length))

/-- The next move is used up. -/
def State.takeMove (s : State) : State :=
  match s.moves with
  | [] => { s with freeMoves := s.freeMoves + 1 }
  | _ :: rest => { s with moves := rest }

/-- The environment moves while the block makes no progress (R58). -/
def State.envStep (s : State) : State :=
  { s.takeMove with chip := s.chip.tick (s.moveAt 0).ticks }

/-! ### Control -/

/-- `RUN(k)` becomes `RUN(k+1)` (R30 (c)). -/
def Seq.advance : Seq → Seq
  | .idle => .idle
  | .run k => .run (k + 1)

/-- A step of the block, unless a call is outstanding that never returns. -/
def State.live (f : State → State) (s : State) : State := if s.hung then s else f s

/-- A command is accepted: `op` and `arg` latched, `SEQ` to `RUN(0)` (R30 (b), R90). The latch holds the operand with
the ignored bits zero (R93; DEDUCED: log 6). -/
def State.accept (i : Instr) (s : State) : State :=
  { s with op := i.opcode, arg := i.operand, seq := .run 0 }

/-- `return v` (R30 (e)): the result written, `SEQ` to `IDLE`. -/
def State.ret (v : State → Word) (s : State) : State :=
  s.live fun s => { s with res := v s, seq := .idle }

/-- Present command `i`: refused while another runs (R245, U5) and, but for `BEGIN`, before the first `BEGIN` has
completed (R233, U4); otherwise accepted and run by `body`. -/
def State.present (i : Instr) (needsBegin : Bool) (body : State → State) (s : State) :
    Host.Outcome State Fault Refusal :=
  if s.seq ≠ .idle then .refused .busy
  else if needsBegin && !s.begun then .refused .beforeBegin
  else .next (body (s.accept i))

/-- Reset of the block and, with it, of the transport (R230, R232; log 16): every field at its reset value but the chip's
registers and its register pointer, which a reset does not touch (R47, R48, R230, R231), and what the environment and
the host will do. -/
def State.blockReset (s : State) : State :=
  { State.reset with chip := s.chip, ptr := s.ptr, moves := s.moves, freeMoves := s.freeMoves, host := s.host }

/-! ### The transport calls -/

/-- One transport call: the environment's move decides whether it returns; if it does, its answer is recorded, it has
its effect, `SEQ` advances (R30 (c)) and the chip may change its registers (R58); if not, the command is left
unfinished for ever (R13 (b)). The chip may change its registers during a call that never returns too, so also before a
reset input that comes next: the spec does not say, DESIGN CHOICE: log 21. -/
def State.transport (call : Call) (answer : State → EnvMove → Answer) (effect : State → EnvMove → State)
    (s : State) : State :=
  s.live fun s =>
    let m := s.moveAt 0
    if m.returns then
      let t := effect s.takeMove m
      { t with
        trace := s.trace ++ [⟨call, answer s m⟩]
        seq := s.seq.advance
        chip := t.chip.tick m.ticks }
    else
      { s.takeMove with trace := s.trace ++ [⟨call, .never⟩], hung := true, chip := s.chip.tick m.ticks }

/-- `T_INIT()` (R50): the transport is initialised (R46). -/
def State.tInit (s : State) : State :=
  s.transport .init (fun _ _ => .done) fun s _ => { s with busInit := true }

/-- `T_SETCLOCK(SPEED)` (R51). -/
def State.tSetClock (s : State) : State :=
  s.transport (.setClock s.speed) (fun _ _ => .done) fun s _ => s

/-- `T_BEGIN(ADDR)` (R52): opens a write transfer. -/
def State.tBegin (s : State) : State :=
  s.transport (.beginTx s.addr) (fun _ _ => .done) fun s _ => { s with sent := [] }

/-- `T_WRITE(b)` (R53): one byte appended to the open transfer. -/
def State.tWrite (b : Byte) (s : State) : State :=
  s.transport (.write b) (fun _ _ => .done) fun s _ => { s with sent := s.sent ++ [b] }

/-- How many of the data bytes of a transfer reach the chip: all if it succeeded, any prefix if not (R58, R59, U2;
log 9). -/
def landed (m : EnvMove) (data : List Byte) : List Byte :=
  if m.code = 0#8 then data else data.take m.took

/-- The transfer ends: the first byte sent is the register address (R53), the data bytes that landed are in that
register and the following ones (R58, R59, R62), the chip's pointer is past them (R47; log 11). -/
def State.land (m : EnvMove) (s : State) : State :=
  match s.sent with
  | [] => s
  | reg :: data =>
    { s with
      chip := s.chip.store reg.toNat (landed m data)
      ptr := reg + BitVec.ofNat 8 (landed m data).length
      sent := [] }

/-- `err <- T_END(stop)` (R54). -/
def State.tEnd (stop : Bool) (s : State) : State :=
  s.transport (.endTx stop) (fun _ m => .value m.code) fun s m => { s.land m with err := m.code }

/-- `avail <- T_REQ(ADDR, n)` (R55). The read delivers register contents when `err == 0` and `avail == n` (R60). -/
def State.tReq (n : Nat) (s : State) : State :=
  s.transport (.request s.addr n) (fun _ m => .value m.code) fun s m =>
    { s with avail := m.code, readGood := decide (s.err = 0#8 ∧ m.code.toNat = n) }

/-- The byte `T_READ` delivers: the content of the register at the pointer, where the read is good and the content is
known, else any byte (R56, R60, U1; log 4). -/
def State.readByte (s : State) (m : EnvMove) : Byte :=
  if s.readGood then (s.chip.read s.ptr.toNat).getD m.data else m.data

/-- `rb[i] <- T_READ()` (R56, R60); the pointer moves on (R47, R62). -/
def State.tRead (i : Nat) (s : State) : State :=
  s.transport .read (fun s m => .value (s.readByte m)) fun s m =>
    { s with rb := s.rb.setIfInBounds i (s.readByte m), ptr := s.ptr + 1#8 }

/-- `T_INIT()` is not made: `SEQ` skips forward over it (R30 (d); DEDUCED: log 7). -/
def State.skipInit (s : State) : State := s.live fun s => { s with seq := s.seq.advance }

/-! ### The transactions -/

/-- Bytes put into `wb[0]`, `wb[1]`, .. (R28). -/
def State.loadWb (bytes : List Byte) (s : State) : State :=
  s.live fun s => { s with wb := Vector.ofFn fun i : Fin 7 => bytes.getD i.val (s.wb.get i) }

/-- `T_WRITE` of each byte, in order (R59). -/
def State.writeAll : List Byte → State → State
  | [], s => s
  | b :: bs, s => State.writeAll bs (s.tWrite b)

/-- `MemWrite(reg, n, wb)` (R59): the register address, `wb[0] .. wb[n-1]`, a stop. -/
def State.memWrite (reg : Byte) (n : Nat) (s : State) : State :=
  (State.writeAll (s.wb.toList.take n) (s.tSetClock.tBegin.tWrite reg)).tEnd true

/-- `rb[i] <- T_READ()` for `n` consecutive `i` from `i` on (R60). -/
def State.readAll : Nat → Nat → State → State
  | 0, _, s => s
  | n + 1, i, s => State.readAll n (i + 1) (s.tRead i)

/-- `MemRead(reg, n)` (R60): the register address, a repeated start, `n` bytes into `rb[0] .. rb[n-1]`; `err` and
`avail` are not looked at. -/
def State.memRead (reg : Byte) (n : Nat) (s : State) : State :=
  State.readAll n 0 ((s.tSetClock.tBegin.tWrite reg).tEnd false |>.tReq n)

/-- The result of a write command: the negated error code of its `T_END(1)` (R59, R211). -/
def State.writeOk (s : State) : Word := boolResult (s.err == 0#8)

/-- A command that is one register write of `bytes` from `reg` (R59, R102). -/
def State.writeCommand (reg : Byte) (bytes : List Byte) (s : State) : State :=
  ((s.loadWb bytes).memWrite reg bytes.length).ret State.writeOk

/-- A command that is one register read of `n` bytes from `reg` with result `v` (R60, R102). -/
def State.readCommand (reg : Byte) (n : Nat) (v : State → Word) (s : State) : State :=
  (s.memRead reg n).ret v

/-- The body of `GETSTATUS` (R152): the cache refreshed from CS1 and CS2. -/
def State.refreshStatus (s : State) : State :=
  (s.memRead Config.regCs1 2).live fun s => { s with cs1c := s.rb[0], cs2c := s.rb[1] }

end Sys2Proof.Machine
end

