-- ==== Sys2Proof/Machine/Alarm.lean ====
section
/-! DEFINITION. The alarm, timer and clock-out commands (43_alarm_timer_clkout.md R190 to R197). -/

namespace Sys2Proof.Machine

/-- The body shared by `ACTIVEALARM` and `ACTIVETIMER` (R190, R191): status refreshed (D28); on a stopped chip false and
no write; else the changed CS2 into the cache, where it stays (D37), and to register 0x01. -/
def State.armCommand (flagMask enableMask : Byte) (enable : Bool) (s : State) : State :=
  s.refreshStatus.live fun s =>
    if running s.cs1c then
      let cs2 := armedCs2 flagMask enableMask enable s.cs2c
      ({ s with cs2c := cs2 } : State).writeCommand Config.regCs2 [cs2]
    else s.ret fun _ => boolResult false

/-- `ACTIVEALARM` (R190). -/
def execActivealarm (enable : Bool) (s : State) : Host.Outcome State Fault Refusal :=
  s.present (.activealarm enable) true fun s => s.armCommand Config.afMask Config.aieMask enable

/-- `ACTIVETIMER` (R191). -/
def execActivetimer (enable : Bool) (s : State) : Host.Outcome State Fault Refusal :=
  s.present (.activetimer enable) true fun s => s.armCommand Config.tfMask Config.tieMask enable

/-- `SETALARM` (R192). -/
def execSetalarm (a : BitVec 32) (s : State) : Host.Outcome State Fault Refusal :=
  s.present (.setalarm a) true fun s => s.writeCommand Config.regAlarm (alarmToBytes a)

/-- `GETALARM` (R193). -/
def execGetalarm (s : State) : Host.Outcome State Fault Refusal :=
  s.present .getalarm true fun s =>
    s.readCommand Config.regAlarm 4 fun s => alarmResult (bytesToAlarm s.rb[0] s.rb[1] s.rb[2] s.rb[3])

/-- `SETTIMER` (R194). -/
def execSettimer (v : BitVec 16) (s : State) : Host.Outcome State Fault Refusal :=
  s.present (.settimer v) true fun s => s.writeCommand Config.regTimer (timerToBytes v)

/-- `GETTIMER` (R195). -/
def execGettimer (s : State) : Host.Outcome State Fault Refusal :=
  s.present .gettimer true fun s =>
    s.readCommand Config.regTimer 2 fun s => timerResult (bytesToTimer s.rb[0] s.rb[1])

/-- `SETCLOCKOUT` (R196). -/
def execSetclockout (b : Byte) (s : State) : Host.Outcome State Fault Refusal :=
  s.present (.setclockout b) true fun s => s.writeCommand Config.regClkout [b]

/-- `GETCLOCKOUT` (R197). -/
def execGetclockout (s : State) : Host.Outcome State Fault Refusal :=
  s.present .getclockout true fun s =>
    s.readCommand Config.regClkout 1 fun s => byteResult s.rb[0]

end Sys2Proof.Machine
end

