-- ==== Sys2Proof/Machine/Status.lean ====
section
/-! DEFINITION. The initialisation and status commands (41_init_status.md R150 to R155). -/

namespace Sys2Proof.Machine

/-- `BEGIN` (R150): the guard sees the old `SPEED`; `ADDR` and `SPEED` are stored by every `BEGIN` (D9); the status read
uses the new ones. -/
def execBegin (speed : BitVec 32) (address : Byte) (s : State) : Host.Outcome State Fault Refusal :=
  s.present (.begin speed address) false fun s =>
    let s := if s.speed = 0#32 then s.tInit else s.skipInit
    let s := s.live fun s => { s with addr := address, speed := speed }
    let s := s.refreshStatus
    (s.live fun s => { s with begun := true }).ret fun s => boolResult (running s.cs1c)

/-- `RESET` (R151): zero to CS1 and CS2; the cache is not touched (D15). -/
def execReset (s : State) : Host.Outcome State Fault Refusal :=
  s.present .reset true fun s => s.writeCommand Config.regCs1 [0x00#8, 0x00#8]

/-- `GETSTATUS` (R152): the whole CS2 byte. -/
def execGetstatus (s : State) : Host.Outcome State Fault Refusal :=
  s.present .getstatus true fun s => s.refreshStatus.ret fun s => byteResult s.cs2c

/-- `ISRUNNING` (R153). -/
def execIsrunning (s : State) : Host.Outcome State Fault Refusal :=
  s.present .isrunning true fun s => s.refreshStatus.ret fun s => boolResult (running s.cs1c)

/-- `ISALARM` (R154). -/
def execIsalarm (s : State) : Host.Outcome State Fault Refusal :=
  s.present .isalarm true fun s => s.refreshStatus.ret fun s => boolResult (flagSet Config.afMask s.cs2c)

/-- `ISTIMER` (R155). -/
def execIstimer (s : State) : Host.Outcome State Fault Refusal :=
  s.present .istimer true fun s => s.refreshStatus.ret fun s => boolResult (flagSet Config.tfMask s.cs2c)

end Sys2Proof.Machine
end

