-- ==== Sys2Proof/Machine/Time.lean ====
section
/-! DEFINITION. The time commands (42_time.md R170 to R173). -/

namespace Sys2Proof.Machine

/-- The result of `NOW`: the last read's date and time (R170). -/
def nowResult (s : State) : Word := dateTimeResult s.curDate s.curTime

/-- The result of `EPOCH` (R171). -/
def epochCountResult (s : State) : Word :=
  epochResult (bcdToEpoch Config.epochWidth s.curDate s.curTime)

/-- After the nine bytes: the cache updated, the burst decoded (R170, R22 to R24). -/
def State.takeBurst (s : State) : State :=
  { s with
    cs1c := s.rb[0]
    cs2c := s.rb[1]
    cs3c := s.rb[2]
    curDate := burstDate s.rb
    curTime := burstTime s.rb }

/-- The date compare of R170: one read is enough, or the read before it has the same packed date. -/
def State.dateAgrees (twice : Bool) (s : State) : Bool :=
  !twice || (s.prevValid && s.prevDate == s.curDate)

/-- What R170 does with a decoded read: return, or keep the date and go back to the first transport call. -/
def State.settle (twice : Bool) (result : State → Word) (s : State) : State :=
  if s.dateAgrees twice then s.ret result
  else { s with prevDate := s.curDate, prevValid := true, seq := .run 0 }

/-- One pass of the loop of R170 from the label `again`. -/
def State.timePass (twice : Bool) (result : State → Word) (s : State) : State :=
  (s.memRead Config.regCs1 9).live fun s => s.takeBurst.settle twice result

/-- `NOW` up to its second pass (R170): `prev.valid` cleared, one pass, and a second one if the first did not end the
command. Where the second does not end it either, `resume` goes on pass by pass, without bound (log 2). -/
def State.timeCommand (twice : Bool) (result : State → Word) (s : State) : State :=
  let t := State.timePass twice result { s with prevValid := false }
  if twice then State.timePass twice result t else t

/-- `NOW` (R170). -/
def execNow (twice : Bool) (s : State) : Host.Outcome State Fault Refusal :=
  s.present (.now twice) true fun s => s.timeCommand twice nowResult

/-- `EPOCH` (R171): the body of `NOW`, its result converted. -/
def execEpoch (twice : Bool) (s : State) : Host.Outcome State Fault Refusal :=
  s.present (.epoch twice) true fun s => s.timeCommand twice epochCountResult

/-- `ADJUST` (R172): seven bytes from register 0x02; the cache is not touched. -/
def execAdjust (date : Date) (time : Time) (s : State) : Host.Outcome State Fault Refusal :=
  s.present (.adjust date time) true fun s => s.writeCommand Config.regSec (encodeBurst date time)

/-- `ADJUSTE` (R173): the count converted to a BCD DateTime, then as `ADJUST`. -/
def execAdjuste (t : Word) (s : State) : Host.Outcome State Fault Refusal :=
  s.present (.adjuste t) true fun s =>
    s.writeCommand Config.regSec (encodeBurst (epochToBcd t.toNat).1 (epochToBcd t.toNat).2)

/-- A step while `SEQ` is `RUN(k)`. An outstanding call that never returns leaves the block where it is, while the
environment goes on (R13 (b)); otherwise the running command is a `NOW` or `EPOCH` whose dates did not agree, and makes
its next pass (R30 (d), R170). -/
def resume (s : State) : Host.Outcome State Fault Refusal :=
  if s.hung then .next s.envStep
  else if s.op = 0x06#8 then .next (s.timePass (argFlag s.arg) nowResult)
  else if s.op = 0x07#8 then .next (s.timePass (argFlag s.arg) epochCountResult)
  else .refused .notResumable

end Sys2Proof.Machine
end

