-- ==== Sys2Proof/Machine/Dispatch.lean ====
section
/-! DEFINITION. The dispatch of a command to its meaning: one arm per constructor of Instr. -/

namespace Sys2Proof.Machine

/-- Command `i` presented to the block in state `s`. -/
def exec (i : Instr) (s : State) : Host.Outcome State Fault Refusal :=
  match i with
  | .begin speed address => Sys2Proof.Machine.execBegin speed address s
  | .reset => Sys2Proof.Machine.execReset s
  | .getstatus => Sys2Proof.Machine.execGetstatus s
  | .isrunning => Sys2Proof.Machine.execIsrunning s
  | .isalarm => Sys2Proof.Machine.execIsalarm s
  | .istimer => Sys2Proof.Machine.execIstimer s
  | .now twice => Sys2Proof.Machine.execNow twice s
  | .epoch twice => Sys2Proof.Machine.execEpoch twice s
  | .adjust date time => Sys2Proof.Machine.execAdjust date time s
  | .adjuste t => Sys2Proof.Machine.execAdjuste t s
  | .activealarm enable => Sys2Proof.Machine.execActivealarm enable s
  | .activetimer enable => Sys2Proof.Machine.execActivetimer enable s
  | .setalarm a => Sys2Proof.Machine.execSetalarm a s
  | .getalarm => Sys2Proof.Machine.execGetalarm s
  | .settimer v => Sys2Proof.Machine.execSettimer v s
  | .gettimer => Sys2Proof.Machine.execGettimer s
  | .setclockout b => Sys2Proof.Machine.execSetclockout b s
  | .getclockout => Sys2Proof.Machine.execGetclockout s

end Sys2Proof.Machine
end

