-- ==== Sys2Proof/Machine/Fetch.lean ====
section
/-! DEFINITION. What a step does next (00_scope.md R11; 10_state.md R30; 60_exceptions.md R221): the reset input, the
running command, the next command word, or nothing. -/

namespace Sys2Proof.Machine

/-- What the next step is about. -/
inductive Fetched where
  /-- The reset input is asserted (R232); the state with that input taken. -/
  | reset (s : State)
  /-- A command is running (R30). -/
  | running
  /-- The block is idle and the host presents this word (R90); the state with that input taken. -/
  | command (w : Cmd) (s : State)
  /-- The block is idle and the host presents nothing. -/
  | nothing
  deriving DecidableEq, Repr

/-- The reset input acts at any time; a command word is presented only while the block is idle (R90, R245). -/
def fetch (s : State) : Fetched :=
  match s.host, s.seq with
  | .reset :: rest, _ => .reset { s with host := rest }
  | _, .run _ => .running
  | .command w :: rest, .idle => .command w { s with host := rest }
  | [], .idle => .nothing

end Sys2Proof.Machine
end

