-- ==== Sys2Proof/Machine/Step.lean ====
section
/-! DEFINITION. One step of the machine (log 2): the reset input, a pass of the running command, a whole command, or the
environment's move while the block has nothing to do. -/

namespace Sys2Proof.Machine

/-- One step. A reserved opcode is refused (30_encoding.md R92). -/
def step (s : State) : Host.Outcome State Fault Refusal :=
  match fetch s with
  | .reset t => .next t.blockReset
  | .running => resume s
  | .nothing => .next s.envStep
  | .command w t =>
    match decode w with
    | .ok i => exec i t
    | .error (.reservedOpcode op) => .refused (.reservedOpcode op)

/-- `s` with the table word `w` of `nbits` bits as the host's next input, the block idle and brought up (a `BEGIN` has
completed), so that the next step runs that command: log 1. -/
def State.withFetchWord (s : State) (nbits w : Nat) : State :=
  { s with
    host := .command (BitVec.ofNat 72 (w % 2 ^ nbits)) :: s.host
    seq := .idle
    hung := false
    begun := true }

end Sys2Proof.Machine
end

