-- ==== Sys2Proof/Safety.lean ====
section
/-! DEFINITION. The terms claims are made in: what the environment does with the coming calls, the closed forms of the
two transactions (20_memory.md R59, R60), the discipline of the transport calls (R57, R62), and the machine's
invariant. None of it is used by the step function. -/

namespace Sys2Proof.Machine

/-! ### The environment's coming moves -/

/-- The next `n` transport calls return (00_scope.md R13). -/
abbrev State.Returns (n : Nat) (s : State) : Prop := ∀ k < n, (s.moveAt k).returns = true

/-- The chip changes none of its registers around the next `n` transport calls. -/
abbrev State.Quiet (n : Nat) (s : State) : Prop := ∀ k < n, (s.moveAt k).ticks = []

/-- The chip's registers after its own changes around the next `k` calls, as long as none of them stores a byte. -/
def State.tickedChip (s : State) : Nat → Memory
  | 0 => s.chip
  | k + 1 => (s.tickedChip k).tick (s.moveAt k).ticks

/-- `k` moves used up. -/
def State.spend (k : Nat) (s : State) : State :=
  { s with moves := s.moves.drop k, freeMoves := s.freeMoves + (k - s.moves.length) }

/-- `RUN(k)` becomes `RUN(k+n)`. -/
def Seq.advanceBy (n : Nat) : Seq → Seq
  | .idle => .idle
  | .run k => .run (k + n)

/-! ### A register read, in closed form -/

/-- Byte `i` of a register read of `n` bytes from `reg` (R60): where the address phase succeeded and `n` bytes were
obtained, the content of register `reg + i` at the moment of the `i`-th `T_READ` (if it is known); else any byte. -/
def State.sample (reg : Byte) (n : Nat) (s : State) (i : Nat) : Byte :=
  if (s.moveAt 3).code = 0#8 ∧ (s.moveAt 4).code.toNat = n then
    ((s.tickedChip (5 + i)).read (reg + BitVec.ofNat 8 i).toNat).getD (s.moveAt (5 + i)).data
  else (s.moveAt (5 + i)).data

/-- The transport calls of a register read, with their answers (R60, 30_encoding.md R105). -/
def State.readTrace (reg : Byte) (n : Nat) (s : State) : List Event :=
  [⟨.setClock s.speed, .done⟩, ⟨.beginTx s.addr, .done⟩, ⟨.write reg, .done⟩,
    ⟨.endTx false, .value (s.moveAt 3).code⟩, ⟨.request s.addr n, .value (s.moveAt 4).code⟩]
  ++ (List.range n).map fun i => ⟨.read, .value (s.sample reg n i)⟩

/-- The state after a register read all of whose calls return (R60): `rb`, `err`, `avail` and the environment. -/
def State.afterRead (reg : Byte) (n : Nat) (s : State) : State :=
  { s with
    rb := Vector.ofFn fun i : Fin 9 => if i.val < n then s.sample reg n i.val else s.rb.get i
    err := (s.moveAt 3).code
    avail := (s.moveAt 4).code
    seq := s.seq.advanceBy (5 + n)
    chip := s.tickedChip (5 + n)
    sent := []
    ptr := reg + BitVec.ofNat 8 n
    readGood := decide ((s.moveAt 3).code = 0#8 ∧ (s.moveAt 4).code.toNat = n)
    moves := s.moves.drop (5 + n)
    freeMoves := s.freeMoves + (5 + n - s.moves.length)
    trace := s.trace ++ s.readTrace reg n }

/-! ### A register write, in closed form -/

/-- The transport calls of a register write, with their answers (R59, R105). -/
def State.writeTrace (reg : Byte) (bytes : List Byte) (s : State) : List Event :=
  [⟨.setClock s.speed, .done⟩, ⟨.beginTx s.addr, .done⟩, ⟨.write reg, .done⟩]
  ++ bytes.map (fun b => ⟨.write b, .done⟩)
  ++ [⟨.endTx true, .value (s.moveAt (bytes.length + 3)).code⟩]

/-- The chip's registers after a register write all of whose calls return (R58, R59): the chip's own changes before the
end of the transfer, the bytes that landed, the chip's own changes after it. -/
def State.writtenChip (reg : Byte) (bytes : List Byte) (s : State) : Memory :=
  ((s.tickedChip (bytes.length + 3)).store reg.toNat (landed (s.moveAt (bytes.length + 3)) bytes)).tick
    (s.moveAt (bytes.length + 3)).ticks

/-- The state after a register write all of whose calls return (R59): `wb`, `err` and the environment. -/
def State.afterWrite (reg : Byte) (bytes : List Byte) (s : State) : State :=
  { s with
    wb := Vector.ofFn fun i : Fin 7 => bytes.getD i.val (s.wb.get i)
    err := (s.moveAt (bytes.length + 3)).code
    seq := s.seq.advanceBy (bytes.length + 4)
    chip := s.writtenChip reg bytes
    sent := []
    ptr := reg + BitVec.ofNat 8 (landed (s.moveAt (bytes.length + 3)) bytes).length
    moves := s.moves.drop (bytes.length + 4)
    freeMoves := s.freeMoves + (bytes.length + 4 - s.moves.length)
    trace := s.trace ++ s.writeTrace reg bytes }

/-! ### Other closed forms -/

/-- The state after a `T_INIT()` that returns (R50). -/
def State.afterInit (s : State) : State :=
  { s with
    busInit := true
    seq := s.seq.advanceBy 1
    chip := s.tickedChip 1
    moves := s.moves.drop 1
    freeMoves := s.freeMoves + (1 - s.moves.length)
    trace := s.trace ++ [⟨.init, .done⟩] }

/-- The state after a status read all of whose calls return (41_init_status.md R152): both cached bytes as read. -/
def State.afterStatus (s : State) : State :=
  { s.afterRead 0x00#8 2 with cs1c := s.sample 0x00#8 2 0, cs2c := s.sample 0x00#8 2 1 }

/-- The nine bytes of a time read (42_time.md R170). -/
def State.burst (s : State) : Vector Byte 9 := Vector.ofFn fun i : Fin 9 => s.sample 0x00#8 9 i.val

/-- The state after a time read all of whose calls return, its bytes cached and decoded (R170). -/
def State.afterBurst (s : State) : State :=
  { s.afterRead 0x00#8 9 with
    cs1c := s.burst[0]
    cs2c := s.burst[1]
    cs3c := s.burst[2]
    curDate := burstDate s.burst
    curTime := burstTime s.burst }

/-! ### What stays -/

/-- Every block register but `rb`, `err`, `avail` and `SEQ` is the same, and so are the host's inputs and the
transport's initialised fact. -/
structure State.SameBlock (s t : State) : Prop where
  addr : t.addr = s.addr
  speed : t.speed = s.speed
  cs1c : t.cs1c = s.cs1c
  cs2c : t.cs2c = s.cs2c
  cs3c : t.cs3c = s.cs3c
  res : t.res = s.res
  op : t.op = s.op
  arg : t.arg = s.arg
  wb : t.wb = s.wb
  curDate : t.curDate = s.curDate
  curTime : t.curTime = s.curTime
  prevDate : t.prevDate = s.prevDate
  prevValid : t.prevValid = s.prevValid
  busInit : t.busInit = s.busInit
  host : t.host = s.host
  begun : t.begun = s.begun

/-- `t` is `s` stuck in a transaction whose calls are `calls`: the first `k` of them returned, call `k` never returns
(00_scope.md R13 (b)). The chip's own changes are those around the first `k` calls and during call `k` (log 21). -/
structure State.Stuck (calls : List Event) (k : Nat) (s t : State) : Prop where
  early : k < calls.length
  returned : s.Returns k
  stops : (s.moveAt k).returns = false
  hung : t.hung = true
  seq : t.seq = s.seq.advanceBy k
  same : s.SameBlock t
  chip : t.chip = s.tickedChip (k + 1)
  trace : ∃ e, calls[k]? = some e ∧ t.trace = s.trace ++ calls.take k ++ [⟨e.call, .never⟩]

/-! ### When a command may run -/

/-- The block is idle and no call is outstanding. -/
abbrev State.Idle (s : State) : Prop := s.seq = .idle ∧ s.hung = false

/-- Idle, and a `BEGIN` has completed since reset (R233). -/
abbrev State.Ready (s : State) : Prop := s.Idle ∧ s.begun = true

/-! ### What a command's word and its accesses are -/

/-- The operand bits a command names, by opcode (30_encoding.md R94 to R101). -/
def usedOperandBits (epochW : Nat) (op : Byte) : Word :=
  match op.toNat with
  | 0x00 => 0x000000FFFFFFFFFF#64
  | 0x06 => 0x0000000000000001#64
  | 0x07 => 0x0000000000000001#64
  | 0x08 => 0xFFFFFFFF00FFFFFF#64
  | 0x09 => BitVec.ofNat 64 (2 ^ epochW - 1)
  | 0x0A => 0x0000000000000001#64
  | 0x0B => 0x0000000000000001#64
  | 0x0C => 0x00000000FFFFFFFF#64
  | 0x0E => 0x000000000000FFFF#64
  | 0x10 => 0x00000000000000FF#64
  | _ => 0#64

/-- The chip registers a command may write: first address and how many (20_memory.md R66). -/
def storeRange : Instr → Nat × Nat
  | .reset => (Config.regCs1.toNat, 2)
  | .adjust _ _ => (Config.regSec.toNat, 7)
  | .adjuste _ => (Config.regSec.toNat, 7)
  | .activealarm _ => (Config.regCs2.toNat, 1)
  | .activetimer _ => (Config.regCs2.toNat, 1)
  | .setalarm _ => (Config.regAlarm.toNat, 4)
  | .settimer _ => (Config.regTimer.toNat, 2)
  | .setclockout _ => (Config.regClkout.toNat, 1)
  | .begin _ _ => (0, 0)
  | .getstatus => (0, 0)
  | .isrunning => (0, 0)
  | .isalarm => (0, 0)
  | .istimer => (0, 0)
  | .now _ => (0, 0)
  | .epoch _ => (0, 0)
  | .getalarm => (0, 0)
  | .gettimer => (0, 0)
  | .getclockout => (0, 0)

/-- The command is a `BEGIN`. -/
def isBegin : Instr → Bool
  | .begin _ _ => true
  | _ => false

/-- The command is one that may loop: `NOW 1` or `EPOCH 1` (R30 (d)). -/
def mayLoop : Instr → Bool
  | .now true => true
  | .epoch true => true
  | _ => false

/-- The state with other cached status bytes (10_state.md R22 to R24). -/
def State.withCache (a b c : Byte) (s : State) : State := { s with cs1c := a, cs2c := b, cs3c := c }

/-! ### The discipline of the transport calls (R57) -/

/-- Where the sequence of transport calls stands: outside a transaction, after `T_SETCLOCK`, after `T_BEGIN`, with the
register address and `k` data bytes sent, after `T_END(0)`, with `left` bytes to read. -/
inductive BusPhase where
  | free
  | clocked
  | opened
  | addressed (reg : Byte) (k : Nat)
  | turned (reg : Byte)
  | fetching (left : Nat)
  deriving DecidableEq, Repr

/-- The calls allowed in each phase: the patterns of R59 and R60 and the single `T_INIT` (R57), inside the register map
0x00 .. 0x0F (R61, R62). -/
def BusPhase.next : BusPhase → Call → Option BusPhase
  | .free, .init => some .free
  | .free, .setClock _ => some .clocked
  | .clocked, .beginTx _ => some .opened
  | .opened, .write r => some (.addressed r 0)
  | .addressed r k, .write _ => if r.toNat + k < Memory.size then some (.addressed r (k + 1)) else none
  | .addressed r 0, .endTx false => some (.turned r)
  | .addressed _ (_ + 1), .endTx true => some .free
  | .turned r, .request _ n => if 1 ≤ n ∧ r.toNat + n ≤ Memory.size then some (.fetching n) else none
  | .fetching (left + 1), .read => some (if left = 0 then .free else .fetching left)
  | _, _ => none

/-- The phase after a list of transport calls; none where a call was made out of turn. -/
def BusPhase.run (p : BusPhase) : List Event → Option BusPhase
  | [] => some p
  | e :: rest =>
    match p.next e.call with
    | some q => BusPhase.run q rest
    | none => none

/-! ### The invariant -/

/-- The command that loops (R30 (d)): `NOW` or `EPOCH` with `twice` set, and a previous date kept. -/
abbrev State.Looping (s : State) : Prop :=
  s.seq = .run 0 ∧ (s.op = 0x06#8 ∨ s.op = 0x07#8) ∧ argFlag s.arg = true ∧ s.prevValid = true

/-- What holds between steps: the chip's registers in canonical form; every transaction whole, in the patterns of R59
and R60 and inside the map, unless a call is outstanding for ever; the block idle, or looping in a command that came
after a `BEGIN`; every completed `BEGIN` and every stored speed after a `T_INIT`, and no other call before it (R46, R57,
R62, R233). -/
structure State.Inv (s : State) : Prop where
  chipWf : s.chip.wf
  whole : s.hung = false → BusPhase.free.run s.trace = some .free
  disciplined : (BusPhase.free.run s.trace).isSome = true
  between : s.hung = false → s.seq = .idle ∨ (s.Looping ∧ s.begun = true)
  waiting : s.hung = true → s.seq ≠ .idle
  begunInit : s.begun = true → s.busInit = true
  speedInit : s.speed ≠ 0#32 → s.busInit = true
  initFirst : s.busInit = false → ∀ e ∈ s.trace, e.call = .init

end Sys2Proof.Machine
end

