-- ==== Sys2Proof/Certificates/Slice0/Obligations.lean ====
section
/-! DEFINITION. The statements for the provers. A statement about a command gives its exact next state: `{ u with … }` is
every field of `u` but the listed ones. `u.afterRead`, `u.afterWrite`, `u.afterStatus`, `u.afterBurst`, `u.afterInit`
are the closed forms of Sys2Proof/Safety.lean: what a transaction all of whose calls return leaves. `(s.moveAt k).code`
is the transport's answer to the `k`-th call from `s`, `u.sample reg n i` byte `i` of a read of `n` bytes from `reg`. -/

open Sys2Proof Sys2Proof.Machine

/-! ### Encoding -/

/-- Words of spec/95_test_vectors.md section 7 decode to their commands (R91, R94 to R101), the last one's count fitting
every `EPOCH_W`. -/
def Obligations.WordsOfTheSpecDecode : Prop :=
  decode 0x0000000051000186A0#72 = .ok (.begin 100000#32 0x51#8) ∧
  decode 0x010000000000000000#72 = .ok .reset ∧
  decode 0x06FFFFFFFFFFFFFFFE#72 = .ok (.now false) ∧
  decode 0x082023091500123045#72 = .ok (.adjust 0x20230915#32 0x123045#24) ∧
  decode 0x0A0000000000000001#72 = .ok (.activealarm true) ∧
  decode 0x0C0000000081083005#72 = .ok (.setalarm 0x81083005#32) ∧
  decode 0x0E000000000000823C#72 = .ok (.settimer 0x823C#16) ∧
  decode 0x100000000000000083#72 = .ok (.setclockout 0x83#8) ∧
  decode 0x090000000065044E75#72 = .ok (.adjuste 1694781045#64)

/-- Decode and encode agree on every well-formed command, every operand at every value (R90, R91, R94 to R101). -/
def Obligations.DecodeOfEncodeIsTheCommand : Prop :=
  ∀ i : Instr, i.wellFormed = true → decode (encode i) = .ok i

/-- What the decoder gives is well-formed, has the word's opcode, and its own word decodes to it again. -/
def Obligations.DecodedCommandsAreWellFormed : Prop :=
  ∀ (w : Cmd) (i : Instr), decode w = .ok i →
    i.wellFormed = true ∧ i.opcode = opField w ∧ decode (encode i) = .ok i

/-- Opcodes 0x12 to 0xFF select no operation, all others select one; an idle block refuses such a word (R92). -/
def Obligations.ReservedOpcodesAreRefused : Prop :=
  (∀ w : Cmd, (∃ i, decode w = .ok i) ↔ (opField w).toNat < 0x12) ∧
  ∀ (s : State) (w : Cmd) (rest : List HostInput), s.host = .command w :: rest → s.seq = .idle →
    0x12 ≤ (opField w).toNat → step s = .refused (.reservedOpcode (opField w))

/-- Operand bits a command does not name have no effect on what a step does (R93). -/
def Obligations.UnusedOperandBitsAreIgnored : Prop :=
  ∀ (s : State) (w v : Cmd) (rest : List HostInput), s.seq = .idle → opField w = opField v →
    argField w &&& usedOperandBits Config.epochWidth (opField w)
      = argField v &&& usedOperandBits Config.epochWidth (opField v) →
    step { s with host := .command w :: rest } = step { s with host := .command v :: rest }

/-! ### The step -/

/-- A step of an idle block runs the command the host presents, with that input taken (one step per command is the
model's choice: log 2). -/
def Obligations.StepRunsThePresentedCommand : Prop :=
  ∀ (s : State) (w : Cmd) (rest : List HostInput) (i : Instr), s.host = .command w :: rest → s.seq = .idle →
    decode w = .ok i → i.wellFormed = true → step s = exec i { s with host := rest }

/-- Before the first `BEGIN` since reset has completed, every command but `BEGIN` is refused (R233, U4). -/
def Obligations.CommandsBeforeBeginAreRefused : Prop :=
  ∀ (i : Instr) (s : State), s.seq = .idle → s.begun = false → isBegin i = false →
    exec i s = .refused .beforeBegin

/-- A command presented while `SEQ` is not `IDLE` is refused (U5); the host's next word waits: a step of a running block
goes on with the running command and takes no input (R245, R30 (b)). -/
def Obligations.RunningBlockAcceptsNoCommand : Prop :=
  (∀ (i : Instr) (s : State) (k : Nat), s.seq = .run k → exec i s = .refused .busy) ∧
  ∀ (s : State) (k : Nat) (w : Cmd) (rest : List HostInput), s.seq = .run k → s.host = .command w :: rest →
    step s = resume s ∧ ∀ t, step s = .next t → t.host = s.host

/-- The reset input puts the block registers at their reset values, makes no transport call (it takes no move) and touches
neither the chip's registers nor its pointer (R230, R231). That it acts in every state, also while a call never
returns, and that the transport is reset with the block is the model's reading of R232: log 16. -/
def Obligations.ResetInputClearsTheBlockOnly : Prop :=
  ∀ (s : State) (rest : List HostInput), s.host = .reset :: rest →
    ∃ t, step s = .next t ∧ t.speed = 0#32 ∧ t.addr = 0#8 ∧ t.cs1c = 0#8 ∧ t.cs2c = 0#8 ∧ t.cs3c = 0#8 ∧
      t.res = 0#64 ∧ t.seq = .idle ∧ t.hung = false ∧ t.busInit = false ∧ t.begun = false ∧
      t.chip = s.chip ∧ t.ptr = s.ptr ∧ t.moves = s.moves ∧ t.freeMoves = s.freeMoves ∧ t.host = rest

/-- The reset values the spec states (R48): block registers, `SEQ`, transport not initialised. -/
def Obligations.ResetValues : Prop :=
  State.reset.speed = 0#32 ∧ State.reset.addr = 0x00#8 ∧ State.reset.cs1c = 0x00#8 ∧ State.reset.cs2c = 0x00#8 ∧
  State.reset.cs3c = 0x00#8 ∧ State.reset.res = 0#64 ∧ State.reset.seq = .idle ∧ State.reset.busInit = false

/-- The invariant holds at reset. -/
def Obligations.InvariantHoldsAtReset : Prop := State.reset.Inv

/-- Every step keeps the invariant: chip registers in canonical form, transactions whole and in turn and inside the
register map (R57, R61, R62), the block idle or looping between steps, `T_INIT` before everything else (R46). -/
def Obligations.StepKeepsTheInvariant : Prop :=
  ∀ s t : State, s.Inv → step s = .next t → t.Inv

/-- In a state that meets the invariant a step is refused only for the host's word: a reserved opcode, or a command
before the first `BEGIN`. -/
def Obligations.OnlyTheHostsWordIsRefused : Prop :=
  ∀ (s : State) (r : Refusal), s.Inv → step s = .refused r →
    ∃ w rest, s.host = .command w :: rest ∧ s.seq = .idle ∧
      ((∃ op, decode w = .error (.reservedOpcode op) ∧ r = .reservedOpcode op) ∨
        (∃ i, decode w = .ok i ∧ isBegin i = false ∧ s.begun = false ∧ r = .beforeBegin))

/-- An idle block with nothing presented makes no call and changes no register; only the chip may change. -/
def Obligations.IdleBlockOnlyWaits : Prop :=
  ∀ s : State, s.seq = .idle → s.host = [] →
    ∃ t, step s = .next t ∧ s.SameBlock t ∧ t.seq = .idle ∧ t.rb = s.rb ∧ t.err = s.err ∧ t.avail = s.avail ∧
      t.trace = s.trace ∧ t.hung = s.hung ∧ t.chip = s.chip.tick (s.moveAt 0).ticks

/-- A command one of whose calls never returns stays unfinished for ever, short of a reset (R13 (b)): any number of
steps leaves `SEQ`, the block registers and the trace as they are (how the model shows it: log 8). -/
def Obligations.UnfinishedCommandStaysUnfinished : Prop :=
  ∀ (n : Nat) (s : State) (k : Nat), s.hung = true → s.seq = .run k → s.host.head? ≠ some .reset →
    ∃ t, Host.Core.run core n s = .next t ∧ s.SameBlock t ∧ t.seq = .run k ∧ t.hung = true ∧ t.trace = s.trace

/-- A step of a looping command makes one more read of the loop of R170: equal dates end the command with the result of
the later read, other dates are kept and the loop goes back (one pass per step is the model's choice: log 2). -/
def Obligations.LoopingStepMakesOnePass : Prop :=
  ∀ s : State, s.Looping → s.hung = false → s.host.head? ≠ some .reset → s.Returns 14 →
    step s = .next (if s.prevDate = burstDate s.burst then
        { s.afterBurst with
          res := if s.op = 0x06#8 then dateTimeResult (burstDate s.burst) (burstTime s.burst)
            else epochResult (bcdToEpoch Config.epochWidth (burstDate s.burst) (burstTime s.burst))
          seq := .idle }
      else { s.afterBurst with prevDate := burstDate s.burst, prevValid := true, seq := .run 0 })

/-! ### The two transactions -/

/-- A register read (R60): the calls in order, then each byte is the content of register `reg + i` at the moment of its
`T_READ` where the read succeeded (and any byte where it did not, or where that content is not known). R60 says "at the
moment the chip sent that byte": that this is the `i`-th `T_READ` is the model's choice (log 10), and so is the free byte
of a register whose content is not known (log 4). -/
def Obligations.RegisterReadDeliversRegisters : Prop :=
  ∀ (reg : Byte) (n : Nat) (s : State), n ≤ 9 → reg.toNat + n ≤ 16 → s.hung = false → s.Returns (5 + n) →
    (s.memRead reg n).trace = s.trace ++ s.readTrace reg n ∧
    ∀ i (h : i < 9), i < n → (s.memRead reg n).rb[i] =
      if (s.moveAt 3).code = 0#8 ∧ (s.moveAt 4).code.toNat = n then
        ((s.tickedChip (5 + i)).read (reg.toNat + i)).getD (s.moveAt (5 + i)).data
      else (s.moveAt (5 + i)).data

/-- A register write (R59) on a chip that does not tick: the calls in order, the result is whether the error code is 0;
on success register `reg + i` holds byte `i`, on failure a prefix of the bytes got there (U2); every other register is
as before. That the bytes land at `T_END` is the model's choice: log 9. -/
def Obligations.RegisterWriteStoresBytes : Prop :=
  ∀ (reg : Byte) (bytes : List Byte) (s : State), bytes.length ≤ 7 → reg.toNat + bytes.length ≤ 16 →
    s.hung = false → s.chip.wf → s.Returns (bytes.length + 4) → s.Quiet (bytes.length + 4) →
    let t := (s.loadWb bytes).memWrite reg bytes.length
    let e := (s.moveAt (bytes.length + 3)).code
    t.trace = s.trace ++ s.writeTrace reg bytes ∧
    t.writeOk = (if e = 0#8 then 1#64 else 0#64) ∧
    ∀ a : Nat, t.chip.read a =
      if reg.toNat ≤ a ∧ a < reg.toNat + bytes.length
          ∧ (e = 0#8 ∨ a - reg.toNat < (s.moveAt (bytes.length + 3)).took) then bytes[a - reg.toNat]?
      else s.chip.read a

/-! ### The codec -/

/-- BCD and binary are inverse on valid digits (R139 (d)). -/
def Obligations.BcdRoundTrips : Prop :=
  (∀ b : Byte, validBcd8 b = true → bin2bcd8 (bcd2bin8 b) = b) ∧
  (∀ n : Nat, n ≤ 99 → bcd2bin8 (bin2bcd8 n) = n) ∧
  (∀ v : BitVec 16, validBcd16 v = true → bin2bcd16 (bcd2bin16 v) = v) ∧
  ∀ n : Nat, n ≤ 9999 → bcd2bin16 (bin2bcd16 n) = n

/-- The year from its byte and the century bit (R124): the two decimal digits, 2000, and 100 with the bit; 2000 .. 2199
for a valid byte, at most 2265 for any. -/
def Obligations.YearDecoding : Prop :=
  ∀ (y : Byte) (c : Bool),
    decodeYear y c = 2000 + (y.toNat / 16 * 10 + y.toNat % 16) + (if c then 100 else 0) ∧
    decodeYear y c ≤ 2265 ∧ 2000 ≤ decodeYear y c ∧ (validBcd8 y = true → decodeYear y c ≤ 2199)

/-- The century bit (R125): its rule, the centuries the rule names, its period of 400 years. -/
def Obligations.CenturyBitRule : Prop :=
  (∀ year : Nat, centuryBit year = (if year / 100 % 4 = 0 then 0x00#8 else 0x80#8) ∧
    centuryBit year = centuryBit (year + 400)) ∧
  (∀ year : Nat, 1600 ≤ year ∧ year ≤ 1699 ∨ 2000 ≤ year ∧ year ≤ 2099 ∨ 2400 ≤ year ∧ year ≤ 2499 →
    centuryBit year = 0x00#8) ∧
  ∀ year : Nat, 1900 ≤ year ∧ year ≤ 1999 ∨ 2100 ≤ year ∧ year ≤ 2399 → centuryBit year = 0x80#8

/-- The year digits and the century bit written for a year are read back as that year exactly for 2000 .. 2199 (a
consequence the spec derives at R125). -/
def Obligations.YearIsReadBackInTwoCenturies : Prop :=
  ∀ year : Nat, decodeYear (bin2bcd8 (year % 100)) ((centuryBit year).getLsbD 7) = year ↔ 2000 ≤ year ∧ year ≤ 2199

/-- `DaysFromCivil` counts the days of the Gregorian calendar from 1970-01-01 (R128), and the weekday follows the count
(R131). The calendar, the epoch and the numbering of weekdays are PRESUMED: log 14. -/
def Obligations.DayCountFollowsTheCalendar : Prop :=
  daysFromCivil 1970 1 1 = 0 ∧
  (∀ y m d : Int, validDate y m d = true →
    (validDate y m (d + 1) = true → daysFromCivil y m (d + 1) = daysFromCivil y m d + 1) ∧
    (validDate y m (d + 1) = false → m < 12 → daysFromCivil y (m + 1) 1 = daysFromCivil y m d + 1) ∧
    (validDate y m (d + 1) = false → m = 12 → daysFromCivil (y + 1) 1 1 = daysFromCivil y m d + 1)) ∧
  weekday 0 = 4 ∧ ∀ z : Int, weekday z ≤ 6 ∧ weekday (z + 1) = (weekday z + 1) % 7

/-- `CivilFromDays` gives a valid date and is the inverse of `DaysFromCivil` on valid dates (R129). The calendar is
PRESUMED: log 14. -/
def Obligations.CalendarFunctionsAreInverse : Prop :=
  (∀ z : Int, validDate (civilFromDays z).1 (civilFromDays z).2.1 (civilFromDays z).2.2 = true ∧
    daysFromCivil (civilFromDays z).1 (civilFromDays z).2.1 (civilFromDays z).2.2 = z) ∧
  ∀ y m d : Int, validDate y m d = true → civilFromDays (daysFromCivil y m d) = (y, m, d)

/-- A valid date-time goes to the epoch count and back bit for bit (R139 (c), first half). -/
def Obligations.DateTimeRoundTripsThroughEpoch : Prop :=
  ∀ (epochW : Nat) (date : Date) (time : Time), 32 ≤ epochW → epochW ≤ 64 → validDT date time = true →
    consistentFlag date = true → 1970 ≤ bcd2bin16 (dateYear date) → dateDays date * 86400 + 86399 < (2 ^ epochW : Nat) →
    epochToBcd (bcdToEpoch epochW date time) = (date, time)

/-- An epoch count whose year has four digits goes to a date-time and back (R139 (c), second half). -/
def Obligations.EpochRoundTripsThroughDateTime : Prop :=
  ∀ epochW t : Nat, 32 ≤ epochW → epochW ≤ 64 → t < 2 ^ epochW → (civilFromDays ((t / 86400 : Nat) : Int)).1 ≤ 9999 →
    bcdToEpoch epochW (epochToBcd t).1 (epochToBcd t).2 = t

/-- The registers of a valid date-time are written back as read, but for the weekday (R139 (e)). -/
def Obligations.RegistersRoundTripThroughTheCodec : Prop :=
  ∀ rb : Vector Byte 9, validBcd8 rb[8] = true → rb[2].getLsbD 7 = false →
    validDT (burstDate rb) (burstTime rb) = true →
    encodeBurst (decodeBurst rb).1 (decodeBurst rb).2
      = [rb[2], rb[3], rb[4], rb[5], BitVec.ofNat 8 (weekday (dateDays (burstDate rb))), rb[7], rb[8]]

/-- The date-time that the nine bytes of a time read give, byte by byte (R98, R132): four decimal year digits, month with its
century flag, day, a zero byte, hour, minute, second without the voltage-low flag. -/
def Obligations.TimeReadGivesItsFields : Prop :=
  ∀ rb : Vector Byte 9,
    let v := dateTimeResult (burstDate rb) (burstTime rb)
    validBcd16 (v.extractLsb' 48 16) = true ∧
    bcd2bin16 (v.extractLsb' 48 16) = decodeYear rb[8] (rb[7].getLsbD 7) ∧
    v.extractLsb' 40 8 = rb[7] ∧ v.extractLsb' 32 8 = rb[5] ∧ v.extractLsb' 24 8 = 0x00#8 ∧
    v.extractLsb' 16 8 = rb[4] ∧ v.extractLsb' 8 8 = rb[3] ∧ v.extractLsb' 0 8 = rb[2] &&& 0x7F#8

/-- Alarm packing (R136, R137): minute, hour, day and weekday bytes out of an alarm value and back; only bit 3 is
lost. -/
def Obligations.AlarmPacking : Prop :=
  (∀ a : BitVec 32, ∃ b0 b1 b2 b3 : Byte, alarmToBytes a = [b0, b1, b2, b3] ∧
    b0.toNat = a.toNat / 0x100 % 0x100 ∧ b1.toNat = a.toNat / 0x10000 % 0x100 ∧ b2.toNat = a.toNat / 0x1000000 ∧
    b3 = BitVec.ofNat 8 a.toNat &&& 0xF7#8 ∧ bytesToAlarm b0 b1 b2 b3 = a &&& 0xFFFFFFF7#32) ∧
  ∀ b0 b1 b2 b3 : Byte, (bytesToAlarm b0 b1 b2 b3).toNat
    = b2.toNat * 0x1000000 + b1.toNat * 0x10000 + b0.toNat * 0x100 + b3.toNat

/-- Timer packing (R138): control high, countdown value low, nothing masked. -/
def Obligations.TimerPacking : Prop :=
  (∀ v : BitVec 16, timerToBytes v = [BitVec.ofNat 8 (v.toNat / 0x100), BitVec.ofNat 8 (v.toNat % 0x100)]) ∧
  ∀ b0 b1 : Byte, (bytesToTimer b0 b1).toNat = b0.toNat * 0x100 + b1.toNat

/-! ### The commands -/

/-- `BEGIN` (R150): `T_INIT()` only where the old `SPEED` is 0, then `ADDR` and `SPEED` stored, then a status read with
the new ones; the result is true exactly where the STOP bit read is clear. -/
def Obligations.BeginInitialisesAndReportsRunning : Prop :=
  ∀ (s : State) (speed : BitVec 32) (address : Byte), s.Idle → s.Returns (if s.speed = 0#32 then 8 else 7) →
    let a := s.accept (.begin speed address)
    let b := if s.speed = 0#32 then a.afterInit else { a with seq := .run 1 }
    let u := { b with addr := address, speed := speed }
    exec (.begin speed address) s = .next { u.afterStatus with
      begun := true
      res := if (u.sample 0x00#8 2 0).getLsbD 5 then 0#64 else 1#64
      seq := .idle }

/-- `RESET` (R151): zero to registers 0x00 and 0x01; the result is whether the error code is 0; the cache stays. -/
def Obligations.ResetWritesTwoZeros : Prop :=
  ∀ s : State, s.Ready → s.Returns 6 →
    let u := s.accept .reset
    exec .reset s = .next { u.afterWrite 0x00#8 [0x00#8, 0x00#8] with
      res := if (s.moveAt 5).code = 0#8 then 1#64 else 0#64, seq := .idle }

/-- `GETSTATUS` (R152, with its encoding): two bytes from register 0x00 cached, CS2 the result. -/
def Obligations.GetStatusCachesAndReturnsCs2 : Prop :=
  (∀ w : Cmd, opField w = 0x02#8 → decode w = .ok .getstatus) ∧
  ∀ s : State, s.Ready → s.Returns 7 →
    let u := s.accept .getstatus
    exec .getstatus s = .next { u.afterStatus with
      res := (u.sample 0x00#8 2 1).setWidth 64, seq := .idle }

/-- `ISRUNNING` (R153, with its encoding): false exactly when the STOP bit (bit 5) of CS1 is set. -/
def Obligations.IsRunningTestsStop : Prop :=
  (∀ w : Cmd, opField w = 0x03#8 → decode w = .ok .isrunning) ∧
  ∀ s : State, s.Ready → s.Returns 7 →
    let u := s.accept .isrunning
    exec .isrunning s = .next { u.afterStatus with
      res := if (u.sample 0x00#8 2 0).getLsbD 5 then 0#64 else 1#64, seq := .idle }

/-- `ISALARM` (R154, with its encoding): bit 3 of CS2. -/
def Obligations.IsAlarmTestsAlarmFlag : Prop :=
  (∀ w : Cmd, opField w = 0x04#8 → decode w = .ok .isalarm) ∧
  ∀ s : State, s.Ready → s.Returns 7 →
    let u := s.accept .isalarm
    exec .isalarm s = .next { u.afterStatus with
      res := if (u.sample 0x00#8 2 1).getLsbD 3 then 1#64 else 0#64, seq := .idle }

/-- `ISTIMER` (R155, with its encoding): bit 2 of CS2. -/
def Obligations.IsTimerTestsTimerFlag : Prop :=
  (∀ w : Cmd, opField w = 0x05#8 → decode w = .ok .istimer) ∧
  ∀ s : State, s.Ready → s.Returns 7 →
    let u := s.accept .istimer
    exec .istimer s = .next { u.afterStatus with
      res := if (u.sample 0x00#8 2 1).getLsbD 2 then 1#64 else 0#64, seq := .idle }

/-- `NOW` (R170). With `twice = 0` one read is the result. With `twice = 1` there are two reads; equal packed dates end
the command with the later read, other dates leave it looping, to go on in the next step (the model's choice: log 2). The
cache keeps the last read. -/
def Obligations.NowReadsOnceOrUntilDatesAgree : Prop :=
  ∀ s : State, s.Ready →
    (s.Returns 14 →
      let u := { s.accept (.now false) with prevValid := false }
      exec (.now false) s = .next { u.afterBurst with
        res := dateTimeResult (burstDate u.burst) (burstTime u.burst), seq := .idle }) ∧
    (s.Returns 28 →
      let u := { s.accept (.now true) with prevValid := false }
      let v := { u.afterBurst with prevDate := burstDate u.burst, prevValid := true, seq := .run 0 }
      exec (.now true) s = .next (if burstDate u.burst = burstDate v.burst then
          { v.afterBurst with res := dateTimeResult (burstDate v.burst) (burstTime v.burst), seq := .idle }
        else { v.afterBurst with prevDate := burstDate v.burst, prevValid := true, seq := .run 0 }))

/-- `EPOCH` (R171): as `NOW`, the result converted to the count of `EPOCH_W` bits, whatever `EPOCH_W` is. -/
def Obligations.EpochConvertsTheTimeRead : Prop :=
  ∀ s : State, s.Ready →
    (s.Returns 14 →
      let u := { s.accept (.epoch false) with prevValid := false }
      exec (.epoch false) s = .next { u.afterBurst with
        res := BitVec.ofNat 64 (bcdToEpoch Config.epochWidth (burstDate u.burst) (burstTime u.burst))
        seq := .idle }) ∧
    (s.Returns 28 →
      let u := { s.accept (.epoch true) with prevValid := false }
      let v := { u.afterBurst with prevDate := burstDate u.burst, prevValid := true, seq := .run 0 }
      exec (.epoch true) s = .next (if burstDate u.burst = burstDate v.burst then
          { v.afterBurst with
            res := BitVec.ofNat 64 (bcdToEpoch Config.epochWidth (burstDate v.burst) (burstTime v.burst))
            seq := .idle }
        else { v.afterBurst with prevDate := burstDate v.burst, prevValid := true, seq := .run 0 }))

/-- `ADJUST` (R172): the seven encoded bytes (R135) to registers 0x02 .. 0x08, any operand, no other register of the
block but the result. -/
def Obligations.AdjustWritesTheEncodedTime : Prop :=
  ∀ (s : State) (date : Date) (time : Time), s.Ready → s.Returns 11 →
    let u := s.accept (.adjust date time)
    exec (.adjust date time) s = .next { u.afterWrite 0x02#8 (encodeBurst date time) with
      res := if (s.moveAt 10).code = 0#8 then 1#64 else 0#64, seq := .idle }

/-- `ADJUSTE` (R173): the count converted (R134), then as `ADJUST`. -/
def Obligations.AdjustEpochWritesTheConvertedCount : Prop :=
  ∀ (s : State) (t : Word), s.Ready → s.Returns 11 →
    let u := s.accept (.adjuste t)
    exec (.adjuste t) s = .next
      { u.afterWrite 0x02#8 (encodeBurst (epochToBcd t.toNat).1 (epochToBcd t.toNat).2) with
        res := if (s.moveAt 10).code = 0#8 then 1#64 else 0#64, seq := .idle }

/-- `ACTIVEALARM` (R190): a status read; on a stopped chip false and nothing more; else AF (bit 3) cleared and AIE set or
cleared in the CS2 just read, in the cache and in register 0x01. The value of `AIE_MASK` is PRESUMED (log 13). -/
def Obligations.ActiveAlarmArmsARunningChip : Prop :=
  ∀ (s : State) (enable : Bool), s.Ready → s.Returns 7 →
    let u := (s.accept (.activealarm enable)).afterStatus
    let cleared := u.cs2c &&& 0xF7#8
    let cs2 := if enable then cleared ||| Config.aieMask else cleared &&& ~~~ Config.aieMask
    if u.cs1c.getLsbD 5 then
      exec (.activealarm enable) s = .next { u with res := 0#64, seq := .idle }
    else s.Returns 12 →
      exec (.activealarm enable) s = .next { ({ u with cs2c := cs2 } : State).afterWrite 0x01#8 [cs2] with
        res := if (s.moveAt 11).code = 0#8 then 1#64 else 0#64, seq := .idle }

/-- `ACTIVETIMER` (R191): as `ACTIVEALARM` with TF (bit 2) and TIE, whose mask's value is PRESUMED (log 13). -/
def Obligations.ActiveTimerArmsARunningChip : Prop :=
  ∀ (s : State) (enable : Bool), s.Ready → s.Returns 7 →
    let u := (s.accept (.activetimer enable)).afterStatus
    let cleared := u.cs2c &&& 0xFB#8
    let cs2 := if enable then cleared ||| Config.tieMask else cleared &&& ~~~ Config.tieMask
    if u.cs1c.getLsbD 5 then
      exec (.activetimer enable) s = .next { u with res := 0#64, seq := .idle }
    else s.Returns 12 →
      exec (.activetimer enable) s = .next { ({ u with cs2c := cs2 } : State).afterWrite 0x01#8 [cs2] with
        res := if (s.moveAt 11).code = 0#8 then 1#64 else 0#64, seq := .idle }

/-- `SETALARM` (R192, with its encoding): minute, hour, day, and the weekday with bit 3 cleared, to registers
0x09 .. 0x0C. -/
def Obligations.SetAlarmWritesFourBytes : Prop :=
  (∀ w : Cmd, opField w = 0x0C#8 → decode w = .ok (.setalarm (argAlarm (argField w)))) ∧
  ∀ (s : State) (a : BitVec 32), s.Ready → s.Returns 8 →
    let u := s.accept (.setalarm a)
    exec (.setalarm a) s = .next
      { u.afterWrite 0x09#8
          [a.extractLsb' 8 8, a.extractLsb' 16 8, a.extractLsb' 24 8, a.extractLsb' 0 8 &&& 0xF7#8] with
        res := if (s.moveAt 7).code = 0#8 then 1#64 else 0#64, seq := .idle }

/-- `GETALARM` (R193, with its encoding): registers 0x0B, 0x0A, 0x09, 0x0C from the high byte down, unmasked. -/
def Obligations.GetAlarmRepacksFourBytes : Prop :=
  (∀ w : Cmd, opField w = 0x0D#8 → decode w = .ok .getalarm) ∧
  ∀ s : State, s.Ready → s.Returns 9 →
    let u := s.accept .getalarm
    exec .getalarm s = .next { u.afterRead 0x09#8 4 with
      res := BitVec.ofNat 64 ((u.sample 0x09#8 4 2).toNat * 0x1000000 + (u.sample 0x09#8 4 1).toNat * 0x10000
        + (u.sample 0x09#8 4 0).toNat * 0x100 + (u.sample 0x09#8 4 3).toNat)
      seq := .idle }

/-- `SETTIMER` (R194, with its encoding): control, then countdown value, to registers 0x0E and 0x0F. -/
def Obligations.SetTimerWritesTwoBytes : Prop :=
  (∀ w : Cmd, opField w = 0x0E#8 → decode w = .ok (.settimer (argTimer (argField w)))) ∧
  ∀ (s : State) (v : BitVec 16), s.Ready → s.Returns 6 →
    let u := s.accept (.settimer v)
    exec (.settimer v) s = .next
      { u.afterWrite 0x0E#8 [v.extractLsb' 8 8, v.extractLsb' 0 8] with
        res := if (s.moveAt 5).code = 0#8 then 1#64 else 0#64, seq := .idle }

/-- `GETTIMER` (R195, with its encoding): control high, value low. -/
def Obligations.GetTimerReadsTwoBytes : Prop :=
  (∀ w : Cmd, opField w = 0x0F#8 → decode w = .ok .gettimer) ∧
  ∀ s : State, s.Ready → s.Returns 7 →
    let u := s.accept .gettimer
    exec .gettimer s = .next { u.afterRead 0x0E#8 2 with
      res := BitVec.ofNat 64 ((u.sample 0x0E#8 2 0).toNat * 0x100 + (u.sample 0x0E#8 2 1).toNat)
      seq := .idle }

/-- `SETCLOCKOUT` (R196, with its encoding): the byte to register 0x0D. -/
def Obligations.SetClockOutWritesOneByte : Prop :=
  (∀ w : Cmd, opField w = 0x10#8 → decode w = .ok (.setclockout (argByte (argField w)))) ∧
  ∀ (s : State) (b : Byte), s.Ready → s.Returns 5 →
    let u := s.accept (.setclockout b)
    exec (.setclockout b) s = .next { u.afterWrite 0x0D#8 [b] with
      res := if (s.moveAt 4).code = 0#8 then 1#64 else 0#64, seq := .idle }

/-- `GETCLOCKOUT` (R197, with its encoding): the byte of register 0x0D. -/
def Obligations.GetClockOutReadsOneByte : Prop :=
  (∀ w : Cmd, opField w = 0x11#8 → decode w = .ok .getclockout) ∧
  ∀ s : State, s.Ready → s.Returns 6 →
    let u := s.accept .getclockout
    exec .getclockout s = .next { u.afterRead 0x0D#8 1 with
      res := (u.sample 0x0D#8 1 0).setWidth 64, seq := .idle }

/-! ### Frames: what a command leaves unchanged, whether its calls return or not -/

/-- On a chip that does not tick, a command changes at most the registers R66 gives it (none for a reading one). -/
def Obligations.CommandsStoreOnlyInTheirRegisters : Prop :=
  ∀ (i : Instr) (s t : State) (a : Nat), s.chip.wf → s.Quiet 28 → exec i s = .next t →
    ¬ ((storeRange i).1 ≤ a ∧ a < (storeRange i).1 + (storeRange i).2) → t.chip.read a = s.chip.read a

/-- `GETALARM`, `GETTIMER`, `GETCLOCKOUT` change no block register but `RES` and the working registers `op`, `arg`,
`rb`, `err`, `avail` (R193, R195, R197). -/
def Obligations.ReadingCommandsKeepTheRest : Prop :=
  ∀ (i : Instr) (s t : State), i ∈ [Instr.getalarm, .gettimer, .getclockout] → exec i s = .next t →
    t.addr = s.addr ∧ t.speed = s.speed ∧ t.cs1c = s.cs1c ∧ t.cs2c = s.cs2c ∧ t.cs3c = s.cs3c ∧ t.wb = s.wb ∧
    t.curDate = s.curDate ∧ t.curTime = s.curTime ∧ t.prevDate = s.prevDate ∧ t.prevValid = s.prevValid ∧
    t.busInit = s.busInit ∧ t.host = s.host ∧ t.begun = s.begun

/-- `GETSTATUS`, `ISRUNNING`, `ISALARM`, `ISTIMER` change no block register but `RES`, `CS1C`, `CS2C` and the working
registers `op`, `arg`, `rb`, `err`, `avail` (R152 to R155). -/
def Obligations.StatusCommandsKeepTheRest : Prop :=
  ∀ (i : Instr) (s t : State), i ∈ [Instr.getstatus, .isrunning, .isalarm, .istimer] → exec i s = .next t →
    t.addr = s.addr ∧ t.speed = s.speed ∧ t.cs3c = s.cs3c ∧ t.wb = s.wb ∧
    t.curDate = s.curDate ∧ t.curTime = s.curTime ∧ t.prevDate = s.prevDate ∧ t.prevValid = s.prevValid ∧
    t.busInit = s.busInit ∧ t.host = s.host ∧ t.begun = s.begun

/-- `NOW` and `EPOCH` change no block register but `RES`, `CS1C`, `CS2C`, `CS3C` and the working registers `op`, `arg`,
`rb`, `err`, `avail`, `cur`, `prev` (R170, R171). -/
def Obligations.TimeCommandsKeepTheRest : Prop :=
  ∀ (twice : Bool) (i : Instr) (s t : State), i ∈ [Instr.now twice, .epoch twice] → exec i s = .next t →
    t.addr = s.addr ∧ t.speed = s.speed ∧ t.wb = s.wb ∧
    t.busInit = s.busInit ∧ t.host = s.host ∧ t.begun = s.begun

/-- The six one-write commands change no block register but `RES` and the working registers `op`, `arg`, `wb`, `err`
(R151, R172, R173, R192, R194, R196): the cache is not touched. -/
def Obligations.WritingCommandsKeepTheRest : Prop :=
  ∀ (date : Date) (time : Time) (n : Word) (a : BitVec 32) (v : BitVec 16) (b : Byte) (i : Instr) (s t : State),
    i ∈ [Instr.reset, .adjust date time, .adjuste n, .setalarm a, .settimer v, .setclockout b] → exec i s = .next t →
    t.addr = s.addr ∧ t.speed = s.speed ∧ t.cs1c = s.cs1c ∧ t.cs2c = s.cs2c ∧ t.cs3c = s.cs3c ∧ t.rb = s.rb ∧
    t.avail = s.avail ∧ t.curDate = s.curDate ∧ t.curTime = s.curTime ∧ t.prevDate = s.prevDate ∧
    t.prevValid = s.prevValid ∧ t.busInit = s.busInit ∧ t.host = s.host ∧ t.begun = s.begun

/-- `ACTIVEALARM` and `ACTIVETIMER` change no block register but `RES`, `CS1C`, `CS2C` and the working registers `op`,
`arg`, `rb`, `wb`, `err`, `avail` (R190, R191). -/
def Obligations.ArmingCommandsKeepTheRest : Prop :=
  ∀ (enable : Bool) (i : Instr) (s t : State), i ∈ [Instr.activealarm enable, .activetimer enable] →
    exec i s = .next t →
    t.addr = s.addr ∧ t.speed = s.speed ∧ t.cs3c = s.cs3c ∧
    t.curDate = s.curDate ∧ t.curTime = s.curTime ∧ t.prevDate = s.prevDate ∧ t.prevValid = s.prevValid ∧
    t.busInit = s.busInit ∧ t.host = s.host ∧ t.begun = s.begun

/-- `BEGIN` changes, besides `ADDR`, `SPEED`, `CS1C`, `CS2C` and `RES`, only the working registers `op`, `arg`, `rb`, `err`,
`avail`, the transport's initialised fact and the record of a completed `BEGIN` (R150). -/
def Obligations.BeginKeepsTheRest : Prop :=
  ∀ (speed : BitVec 32) (address : Byte) (s t : State), exec (.begin speed address) s = .next t →
    t.cs3c = s.cs3c ∧ t.wb = s.wb ∧ t.curDate = s.curDate ∧ t.curTime = s.curTime ∧ t.prevDate = s.prevDate ∧
    t.prevValid = s.prevValid ∧ t.host = s.host

/-! ### Rules of the whole machine -/

/-- The outcomes of a command presented to an idle block (R13): a next state always, and in it the command has
completed, or one of its calls never returns, or it is a `NOW` or `EPOCH` that loops; in the last two `RES` is as it
was. How the model shows the last two is its choice: log 2, log 8. -/
def Obligations.OutcomesOfACommand : Prop :=
  ∀ (i : Instr) (s : State), s.Idle → (isBegin i = true ∨ s.begun = true) →
    ∃ t, exec i s = .next t ∧
      (t.Idle ∨ (t.hung = true ∧ t.seq ≠ .idle ∧ t.res = s.res) ∨
        (t.hung = false ∧ t.Looping ∧ t.res = s.res ∧ mayLoop i = true))

/-- The arguments of the transport calls (R50, R51, R52, R55), whether the calls return or not: the speed is `SPEED`, the
address `ADDR`, the byte count 1, 2, 4 or 9; `T_INIT()` only in a `BEGIN` that finds `SPEED` 0. First for a command that
is accepted, then for a later step of a block that is not idle, which makes the calls of one pass of a looping `NOW` or
`EPOCH` (log 2) or none. -/
def Obligations.TransportCallArguments : Prop :=
  (∀ (i : Instr) (s t : State), s.Idle → exec i s = .next t →
    ∃ es : List Event, t.trace = s.trace ++ es ∧ ∀ e ∈ es,
      (e.call = .init → isBegin i = true ∧ s.speed = 0#32) ∧
      (∀ f, e.call = .setClock f → f = t.speed) ∧
      (∀ a, e.call = .beginTx a → a = t.addr) ∧
      (∀ a n, e.call = .request a n → a = t.addr ∧ n ∈ [1, 2, 4, 9])) ∧
  ∀ s t : State, s.seq ≠ .idle → s.host.head? ≠ some .reset → step s = .next t →
    ∃ es : List Event, t.trace = s.trace ++ es ∧ ∀ e ∈ es,
      e.call ≠ .init ∧
      (∀ f, e.call = .setClock f → f = t.speed) ∧
      (∀ a, e.call = .beginTx a → a = t.addr) ∧
      (∀ a n, e.call = .request a n → a = t.addr ∧ n = 9)

/-- The loop of `NOW 1` has no bound (R170 corner (a), R242): for every number of steps some environment, all of whose
calls return, keeps it looping that long. -/
def Obligations.NowMayLoopBeyondAnyBound : Prop :=
  ∀ n : Nat, ∃ s t : State, s.Ready ∧ s.host = [.command (encode (.now true))] ∧
    (∀ m ∈ s.moves, m.returns = true) ∧ Host.Core.run core (n + 1) s = .next t ∧
    t.hung = false ∧ t.Looping ∧ t.freeMoves = s.freeMoves

/-- The cached status bytes a command finds make no difference to its result, its transport calls or the chip (R243). -/
def Obligations.StaleCacheIsInvisible : Prop :=
  ∀ (i : Instr) (s t : State) (a b c : Byte), exec i s = .next t →
    ∃ t', exec i (s.withCache a b c) = .next t' ∧ t'.res = t.res ∧ t'.trace = t.trace ∧ t'.chip = t.chip ∧
      t'.seq = t.seq ∧ t'.hung = t.hung ∧ t'.moves = t.moves ∧ t'.freeMoves = t.freeMoves

/-- What `ADJUST` stores, `NOW 0` reads back (R139 (e), R172 corner (d)): on a chip that acknowledges and does not tick,
for a valid date-time of 2000 .. 2199 with its own century flag. It rests on a chip that stores every bit it is given:
log 9. -/
def Obligations.AdjustedTimeIsReadBack : Prop :=
  ∀ (s : State) (date : Date) (time : Time), s.Ready → s.chip.wf → s.Returns 25 → s.Quiet 25 →
    (s.moveAt 10).code = 0#8 → (s.moveAt 14).code = 0#8 → (s.moveAt 15).code = 9#8 →
    validDT date time = true → consistentFlag date = true →
    2000 ≤ bcd2bin16 (dateYear date) → bcd2bin16 (dateYear date) ≤ 2199 →
    ∃ t t', exec (.adjust date time) s = .next t ∧ exec (.now false) t = .next t' ∧
      t'.res = dateTimeResult date time
end

