-- ==== Sys2Proof/Laws/Codec.lean ====
section
/-! SUPPORT. What the codec's packed values hold, field by field, so that no proof takes a concatenation apart. -/

namespace Sys2Proof.Machine

/-- A concatenation as a number. -/
theorem toNat_concat {n m : Nat} (x : BitVec n) (y : BitVec m) : (x ++ y).toNat = x.toNat * 2 ^ m + y.toNat := by
  rw [BitVec.toNat_append, ← Nat.shiftLeft_add_eq_or_of_lt y.isLt, Nat.shiftLeft_eq]

/-- The value of a packed date and time pair, as a number (R98). -/
theorem dateTimeResult_toNat (date : Date) (time : Time) :
    (dateTimeResult date time).toNat = date.toNat * 0x100000000 + time.toNat := by
  have h : (0#8 ++ time : BitVec 32).toNat = _ := toNat_concat (m := 24) 0#8 time
  have g : (dateTimeResult date time).toNat = _ := toNat_concat (m := 32) date (0#8 ++ time : BitVec 32)
  rw [g, h]; simp

theorem bytesToTimer_toNat (b0 b1 : Byte) : (bytesToTimer b0 b1).toNat = b0.toNat * 0x100 + b1.toNat :=
  toNat_concat (m := 8) b0 b1

theorem bytesToAlarm_toNat (b0 b1 b2 b3 : Byte) :
    (bytesToAlarm b0 b1 b2 b3).toNat
      = b2.toNat * 0x1000000 + b1.toNat * 0x10000 + b0.toNat * 0x100 + b3.toNat := by
  have h : (b2 ++ b1 : BitVec 16).toNat = _ := toNat_concat (m := 8) b2 b1
  have g : (b0 ++ b3 : BitVec 16).toNat = _ := toNat_concat (m := 8) b0 b3
  have f : (bytesToAlarm b0 b1 b2 b3).toNat = _ :=
    toNat_concat (m := 16) (b2 ++ b1 : BitVec 16) (b0 ++ b3 : BitVec 16)
  rw [f, g, h]; omega

/-- A field of a packed value, as a number. -/
theorem extract_toNat {n : Nat} (v : BitVec n) (i w : Nat) : (v.extractLsb' i w).toNat = v.toNat / 2 ^ i % 2 ^ w := by
  rw [BitVec.extractLsb'_toNat, Nat.shiftRight_eq_div_pow]

/-- A three-field date as a number. -/
theorem packedDate_toNat (y : BitVec 16) (m d : Byte) :
    (y ++ (m ++ d : BitVec 16) : BitVec 32).toNat = y.toNat * 0x10000 + m.toNat * 0x100 + d.toNat := by
  have h : (m ++ d : BitVec 16).toNat = _ := toNat_concat (m := 8) m d
  have g : (y ++ (m ++ d : BitVec 16) : BitVec 32).toNat = _ := toNat_concat (m := 16) y (m ++ d : BitVec 16)
  rw [g, h]; omega

/-- A three-field time as a number. -/
theorem packedTime_toNat (h m s : Byte) :
    (h ++ (m ++ s : BitVec 16) : BitVec 24).toNat = h.toNat * 0x10000 + m.toNat * 0x100 + s.toNat := by
  have f : (m ++ s : BitVec 16).toNat = _ := toNat_concat (m := 8) m s
  have g : (h ++ (m ++ s : BitVec 16) : BitVec 24).toNat = _ := toNat_concat (m := 16) h (m ++ s : BitVec 16)
  rw [g, f]; omega

/-- A nibble as a number (R7). -/
theorem nibble_eq {n : Nat} (v : BitVec n) (i : Nat) : nibble v i = v.toNat / 2 ^ (4 * i) % 16 :=
  extract_toNat v (4 * i) 4

/-- The digits of a two-digit BCD byte (R121). -/
theorem bin2bcd8_digits (n : Nat) : nibble (bin2bcd8 n) 1 = n / 10 % 10 ∧ nibble (bin2bcd8 n) 0 = n % 10 := by
  simp only [nibble_eq, bin2bcd8, BitVec.toNat_ofNat, Nat.reduceMul, Nat.reducePow]
  omega

/-- The digits of a four-digit BCD word (R123). -/
theorem bin2bcd16_digits (n : Nat) :
    nibble (bin2bcd16 n) 3 = n / 1000 % 10 ∧ nibble (bin2bcd16 n) 2 = n / 100 % 10 ∧
      nibble (bin2bcd16 n) 1 = n / 10 % 10 ∧ nibble (bin2bcd16 n) 0 = n % 10 := by
  simp only [nibble_eq, bin2bcd16, BitVec.toNat_ofNat, Nat.reduceMul, Nat.reducePow]
  have h3 := Nat.mod_lt (n / 1000) (show 10 > 0 by decide)
  have h2 := Nat.mod_lt (n / 100) (show 10 > 0 by decide)
  have h1 := Nat.mod_lt (n / 10) (show 10 > 0 by decide)
  have h0 := Nat.mod_lt n (show 10 > 0 by decide)
  generalize n / 1000 % 10 = a at *
  generalize n / 100 % 10 = b at *
  generalize n / 10 % 10 = c at *
  generalize n % 10 = d at *
  omega

section packed
variable (y : BitVec 16) (m d : Byte)

@[simp] theorem dateYear_packed : dateYear (y ++ (m ++ d : BitVec 16) : BitVec 32) = y := by
  apply BitVec.eq_of_toNat_eq
  rw [dateYear, extract_toNat, packedDate_toNat]; have := y.isLt; have := m.isLt; have := d.isLt; omega

@[simp] theorem dateMonthByte_packed : dateMonthByte (y ++ (m ++ d : BitVec 16) : BitVec 32) = m := by
  apply BitVec.eq_of_toNat_eq
  rw [dateMonthByte, extract_toNat, packedDate_toNat]; have := y.isLt; have := m.isLt; have := d.isLt; omega

@[simp] theorem dateDay_packed : dateDay (y ++ (m ++ d : BitVec 16) : BitVec 32) = d := by
  apply BitVec.eq_of_toNat_eq
  rw [dateDay, extract_toNat, packedDate_toNat]; have := y.isLt; have := m.isLt; have := d.isLt; omega

@[simp] theorem dateYearByte_packed : dateYearByte (y ++ (m ++ d : BitVec 16) : BitVec 32) = y.extractLsb' 0 8 := by
  apply BitVec.eq_of_toNat_eq
  rw [dateYearByte, extract_toNat, extract_toNat, packedDate_toNat]
  have := y.isLt; have := m.isLt; have := d.isLt; omega

@[simp] theorem timeHour_packed (h m s : Byte) : timeHour (h ++ (m ++ s : BitVec 16) : BitVec 24) = h := by
  apply BitVec.eq_of_toNat_eq
  rw [timeHour, extract_toNat, packedTime_toNat]; have := h.isLt; have := m.isLt; have := s.isLt; omega

@[simp] theorem timeMinute_packed (h m s : Byte) : timeMinute (h ++ (m ++ s : BitVec 16) : BitVec 24) = m := by
  apply BitVec.eq_of_toNat_eq
  rw [timeMinute, extract_toNat, packedTime_toNat]; have := h.isLt; have := m.isLt; have := s.isLt; omega

@[simp] theorem timeSecond_packed (h m s : Byte) : timeSecond (h ++ (m ++ s : BitVec 16) : BitVec 24) = s := by
  apply BitVec.eq_of_toNat_eq
  rw [timeSecond, extract_toNat, packedTime_toNat]; have := h.isLt; have := m.isLt; have := s.isLt; omega

end packed

/-- A packed date is its three fields. -/
theorem date_ext {a b : Date} (hy : dateYear a = dateYear b) (hm : dateMonthByte a = dateMonthByte b)
    (hd : dateDay a = dateDay b) : a = b := by
  have h1 := congrArg BitVec.toNat hy; have h2 := congrArg BitVec.toNat hm; have h3 := congrArg BitVec.toNat hd
  simp only [dateYear, dateMonthByte, dateDay, extract_toNat] at h1 h2 h3
  apply BitVec.eq_of_toNat_eq
  have := a.isLt; have := b.isLt; omega

/-- A packed time is its three fields. -/
theorem time_ext {a b : Time} (hh : timeHour a = timeHour b) (hm : timeMinute a = timeMinute b)
    (hs : timeSecond a = timeSecond b) : a = b := by
  have h1 := congrArg BitVec.toNat hh; have h2 := congrArg BitVec.toNat hm; have h3 := congrArg BitVec.toNat hs
  simp only [timeHour, timeMinute, timeSecond, extract_toNat] at h1 h2 h3
  apply BitVec.eq_of_toNat_eq
  have := a.isLt; have := b.isLt; omega

/-- The fields of a decoded burst (R132). -/
@[simp] theorem dateYear_burst (rb : Vector Byte 9) :
    dateYear (burstDate rb) = bin2bcd16 (decodeYear rb[8] (rb[7].getLsbD 7)) := dateYear_packed ..
@[simp] theorem dateMonthByte_burst (rb : Vector Byte 9) : dateMonthByte (burstDate rb) = rb[7] :=
  dateMonthByte_packed ..
@[simp] theorem dateDay_burst (rb : Vector Byte 9) : dateDay (burstDate rb) = rb[5] := dateDay_packed ..
@[simp] theorem timeHour_burst (rb : Vector Byte 9) : timeHour (burstTime rb) = rb[4] := timeHour_packed ..
@[simp] theorem timeMinute_burst (rb : Vector Byte 9) : timeMinute (burstTime rb) = rb[3] := timeMinute_packed ..
@[simp] theorem timeSecond_burst (rb : Vector Byte 9) :
    timeSecond (burstTime rb) = rb[2] &&& ~~~ Config.vlMask := timeSecond_packed ..

end Sys2Proof.Machine
end

