-- ==== Sys2Proof/Laws/State.lean ====
section
/-! SUPPORT. One lemma per field of the state for each named update, so that no later proof unfolds an update. -/

namespace Sys2Proof.Machine

/-! ### `accept` -/

@[simp] theorem State.accept_addr (i : Instr) (s : State) : (s.accept i).addr = s.addr := rfl
@[simp] theorem State.accept_speed (i : Instr) (s : State) : (s.accept i).speed = s.speed := rfl
@[simp] theorem State.accept_cs1c (i : Instr) (s : State) : (s.accept i).cs1c = s.cs1c := rfl
@[simp] theorem State.accept_cs2c (i : Instr) (s : State) : (s.accept i).cs2c = s.cs2c := rfl
@[simp] theorem State.accept_cs3c (i : Instr) (s : State) : (s.accept i).cs3c = s.cs3c := rfl
@[simp] theorem State.accept_res (i : Instr) (s : State) : (s.accept i).res = s.res := rfl
@[simp] theorem State.accept_op (i : Instr) (s : State) : (s.accept i).op = i.opcode := rfl
@[simp] theorem State.accept_arg (i : Instr) (s : State) : (s.accept i).arg = i.operand := rfl
@[simp] theorem State.accept_rb (i : Instr) (s : State) : (s.accept i).rb = s.rb := rfl
@[simp] theorem State.accept_wb (i : Instr) (s : State) : (s.accept i).wb = s.wb := rfl
@[simp] theorem State.accept_err (i : Instr) (s : State) : (s.accept i).err = s.err := rfl
@[simp] theorem State.accept_avail (i : Instr) (s : State) : (s.accept i).avail = s.avail := rfl
@[simp] theorem State.accept_curDate (i : Instr) (s : State) : (s.accept i).curDate = s.curDate := rfl
@[simp] theorem State.accept_curTime (i : Instr) (s : State) : (s.accept i).curTime = s.curTime := rfl
@[simp] theorem State.accept_prevDate (i : Instr) (s : State) : (s.accept i).prevDate = s.prevDate := rfl
@[simp] theorem State.accept_prevValid (i : Instr) (s : State) : (s.accept i).prevValid = s.prevValid := rfl
@[simp] theorem State.accept_seq (i : Instr) (s : State) : (s.accept i).seq = .run 0 := rfl
@[simp] theorem State.accept_chip (i : Instr) (s : State) : (s.accept i).chip = s.chip := rfl
@[simp] theorem State.accept_busInit (i : Instr) (s : State) : (s.accept i).busInit = s.busInit := rfl
@[simp] theorem State.accept_sent (i : Instr) (s : State) : (s.accept i).sent = s.sent := rfl
@[simp] theorem State.accept_ptr (i : Instr) (s : State) : (s.accept i).ptr = s.ptr := rfl
@[simp] theorem State.accept_readGood (i : Instr) (s : State) : (s.accept i).readGood = s.readGood := rfl
@[simp] theorem State.accept_hung (i : Instr) (s : State) : (s.accept i).hung = s.hung := rfl
@[simp] theorem State.accept_moves (i : Instr) (s : State) : (s.accept i).moves = s.moves := rfl
@[simp] theorem State.accept_freeMoves (i : Instr) (s : State) : (s.accept i).freeMoves = s.freeMoves := rfl
@[simp] theorem State.accept_trace (i : Instr) (s : State) : (s.accept i).trace = s.trace := rfl
@[simp] theorem State.accept_host (i : Instr) (s : State) : (s.accept i).host = s.host := rfl
@[simp] theorem State.accept_begun (i : Instr) (s : State) : (s.accept i).begun = s.begun := rfl

/-! ### `takeBurst` -/

@[simp] theorem State.takeBurst_addr  (s : State) : (s.takeBurst).addr = s.addr := rfl
@[simp] theorem State.takeBurst_speed  (s : State) : (s.takeBurst).speed = s.speed := rfl
@[simp] theorem State.takeBurst_cs1c  (s : State) : (s.takeBurst).cs1c = s.rb[0] := rfl
@[simp] theorem State.takeBurst_cs2c  (s : State) : (s.takeBurst).cs2c = s.rb[1] := rfl
@[simp] theorem State.takeBurst_cs3c  (s : State) : (s.takeBurst).cs3c = s.rb[2] := rfl
@[simp] theorem State.takeBurst_res  (s : State) : (s.takeBurst).res = s.res := rfl
@[simp] theorem State.takeBurst_op  (s : State) : (s.takeBurst).op = s.op := rfl
@[simp] theorem State.takeBurst_arg  (s : State) : (s.takeBurst).arg = s.arg := rfl
@[simp] theorem State.takeBurst_rb  (s : State) : (s.takeBurst).rb = s.rb := rfl
@[simp] theorem State.takeBurst_wb  (s : State) : (s.takeBurst).wb = s.wb := rfl
@[simp] theorem State.takeBurst_err  (s : State) : (s.takeBurst).err = s.err := rfl
@[simp] theorem State.takeBurst_avail  (s : State) : (s.takeBurst).avail = s.avail := rfl
@[simp] theorem State.takeBurst_curDate  (s : State) : (s.takeBurst).curDate = burstDate s.rb := rfl
@[simp] theorem State.takeBurst_curTime  (s : State) : (s.takeBurst).curTime = burstTime s.rb := rfl
@[simp] theorem State.takeBurst_prevDate  (s : State) : (s.takeBurst).prevDate = s.prevDate := rfl
@[simp] theorem State.takeBurst_prevValid  (s : State) : (s.takeBurst).prevValid = s.prevValid := rfl
@[simp] theorem State.takeBurst_seq  (s : State) : (s.takeBurst).seq = s.seq := rfl
@[simp] theorem State.takeBurst_chip  (s : State) : (s.takeBurst).chip = s.chip := rfl
@[simp] theorem State.takeBurst_busInit  (s : State) : (s.takeBurst).busInit = s.busInit := rfl
@[simp] theorem State.takeBurst_sent  (s : State) : (s.takeBurst).sent = s.sent := rfl
@[simp] theorem State.takeBurst_ptr  (s : State) : (s.takeBurst).ptr = s.ptr := rfl
@[simp] theorem State.takeBurst_readGood  (s : State) : (s.takeBurst).readGood = s.readGood := rfl
@[simp] theorem State.takeBurst_hung  (s : State) : (s.takeBurst).hung = s.hung := rfl
@[simp] theorem State.takeBurst_moves  (s : State) : (s.takeBurst).moves = s.moves := rfl
@[simp] theorem State.takeBurst_freeMoves  (s : State) : (s.takeBurst).freeMoves = s.freeMoves := rfl
@[simp] theorem State.takeBurst_trace  (s : State) : (s.takeBurst).trace = s.trace := rfl
@[simp] theorem State.takeBurst_host  (s : State) : (s.takeBurst).host = s.host := rfl
@[simp] theorem State.takeBurst_begun  (s : State) : (s.takeBurst).begun = s.begun := rfl

/-! ### `afterRead` -/

@[simp] theorem State.afterRead_addr (reg : Byte) (n : Nat) (s : State) : (s.afterRead reg n).addr = s.addr := rfl
@[simp] theorem State.afterRead_speed (reg : Byte) (n : Nat) (s : State) : (s.afterRead reg n).speed = s.speed := rfl
@[simp] theorem State.afterRead_cs1c (reg : Byte) (n : Nat) (s : State) : (s.afterRead reg n).cs1c = s.cs1c := rfl
@[simp] theorem State.afterRead_cs2c (reg : Byte) (n : Nat) (s : State) : (s.afterRead reg n).cs2c = s.cs2c := rfl
@[simp] theorem State.afterRead_cs3c (reg : Byte) (n : Nat) (s : State) : (s.afterRead reg n).cs3c = s.cs3c := rfl
@[simp] theorem State.afterRead_res (reg : Byte) (n : Nat) (s : State) : (s.afterRead reg n).res = s.res := rfl
@[simp] theorem State.afterRead_op (reg : Byte) (n : Nat) (s : State) : (s.afterRead reg n).op = s.op := rfl
@[simp] theorem State.afterRead_arg (reg : Byte) (n : Nat) (s : State) : (s.afterRead reg n).arg = s.arg := rfl
@[simp] theorem State.afterRead_rb (reg : Byte) (n : Nat) (s : State) : (s.afterRead reg n).rb = Vector.ofFn fun i : Fin 9 => if i.val < n then s.sample reg n i.val else s.rb.get i := rfl
@[simp] theorem State.afterRead_wb (reg : Byte) (n : Nat) (s : State) : (s.afterRead reg n).wb = s.wb := rfl
@[simp] theorem State.afterRead_err (reg : Byte) (n : Nat) (s : State) : (s.afterRead reg n).err = (s.moveAt 3).code := rfl
@[simp] theorem State.afterRead_avail (reg : Byte) (n : Nat) (s : State) : (s.afterRead reg n).avail = (s.moveAt 4).code := rfl
@[simp] theorem State.afterRead_curDate (reg : Byte) (n : Nat) (s : State) : (s.afterRead reg n).curDate = s.curDate := rfl
@[simp] theorem State.afterRead_curTime (reg : Byte) (n : Nat) (s : State) : (s.afterRead reg n).curTime = s.curTime := rfl
@[simp] theorem State.afterRead_prevDate (reg : Byte) (n : Nat) (s : State) : (s.afterRead reg n).prevDate = s.prevDate := rfl
@[simp] theorem State.afterRead_prevValid (reg : Byte) (n : Nat) (s : State) : (s.afterRead reg n).prevValid = s.prevValid := rfl
@[simp] theorem State.afterRead_seq (reg : Byte) (n : Nat) (s : State) : (s.afterRead reg n).seq = s.seq.advanceBy (5 + n) := rfl
@[simp] theorem State.afterRead_chip (reg : Byte) (n : Nat) (s : State) : (s.afterRead reg n).chip = s.tickedChip (5 + n) := rfl
@[simp] theorem State.afterRead_busInit (reg : Byte) (n : Nat) (s : State) : (s.afterRead reg n).busInit = s.busInit := rfl
@[simp] theorem State.afterRead_sent (reg : Byte) (n : Nat) (s : State) : (s.afterRead reg n).sent = [] := rfl
@[simp] theorem State.afterRead_ptr (reg : Byte) (n : Nat) (s : State) : (s.afterRead reg n).ptr = reg + BitVec.ofNat 8 n := rfl
@[simp] theorem State.afterRead_readGood (reg : Byte) (n : Nat) (s : State) : (s.afterRead reg n).readGood = decide ((s.moveAt 3).code = 0#8 ∧ (s.moveAt 4).code.toNat = n) := rfl
@[simp] theorem State.afterRead_hung (reg : Byte) (n : Nat) (s : State) : (s.afterRead reg n).hung = s.hung := rfl
@[simp] theorem State.afterRead_moves (reg : Byte) (n : Nat) (s : State) : (s.afterRead reg n).moves = s.moves.drop (5 + n) := rfl
@[simp] theorem State.afterRead_freeMoves (reg : Byte) (n : Nat) (s : State) : (s.afterRead reg n).freeMoves = s.freeMoves + (5 + n - s.moves.length) := rfl
@[simp] theorem State.afterRead_trace (reg : Byte) (n : Nat) (s : State) : (s.afterRead reg n).trace = s.trace ++ s.readTrace reg n := rfl
@[simp] theorem State.afterRead_host (reg : Byte) (n : Nat) (s : State) : (s.afterRead reg n).host = s.host := rfl
@[simp] theorem State.afterRead_begun (reg : Byte) (n : Nat) (s : State) : (s.afterRead reg n).begun = s.begun := rfl

/-! ### `afterWrite` -/

@[simp] theorem State.afterWrite_addr (reg : Byte) (bytes : List Byte) (s : State) : (s.afterWrite reg bytes).addr = s.addr := rfl
@[simp] theorem State.afterWrite_speed (reg : Byte) (bytes : List Byte) (s : State) : (s.afterWrite reg bytes).speed = s.speed := rfl
@[simp] theorem State.afterWrite_cs1c (reg : Byte) (bytes : List Byte) (s : State) : (s.afterWrite reg bytes).cs1c = s.cs1c := rfl
@[simp] theorem State.afterWrite_cs2c (reg : Byte) (bytes : List Byte) (s : State) : (s.afterWrite reg bytes).cs2c = s.cs2c := rfl
@[simp] theorem State.afterWrite_cs3c (reg : Byte) (bytes : List Byte) (s : State) : (s.afterWrite reg bytes).cs3c = s.cs3c := rfl
@[simp] theorem State.afterWrite_res (reg : Byte) (bytes : List Byte) (s : State) : (s.afterWrite reg bytes).res = s.res := rfl
@[simp] theorem State.afterWrite_op (reg : Byte) (bytes : List Byte) (s : State) : (s.afterWrite reg bytes).op = s.op := rfl
@[simp] theorem State.afterWrite_arg (reg : Byte) (bytes : List Byte) (s : State) : (s.afterWrite reg bytes).arg = s.arg := rfl
@[simp] theorem State.afterWrite_rb (reg : Byte) (bytes : List Byte) (s : State) : (s.afterWrite reg bytes).rb = s.rb := rfl
@[simp] theorem State.afterWrite_wb (reg : Byte) (bytes : List Byte) (s : State) : (s.afterWrite reg bytes).wb = Vector.ofFn fun i : Fin 7 => bytes.getD i.val (s.wb.get i) := rfl
@[simp] theorem State.afterWrite_err (reg : Byte) (bytes : List Byte) (s : State) : (s.afterWrite reg bytes).err = (s.moveAt (bytes.length + 3)).code := rfl
@[simp] theorem State.afterWrite_avail (reg : Byte) (bytes : List Byte) (s : State) : (s.afterWrite reg bytes).avail = s.avail := rfl
@[simp] theorem State.afterWrite_curDate (reg : Byte) (bytes : List Byte) (s : State) : (s.afterWrite reg bytes).curDate = s.curDate := rfl
@[simp] theorem State.afterWrite_curTime (reg : Byte) (bytes : List Byte) (s : State) : (s.afterWrite reg bytes).curTime = s.curTime := rfl
@[simp] theorem State.afterWrite_prevDate (reg : Byte) (bytes : List Byte) (s : State) : (s.afterWrite reg bytes).prevDate = s.prevDate := rfl
@[simp] theorem State.afterWrite_prevValid (reg : Byte) (bytes : List Byte) (s : State) : (s.afterWrite reg bytes).prevValid = s.prevValid := rfl
@[simp] theorem State.afterWrite_seq (reg : Byte) (bytes : List Byte) (s : State) : (s.afterWrite reg bytes).seq = s.seq.advanceBy (bytes.length + 4) := rfl
@[simp] theorem State.afterWrite_chip (reg : Byte) (bytes : List Byte) (s : State) : (s.afterWrite reg bytes).chip = s.writtenChip reg bytes := rfl
@[simp] theorem State.afterWrite_busInit (reg : Byte) (bytes : List Byte) (s : State) : (s.afterWrite reg bytes).busInit = s.busInit := rfl
@[simp] theorem State.afterWrite_sent (reg : Byte) (bytes : List Byte) (s : State) : (s.afterWrite reg bytes).sent = [] := rfl
@[simp] theorem State.afterWrite_ptr (reg : Byte) (bytes : List Byte) (s : State) : (s.afterWrite reg bytes).ptr = reg + BitVec.ofNat 8 (landed (s.moveAt (bytes.length + 3)) bytes).length := rfl
@[simp] theorem State.afterWrite_readGood (reg : Byte) (bytes : List Byte) (s : State) : (s.afterWrite reg bytes).readGood = s.readGood := rfl
@[simp] theorem State.afterWrite_hung (reg : Byte) (bytes : List Byte) (s : State) : (s.afterWrite reg bytes).hung = s.hung := rfl
@[simp] theorem State.afterWrite_moves (reg : Byte) (bytes : List Byte) (s : State) : (s.afterWrite reg bytes).moves = s.moves.drop (bytes.length + 4) := rfl
@[simp] theorem State.afterWrite_freeMoves (reg : Byte) (bytes : List Byte) (s : State) : (s.afterWrite reg bytes).freeMoves = s.freeMoves + (bytes.length + 4 - s.moves.length) := rfl
@[simp] theorem State.afterWrite_trace (reg : Byte) (bytes : List Byte) (s : State) : (s.afterWrite reg bytes).trace = s.trace ++ s.writeTrace reg bytes := rfl
@[simp] theorem State.afterWrite_host (reg : Byte) (bytes : List Byte) (s : State) : (s.afterWrite reg bytes).host = s.host := rfl
@[simp] theorem State.afterWrite_begun (reg : Byte) (bytes : List Byte) (s : State) : (s.afterWrite reg bytes).begun = s.begun := rfl

/-! ### `blockReset` -/

@[simp] theorem State.blockReset_addr  (s : State) : (s.blockReset).addr = State.reset.addr := rfl
@[simp] theorem State.blockReset_speed  (s : State) : (s.blockReset).speed = State.reset.speed := rfl
@[simp] theorem State.blockReset_cs1c  (s : State) : (s.blockReset).cs1c = State.reset.cs1c := rfl
@[simp] theorem State.blockReset_cs2c  (s : State) : (s.blockReset).cs2c = State.reset.cs2c := rfl
@[simp] theorem State.blockReset_cs3c  (s : State) : (s.blockReset).cs3c = State.reset.cs3c := rfl
@[simp] theorem State.blockReset_res  (s : State) : (s.blockReset).res = State.reset.res := rfl
@[simp] theorem State.blockReset_op  (s : State) : (s.blockReset).op = State.reset.op := rfl
@[simp] theorem State.blockReset_arg  (s : State) : (s.blockReset).arg = State.reset.arg := rfl
@[simp] theorem State.blockReset_rb  (s : State) : (s.blockReset).rb = State.reset.rb := rfl
@[simp] theorem State.blockReset_wb  (s : State) : (s.blockReset).wb = State.reset.wb := rfl
@[simp] theorem State.blockReset_err  (s : State) : (s.blockReset).err = State.reset.err := rfl
@[simp] theorem State.blockReset_avail  (s : State) : (s.blockReset).avail = State.reset.avail := rfl
@[simp] theorem State.blockReset_curDate  (s : State) : (s.blockReset).curDate = State.reset.curDate := rfl
@[simp] theorem State.blockReset_curTime  (s : State) : (s.blockReset).curTime = State.reset.curTime := rfl
@[simp] theorem State.blockReset_prevDate  (s : State) : (s.blockReset).prevDate = State.reset.prevDate := rfl
@[simp] theorem State.blockReset_prevValid  (s : State) : (s.blockReset).prevValid = State.reset.prevValid := rfl
@[simp] theorem State.blockReset_seq  (s : State) : (s.blockReset).seq = State.reset.seq := rfl
@[simp] theorem State.blockReset_chip  (s : State) : (s.blockReset).chip = s.chip := rfl
@[simp] theorem State.blockReset_busInit  (s : State) : (s.blockReset).busInit = State.reset.busInit := rfl
@[simp] theorem State.blockReset_sent  (s : State) : (s.blockReset).sent = State.reset.sent := rfl
@[simp] theorem State.blockReset_ptr  (s : State) : (s.blockReset).ptr = s.ptr := rfl
@[simp] theorem State.blockReset_readGood  (s : State) : (s.blockReset).readGood = State.reset.readGood := rfl
@[simp] theorem State.blockReset_hung  (s : State) : (s.blockReset).hung = State.reset.hung := rfl
@[simp] theorem State.blockReset_moves  (s : State) : (s.blockReset).moves = s.moves := rfl
@[simp] theorem State.blockReset_freeMoves  (s : State) : (s.blockReset).freeMoves = s.freeMoves := rfl
@[simp] theorem State.blockReset_trace  (s : State) : (s.blockReset).trace = State.reset.trace := rfl
@[simp] theorem State.blockReset_host  (s : State) : (s.blockReset).host = s.host := rfl
@[simp] theorem State.blockReset_begun  (s : State) : (s.blockReset).begun = State.reset.begun := rfl

/-! ### `envStep` -/

@[simp] theorem State.envStep_addr  (s : State) : (s.envStep).addr = s.addr := by
  unfold State.envStep State.takeMove; split <;> rfl
@[simp] theorem State.envStep_speed  (s : State) : (s.envStep).speed = s.speed := by
  unfold State.envStep State.takeMove; split <;> rfl
@[simp] theorem State.envStep_cs1c  (s : State) : (s.envStep).cs1c = s.cs1c := by
  unfold State.envStep State.takeMove; split <;> rfl
@[simp] theorem State.envStep_cs2c  (s : State) : (s.envStep).cs2c = s.cs2c := by
  unfold State.envStep State.takeMove; split <;> rfl
@[simp] theorem State.envStep_cs3c  (s : State) : (s.envStep).cs3c = s.cs3c := by
  unfold State.envStep State.takeMove; split <;> rfl
@[simp] theorem State.envStep_res  (s : State) : (s.envStep).res = s.res := by
  unfold State.envStep State.takeMove; split <;> rfl
@[simp] theorem State.envStep_op  (s : State) : (s.envStep).op = s.op := by
  unfold State.envStep State.takeMove; split <;> rfl
@[simp] theorem State.envStep_arg  (s : State) : (s.envStep).arg = s.arg := by
  unfold State.envStep State.takeMove; split <;> rfl
@[simp] theorem State.envStep_rb  (s : State) : (s.envStep).rb = s.rb := by
  unfold State.envStep State.takeMove; split <;> rfl
@[simp] theorem State.envStep_wb  (s : State) : (s.envStep).wb = s.wb := by
  unfold State.envStep State.takeMove; split <;> rfl
@[simp] theorem State.envStep_err  (s : State) : (s.envStep).err = s.err := by
  unfold State.envStep State.takeMove; split <;> rfl
@[simp] theorem State.envStep_avail  (s : State) : (s.envStep).avail = s.avail := by
  unfold State.envStep State.takeMove; split <;> rfl
@[simp] theorem State.envStep_curDate  (s : State) : (s.envStep).curDate = s.curDate := by
  unfold State.envStep State.takeMove; split <;> rfl
@[simp] theorem State.envStep_curTime  (s : State) : (s.envStep).curTime = s.curTime := by
  unfold State.envStep State.takeMove; split <;> rfl
@[simp] theorem State.envStep_prevDate  (s : State) : (s.envStep).prevDate = s.prevDate := by
  unfold State.envStep State.takeMove; split <;> rfl
@[simp] theorem State.envStep_prevValid  (s : State) : (s.envStep).prevValid = s.prevValid := by
  unfold State.envStep State.takeMove; split <;> rfl
@[simp] theorem State.envStep_seq  (s : State) : (s.envStep).seq = s.seq := by
  unfold State.envStep State.takeMove; split <;> rfl
@[simp] theorem State.envStep_chip  (s : State) : (s.envStep).chip = s.chip.tick (s.moveAt 0).ticks := rfl
@[simp] theorem State.envStep_busInit  (s : State) : (s.envStep).busInit = s.busInit := by
  unfold State.envStep State.takeMove; split <;> rfl
@[simp] theorem State.envStep_sent  (s : State) : (s.envStep).sent = s.sent := by
  unfold State.envStep State.takeMove; split <;> rfl
@[simp] theorem State.envStep_ptr  (s : State) : (s.envStep).ptr = s.ptr := by
  unfold State.envStep State.takeMove; split <;> rfl
@[simp] theorem State.envStep_readGood  (s : State) : (s.envStep).readGood = s.readGood := by
  unfold State.envStep State.takeMove; split <;> rfl
@[simp] theorem State.envStep_hung  (s : State) : (s.envStep).hung = s.hung := by
  unfold State.envStep State.takeMove; split <;> rfl
@[simp] theorem State.envStep_trace  (s : State) : (s.envStep).trace = s.trace := by
  unfold State.envStep State.takeMove; split <;> rfl
@[simp] theorem State.envStep_host  (s : State) : (s.envStep).host = s.host := by
  unfold State.envStep State.takeMove; split <;> rfl
@[simp] theorem State.envStep_begun  (s : State) : (s.envStep).begun = s.begun := by
  unfold State.envStep State.takeMove; split <;> rfl

/-! ### `takeMove` -/

@[simp] theorem State.takeMove_addr (s : State) : s.takeMove.addr = s.addr := by
  unfold State.takeMove; split <;> rfl
@[simp] theorem State.takeMove_speed (s : State) : s.takeMove.speed = s.speed := by
  unfold State.takeMove; split <;> rfl
@[simp] theorem State.takeMove_cs1c (s : State) : s.takeMove.cs1c = s.cs1c := by
  unfold State.takeMove; split <;> rfl
@[simp] theorem State.takeMove_cs2c (s : State) : s.takeMove.cs2c = s.cs2c := by
  unfold State.takeMove; split <;> rfl
@[simp] theorem State.takeMove_cs3c (s : State) : s.takeMove.cs3c = s.cs3c := by
  unfold State.takeMove; split <;> rfl
@[simp] theorem State.takeMove_res (s : State) : s.takeMove.res = s.res := by
  unfold State.takeMove; split <;> rfl
@[simp] theorem State.takeMove_op (s : State) : s.takeMove.op = s.op := by
  unfold State.takeMove; split <;> rfl
@[simp] theorem State.takeMove_arg (s : State) : s.takeMove.arg = s.arg := by
  unfold State.takeMove; split <;> rfl
@[simp] theorem State.takeMove_rb (s : State) : s.takeMove.rb = s.rb := by
  unfold State.takeMove; split <;> rfl
@[simp] theorem State.takeMove_wb (s : State) : s.takeMove.wb = s.wb := by
  unfold State.takeMove; split <;> rfl
@[simp] theorem State.takeMove_err (s : State) : s.takeMove.err = s.err := by
  unfold State.takeMove; split <;> rfl
@[simp] theorem State.takeMove_avail (s : State) : s.takeMove.avail = s.avail := by
  unfold State.takeMove; split <;> rfl
@[simp] theorem State.takeMove_curDate (s : State) : s.takeMove.curDate = s.curDate := by
  unfold State.takeMove; split <;> rfl
@[simp] theorem State.takeMove_curTime (s : State) : s.takeMove.curTime = s.curTime := by
  unfold State.takeMove; split <;> rfl
@[simp] theorem State.takeMove_prevDate (s : State) : s.takeMove.prevDate = s.prevDate := by
  unfold State.takeMove; split <;> rfl
@[simp] theorem State.takeMove_prevValid (s : State) : s.takeMove.prevValid = s.prevValid := by
  unfold State.takeMove; split <;> rfl
@[simp] theorem State.takeMove_seq (s : State) : s.takeMove.seq = s.seq := by
  unfold State.takeMove; split <;> rfl
@[simp] theorem State.takeMove_chip (s : State) : s.takeMove.chip = s.chip := by
  unfold State.takeMove; split <;> rfl
@[simp] theorem State.takeMove_busInit (s : State) : s.takeMove.busInit = s.busInit := by
  unfold State.takeMove; split <;> rfl
@[simp] theorem State.takeMove_sent (s : State) : s.takeMove.sent = s.sent := by
  unfold State.takeMove; split <;> rfl
@[simp] theorem State.takeMove_ptr (s : State) : s.takeMove.ptr = s.ptr := by
  unfold State.takeMove; split <;> rfl
@[simp] theorem State.takeMove_readGood (s : State) : s.takeMove.readGood = s.readGood := by
  unfold State.takeMove; split <;> rfl
@[simp] theorem State.takeMove_hung (s : State) : s.takeMove.hung = s.hung := by
  unfold State.takeMove; split <;> rfl
@[simp] theorem State.takeMove_trace (s : State) : s.takeMove.trace = s.trace := by
  unfold State.takeMove; split <;> rfl
@[simp] theorem State.takeMove_host (s : State) : s.takeMove.host = s.host := by
  unfold State.takeMove; split <;> rfl
@[simp] theorem State.takeMove_begun (s : State) : s.takeMove.begun = s.begun := by
  unfold State.takeMove; split <;> rfl

end Sys2Proof.Machine
end

