-- ==== Sys2Proof/Laws/Memory.lean ====
section
/-! SUPPORT. The chip's registers: what a read gives after a write, and that every operation keeps the canonical
form. -/

namespace Sys2Proof.Machine

@[simp] theorem Memory.read_nil (x : Nat) : Memory.read [] x = none := rfl

theorem Memory.read_insert (m : Memory) (a x : Nat) (b : Byte) (h : m.wf) :
    (m.insert a b).read x = if a = x then some b else m.read x := by
  induction m with
  | nil => simp [Memory.insert, Memory.read, Memory.unlisted]
  | cons c rest ih =>
    obtain ⟨c, d⟩ := c
    have hrest : Memory.wf rest :=
      ⟨(List.pairwise_cons.1 h.1).2, fun e he => h.2 e (List.mem_cons_of_mem _ he)⟩
    simp only [Memory.insert]
    split
    · simp [Memory.read]
    · split
      · subst_vars; simp only [Memory.read]; split <;> rfl
      · simp only [Memory.read, ih hrest]
        split <;> split <;> simp_all

theorem Memory.mem_insert (m : Memory) (a : Nat) (b : Byte) (e : Host.Cell) (h : e ∈ m.insert a b) :
    e = (a, b) ∨ e ∈ m := by
  induction m with
  | nil => simpa [Memory.insert] using h
  | cons c rest ih =>
    obtain ⟨c, d⟩ := c
    simp only [Memory.insert] at h
    split at h
    · simpa using h
    · split at h
      · rcases List.mem_cons.1 h with h | h
        · exact .inl h
        · exact .inr (List.mem_cons_of_mem _ h)
      · rcases List.mem_cons.1 h with h | h
        · exact .inr (by simp [h])
        · exact (ih h).imp id (List.mem_cons_of_mem _)

theorem Memory.insert_wf (m : Memory) (a : Nat) (b : Byte) (ha : a < Memory.size) (h : m.wf) :
    (m.insert a b).wf := by
  refine ⟨?_, fun e he => ?_⟩
  · induction m with
    | nil => simp [Memory.insert]
    | cons c rest ih =>
      obtain ⟨c, d⟩ := c
      obtain ⟨h1, h2⟩ := List.pairwise_cons.1 h.1
      have hrest : Memory.wf rest := ⟨h2, fun e he => h.2 e (List.mem_cons_of_mem _ he)⟩
      simp only [Memory.insert]
      split
      · rename_i hlt
        refine List.pairwise_cons.2 ⟨fun e he => ?_, h.1⟩
        rcases List.mem_cons.1 he with rfl | he
        · exact hlt
        · exact Nat.lt_trans hlt (h1 e he)
      · split
        · subst_vars; exact List.pairwise_cons.2 ⟨h1, h2⟩
        · rename_i hle hne
          refine List.pairwise_cons.2 ⟨fun e he => ?_, ih hrest⟩
          rcases Memory.mem_insert rest a b e he with rfl | he
          · exact Nat.lt_of_le_of_ne (Nat.not_lt.1 hle) (Ne.symm hne)
          · exact h1 e he
  · rcases Memory.mem_insert m a b e he with rfl | he
    · exact ha
    · exact h.2 e he

/-- Read after write, inside the map. -/
theorem Memory.read_write (m : Memory) (a x : Nat) (b : Byte) (ha : a < Memory.size) (h : m.wf) :
    (m.write a b).read x = if a = x then some b else m.read x := by
  simp [Memory.write, ha, Memory.read_insert m a x b h]

theorem Memory.write_wf (m : Memory) (a : Nat) (b : Byte) (h : m.wf) : (m.write a b).wf := by
  unfold Memory.write
  split
  · exact Memory.insert_wf m a b ‹_› h
  · exact h

theorem Memory.store_wf (bs : List Byte) (m : Memory) (a : Nat) (h : m.wf) : (m.store a bs).wf := by
  induction bs generalizing m a with
  | nil => exact h
  | cons b bs ih => exact ih _ _ (Memory.write_wf m a b h)

theorem Memory.tick_wf (ts : List (BitVec 4 × Byte)) (m : Memory) (h : m.wf) : (m.tick ts).wf := by
  induction ts generalizing m with
  | nil => exact h
  | cons t ts ih => exact ih _ (Memory.write_wf m _ _ h)

theorem Memory.nil_wf : Memory.wf [] := ⟨List.Pairwise.nil, fun _ h => absurd h (List.not_mem_nil)⟩

@[simp] theorem Memory.tick_nil (m : Memory) : m.tick [] = m := rfl

/-- Read after a store of consecutive bytes inside the map: the stored byte, or what was there. -/
theorem Memory.read_store (bs : List Byte) (m : Memory) (a x : Nat) (h : m.wf)
    (ha : a + bs.length ≤ Memory.size) :
    (m.store a bs).read x = if a ≤ x ∧ x < a + bs.length then bs[x - a]? else m.read x := by
  induction bs generalizing m a with
  | nil => simp [Memory.store]; try omega
  | cons b bs ih =>
    simp only [List.length_cons] at ha
    have hw := Memory.read_write m a x b (by omega) h
    have hi := ih (m.write a b) (a + 1) (Memory.write_wf m a b h) (by omega)
    simp only [Memory.store, List.length_cons]
    rw [hi, hw]
    by_cases hax : a = x
    · subst hax
      rw [if_neg (by omega), if_pos rfl, if_pos (by omega)]
      simp
    · by_cases hin : a + 1 ≤ x ∧ x < a + 1 + bs.length
      · rw [if_pos hin, if_pos (by omega)]
        have e : x - a = (x - (a + 1)) + 1 := by omega
        simp [e]
      · rw [if_neg hin, if_neg hax, if_neg (by omega)]

theorem State.tickedChip_wf (s : State) (h : s.chip.wf) (k : Nat) : (s.tickedChip k).wf := by
  induction k with
  | zero => exact h
  | succ k ih => exact Memory.tick_wf _ _ ih

/-- Without ticks the chip's registers stay. -/
theorem State.tickedChip_quiet (s : State) (n : Nat) (h : s.Quiet n) (k : Nat) (hk : k ≤ n) :
    s.tickedChip k = s.chip := by
  induction k with
  | zero => rfl
  | succ k ih => rw [State.tickedChip, ih (by omega), h k (by omega)]; rfl

end Sys2Proof.Machine
end

