-- ==== Sys2Proof/Laws/Transport.lean ====
section
/-! SUPPORT. What the transport calls and the two transactions do, said once: every later proof cites these instead of
unfolding the operations. -/

namespace Sys2Proof.Machine

/-! ### Moves -/

theorem State.moveAt_congr {s t : State} (h1 : t.moves = s.moves) (h2 : t.freeMoves = s.freeMoves) (k : Nat) :
    t.moveAt k = s.moveAt k := by
  unfold State.moveAt; simp [h1, h2]

theorem State.tickedChip_congr {s t : State} (h1 : t.moves = s.moves) (h2 : t.freeMoves = s.freeMoves)
    (h3 : t.chip = s.chip) (k : Nat) : t.tickedChip k = s.tickedChip k := by
  induction k with
  | zero => exact h3
  | succ k ih => rw [State.tickedChip, State.tickedChip, ih, State.moveAt_congr h1 h2]

theorem State.takeMove_moves (s : State) : s.takeMove.moves = s.moves.drop 1 := by
  unfold State.takeMove; split <;> simp_all

theorem State.takeMove_freeMoves (s : State) : s.takeMove.freeMoves = s.freeMoves + (1 - s.moves.length) := by
  unfold State.takeMove; split <;> simp_all

/-- The moves after `n` of them are used up. -/
theorem State.moveAt_drop {s t : State} (n : Nat) (h1 : t.moves = s.moves.drop n)
    (h2 : t.freeMoves = s.freeMoves + (n - s.moves.length)) (k : Nat) : t.moveAt k = s.moveAt (n + k) := by
  unfold State.moveAt
  simp only [h1, h2, List.length_drop, List.getElem_drop]
  by_cases h : k < s.moves.length - n
  · rw [dif_pos h, dif_pos (by omega)]
  · rw [dif_neg h, dif_neg (by omega)]
    congr 1; omega

theorem State.moveAt_takeMove (s : State) (k : Nat) : s.takeMove.moveAt k = s.moveAt (k + 1) := by
  rw [State.moveAt_drop 1 s.takeMove_moves s.takeMove_freeMoves, Nat.add_comm]

/-- The chip's own changes after `n` moves are used up. -/
theorem State.tickedChip_drop {s t : State} (n : Nat) (h1 : t.moves = s.moves.drop n)
    (h2 : t.freeMoves = s.freeMoves + (n - s.moves.length)) (h3 : t.chip = s.tickedChip n) (k : Nat) :
    t.tickedChip k = s.tickedChip (n + k) := by
  induction k with
  | zero => exact h3
  | succ k ih => rw [State.tickedChip, ih, State.moveAt_drop n h1 h2]; rfl

theorem State.Returns.mono {s : State} {n m : Nat} (h : s.Returns n) (hm : m ≤ n) : s.Returns m :=
  fun k hk => h k (by omega)

theorem State.Returns.shift {s t : State} {n m : Nat} (h : s.Returns (n + m)) (h1 : t.moves = s.moves.drop n)
    (h2 : t.freeMoves = s.freeMoves + (n - s.moves.length)) : t.Returns m :=
  fun k hk => by rw [State.moveAt_drop n h1 h2]; exact h _ (by omega)

theorem State.Quiet.shift {s t : State} {n m : Nat} (h : s.Quiet (n + m)) (h1 : t.moves = s.moves.drop n)
    (h2 : t.freeMoves = s.freeMoves + (n - s.moves.length)) : t.Quiet m :=
  fun k hk => by rw [State.moveAt_drop n h1 h2]; exact h _ (by omega)

@[simp] theorem Seq.advanceBy_idle (n : Nat) : Seq.advanceBy n .idle = .idle := rfl
@[simp] theorem Seq.advanceBy_run (n k : Nat) : Seq.advanceBy n (.run k) = .run (k + n) := rfl
@[simp] theorem Seq.advanceBy_zero (q : Seq) : q.advanceBy 0 = q := by cases q <;> rfl
@[simp] theorem Seq.advanceBy_advanceBy (q : Seq) (n m : Nat) : (q.advanceBy n).advanceBy m = q.advanceBy (n + m) := by
  cases q <;> simp [Nat.add_assoc]
theorem Seq.advance_eq (q : Seq) : q.advance = q.advanceBy 1 := by cases q <;> rfl

/-! ### The block waits on a call that never returns -/

theorem State.live_hung (f : State → State) (s : State) (h : s.hung = true) : s.live f = s := by simp [State.live, h]
theorem State.live_eq (f : State → State) (s : State) (h : s.hung = false) : s.live f = f s := by simp [State.live, h]

theorem State.ret_eq (v : State → Word) (s : State) (h : s.hung = false) :
    s.ret v = { s with res := v s, seq := .idle } := s.live_eq _ h

theorem State.ret_hung (v : State → Word) (s : State) (h : s.hung = true) : s.ret v = s := s.live_hung _ h

theorem State.transport_hung (c a e) (s : State) (h : s.hung = true) : s.transport c a e = s := s.live_hung _ h

/-- A call that returns. -/
theorem State.transport_eq (c a e) (s : State) (h : s.hung = false) (hr : (s.moveAt 0).returns = true) :
    s.transport c a e =
      { e s.takeMove (s.moveAt 0) with
        trace := s.trace ++ [⟨c, a s (s.moveAt 0)⟩]
        seq := s.seq.advance
        chip := (e s.takeMove (s.moveAt 0)).chip.tick (s.moveAt 0).ticks } := by
  simp [State.transport, State.live, h, hr]

/-- A call that never returns. -/
theorem State.transport_never (c a e) (s : State) (h : s.hung = false) (hr : (s.moveAt 0).returns = false) :
    s.transport c a e = { s.takeMove with
      trace := s.trace ++ [⟨c, .never⟩], hung := true, chip := s.chip.tick (s.moveAt 0).ticks } := by
  simp [State.transport, State.live, h, hr]

/-! ### Runs of reads -/

/-- Byte `k` of a run of `T_READ` calls from here. -/
def State.byteAt (s : State) (k : Nat) : Byte :=
  if s.readGood then ((s.tickedChip k).read (s.ptr + BitVec.ofNat 8 k).toNat).getD (s.moveAt k).data
  else (s.moveAt k).data

theorem State.readByte_eq_byteAt (s : State) : s.readByte (s.moveAt 0) = s.byteAt 0 := by
  simp [State.readByte, State.byteAt, State.tickedChip]

/-- `n` reads that all return. -/
theorem State.readAll_eq (n : Nat) : ∀ (i : Nat) (s : State), s.hung = false → s.Returns n →
    State.readAll n i s =
      { s with
        rb := Vector.ofFn fun j : Fin 9 => if i ≤ j.val ∧ j.val < i + n then s.byteAt (j.val - i) else s.rb.get j
        ptr := s.ptr + BitVec.ofNat 8 n
        seq := s.seq.advanceBy n
        chip := s.tickedChip n
        moves := s.moves.drop n
        freeMoves := s.freeMoves + (n - s.moves.length)
        trace := s.trace ++ (List.range n).map fun k => ⟨.read, .value (s.byteAt k)⟩ } := by
  induction n with
  | zero =>
    intro i s _ _
    have hrb : (Vector.ofFn fun j : Fin 9 => if i ≤ j.val ∧ j.val < i + 0 then s.byteAt (j.val - i) else s.rb.get j) = s.rb := by
      refine Vector.ext fun j hj => ?_
      rw [Vector.getElem_ofFn, if_neg (by simp only; omega)]; rfl
    simp only [State.readAll, hrb]
    simp [State.tickedChip]
  | succ n ih =>
    intro i s hs hr
    have h0 : (s.moveAt 0).returns = true := hr 0 (by omega)
    have e1 : s.tRead i =
        { s.takeMove with
          rb := s.rb.setIfInBounds i (s.byteAt 0)
          ptr := s.ptr + 1#8
          trace := s.trace ++ [⟨.read, .value (s.byteAt 0)⟩]
          seq := s.seq.advance
          chip := s.chip.tick (s.moveAt 0).ticks } := by
      have hb : s.takeMove.readByte (s.moveAt 0) = s.byteAt 0 := by
        rw [← State.readByte_eq_byteAt]; simp [State.readByte]
      rw [State.tRead, State.transport_eq _ _ _ s hs h0]
      simp only [hb, State.readByte_eq_byteAt, State.takeMove_rb, State.takeMove_ptr, State.takeMove_chip]
    have m1 : (s.tRead i).moves = s.moves.drop 1 := by rw [e1]; exact s.takeMove_moves
    have m2 : (s.tRead i).freeMoves = s.freeMoves + (1 - s.moves.length) := by rw [e1]; exact s.takeMove_freeMoves
    have c1 : (s.tRead i).chip = s.tickedChip 1 := by rw [e1]; rfl
    have hh : (s.tRead i).hung = false := by rw [e1]; simpa using hs
    have bt : ∀ k, (s.tRead i).byteAt k = s.byteAt (k + 1) := by
      intro k
      have hp : (s.tRead i).ptr + BitVec.ofNat 8 k = s.ptr + BitVec.ofNat 8 (k + 1) := by
        rw [e1]
        have : BitVec.ofNat 8 (k + 1) = 1#8 + BitVec.ofNat 8 k := by
          rw [Nat.add_comm, BitVec.ofNat_add]
        rw [this, BitVec.add_assoc]
      have hg : (s.tRead i).readGood = s.readGood := by rw [e1]; simp
      simp only [State.byteAt, hp, hg, State.tickedChip_drop 1 m1 m2 c1, State.moveAt_drop 1 m1 m2,
        Nat.add_comm 1 k]
    rw [State.readAll, ih (i + 1) (s.tRead i) hh
      (State.Returns.shift (n := 1) (m := n) (by rwa [Nat.add_comm]) m1 m2)]
    have hrb : (Vector.ofFn fun j : Fin 9 => if i + 1 ≤ j.val ∧ j.val < i + 1 + n then (s.tRead i).byteAt (j.val - (i + 1))
        else (s.tRead i).rb.get j)
        = Vector.ofFn fun j : Fin 9 => if i ≤ j.val ∧ j.val < i + (n + 1) then s.byteAt (j.val - i) else s.rb.get j := by
      refine Vector.ext fun j hj => ?_
      have hrbi : (s.tRead i).rb = s.rb.setIfInBounds i (s.byteAt 0) := by rw [e1]
      simp only [Vector.getElem_ofFn, bt, hrbi]
      by_cases hji : i = j
      · subst hji
        rw [if_neg (by omega), if_pos (by omega)]
        simp [Vector.get_eq_getElem]
      · by_cases hin : i + 1 ≤ j ∧ j < i + 1 + n
        · rw [if_pos hin, if_pos (by omega)]
          congr 1; omega
        · rw [if_neg hin, if_neg (by omega)]
          simp [Vector.get_eq_getElem, hji]
    have hc : (s.tRead i).tickedChip n = s.tickedChip (n + 1) := by
      rw [State.tickedChip_drop 1 m1 m2 c1, Nat.add_comm]
    have hp : (s.tRead i).ptr + BitVec.ofNat 8 n = s.ptr + BitVec.ofNat 8 (n + 1) := by
      rw [e1, Nat.add_comm n 1, BitVec.ofNat_add, ← BitVec.add_assoc]
    have ht : (s.tRead i).trace ++ (List.range n).map (fun k => (⟨.read, .value ((s.tRead i).byteAt k)⟩ : Event))
        = s.trace ++ (List.range (n + 1)).map fun k => ⟨.read, .value (s.byteAt k)⟩ := by
      rw [e1]
      simp only [← e1, bt]
      simp [List.range_succ_eq_map, Function.comp_def]
    have hm : (s.tRead i).moves.drop n = s.moves.drop (n + 1) := by rw [m1, List.drop_drop, Nat.add_comm]
    have hf : (s.tRead i).freeMoves + (n - (s.tRead i).moves.length) = s.freeMoves + (n + 1 - s.moves.length) := by
      rw [m1, m2, List.length_drop]; omega
    have hq : (s.tRead i).seq.advanceBy n = s.seq.advanceBy (n + 1) := by
      rw [e1]; simp [Seq.advance_eq, Nat.add_comm]
    rw [hrb, hc, hp, ht, hm, hf, hq, e1]
    simp

/-! ### Calls in a row -/

/-- `u`, but with the moves, the chip and `SEQ` as they are `k` returned calls after `s`, none of which stored a
byte. -/
def State.progress (k : Nat) (s u : State) : State :=
  { u with
    moves := s.moves.drop k
    freeMoves := s.freeMoves + (k - s.moves.length)
    chip := s.tickedChip k
    seq := s.seq.advanceBy k }

theorem State.progress_zero (s : State) : State.progress 0 s s = s := by
  simp [State.progress, State.tickedChip]

theorem State.takeMove_eq (s : State) :
    s.takeMove = { s with moves := s.moves.drop 1, freeMoves := s.freeMoves + (1 - s.moves.length) } := by
  unfold State.takeMove
  split <;> rename_i h <;> rw [h] <;> simp

theorem State.takeMove_progress (k : Nat) (s u : State) :
    (State.progress k s u).takeMove =
      { State.progress (k + 1) s u with chip := s.tickedChip k, seq := s.seq.advanceBy k } := by
  rw [State.takeMove_eq]
  simp only [State.progress, List.drop_drop, List.length_drop, State.mk.injEq, true_and, and_true]
  omega

theorem State.moveAt_progress (k j : Nat) (s u : State) : (State.progress k s u).moveAt j = s.moveAt (k + j) :=
  State.moveAt_drop k rfl rfl j

theorem State.tickedChip_progress (k j : Nat) (s u : State) :
    (State.progress k s u).tickedChip j = s.tickedChip (k + j) :=
  State.tickedChip_drop k rfl rfl rfl j

/-- One more call that returns. -/
theorem State.transport_progress (k : Nat) (s u : State) (c a e) (hu : u.hung = false)
    (hr : (s.moveAt k).returns = true) :
    (State.progress k s u).transport c a e =
      { e { State.progress (k + 1) s u with chip := s.tickedChip k, seq := s.seq.advanceBy k } (s.moveAt k) with
        trace := u.trace ++ [⟨c, a (State.progress k s u) (s.moveAt k)⟩]
        seq := s.seq.advanceBy (k + 1)
        chip := (e { State.progress (k + 1) s u with chip := s.tickedChip k, seq := s.seq.advanceBy k }
          (s.moveAt k)).chip.tick (s.moveAt k).ticks } := by
  have h0 : (State.progress k s u).moveAt 0 = s.moveAt k := State.moveAt_progress k 0 s u
  rw [State.transport_eq _ _ _ (State.progress k s u) hu (by rw [h0]; exact hr), h0, State.takeMove_progress,
    Seq.advance_eq]
  simp [State.progress]

theorem State.tSetClock_progress (k : Nat) (s u : State) (hu : u.hung = false) (hr : (s.moveAt k).returns = true) :
    (State.progress k s u).tSetClock =
      State.progress (k + 1) s { u with trace := u.trace ++ [⟨.setClock u.speed, .done⟩] } :=
  State.transport_progress k s u _ _ _ hu hr

theorem State.tBegin_progress (k : Nat) (s u : State) (hu : u.hung = false) (hr : (s.moveAt k).returns = true) :
    (State.progress k s u).tBegin =
      State.progress (k + 1) s { u with sent := [], trace := u.trace ++ [⟨.beginTx u.addr, .done⟩] } :=
  State.transport_progress k s u _ _ _ hu hr

theorem State.tInit_progress (k : Nat) (s u : State) (hu : u.hung = false) (hr : (s.moveAt k).returns = true) :
    (State.progress k s u).tInit =
      State.progress (k + 1) s { u with busInit := true, trace := u.trace ++ [⟨.init, .done⟩] } :=
  State.transport_progress k s u _ _ _ hu hr

theorem State.tWrite_progress (b : Byte) (k : Nat) (s u : State) (hu : u.hung = false)
    (hr : (s.moveAt k).returns = true) :
    (State.progress k s u).tWrite b =
      State.progress (k + 1) s { u with sent := u.sent ++ [b], trace := u.trace ++ [⟨.write b, .done⟩] } :=
  State.transport_progress k s u _ _ _ hu hr

theorem State.tReq_progress (n k : Nat) (s u : State) (hu : u.hung = false) (hr : (s.moveAt k).returns = true) :
    (State.progress k s u).tReq n =
      State.progress (k + 1) s { u with
        avail := (s.moveAt k).code
        readGood := decide (u.err = 0#8 ∧ (s.moveAt k).code.toNat = n)
        trace := u.trace ++ [⟨.request u.addr n, .value (s.moveAt k).code⟩] } :=
  State.transport_progress k s u _ _ _ hu hr

/-- The end of the address phase of a read: no data byte is sent, so none lands. -/
theorem State.tEnd_address_progress (reg : Byte) (k : Nat) (s u : State) (hu : u.hung = false)
    (hsent : u.sent = [reg]) (hr : (s.moveAt k).returns = true) :
    (State.progress k s u).tEnd false =
      State.progress (k + 1) s { u with
        err := (s.moveAt k).code
        sent := []
        ptr := reg
        trace := u.trace ++ [⟨.endTx false, .value (s.moveAt k).code⟩] } := by
  have hl : landed (s.moveAt k) [] = [] := by simp [landed]
  rw [State.tEnd, State.transport_progress k s u _ _ _ hu hr]
  simp [State.progress, State.land, hsent, hl, Memory.store, State.tickedChip]

/-- The end of a write transfer: the data bytes that landed are stored. -/
theorem State.tEnd_write_progress (reg : Byte) (data : List Byte) (k : Nat) (s u : State) (hu : u.hung = false)
    (hsent : u.sent = reg :: data) (hr : (s.moveAt k).returns = true) :
    (State.progress k s u).tEnd true =
      { State.progress (k + 1) s u with
        err := (s.moveAt k).code
        sent := []
        ptr := reg + BitVec.ofNat 8 (landed (s.moveAt k) data).length
        chip := ((s.tickedChip k).store reg.toNat (landed (s.moveAt k) data)).tick (s.moveAt k).ticks
        trace := u.trace ++ [⟨.endTx true, .value (s.moveAt k).code⟩] } := by
  rw [State.tEnd, State.transport_progress k s u _ _ _ hu hr]
  simp [State.progress, State.land, hsent]

/-! ### The two transactions -/

/-- The address phase, all of whose calls return: `T_SETCLOCK`, `T_BEGIN`, the register address. -/
theorem State.addressPhase_eq (reg : Byte) (s : State) (hs : s.hung = false) (hr : s.Returns 3) :
    s.tSetClock.tBegin.tWrite reg =
      State.progress 3 s { s with
        sent := [reg]
        trace := s.trace ++ [⟨.setClock s.speed, .done⟩, ⟨.beginTx s.addr, .done⟩, ⟨.write reg, .done⟩] } := by
  have h0 := State.progress_zero s
  conv_lhs => rw [← h0]
  rw [State.tSetClock_progress 0 s s hs (hr 0 (by omega)), State.tBegin_progress _ _ _ (by exact hs) (hr 1 (by omega)),
    State.tWrite_progress _ _ _ _ (by exact hs) (hr 2 (by omega))]
  simp

/-- A register read all of whose calls return (20_memory.md R60). -/
theorem State.memRead_eq (reg : Byte) (n : Nat) (s : State) (hs : s.hung = false) (hr : s.Returns (5 + n)) :
    s.memRead reg n = s.afterRead reg n := by
  rw [State.memRead, State.addressPhase_eq reg s hs (hr.mono (by omega)),
    State.tEnd_address_progress reg _ _ _ (by simpa using hs) rfl (hr 3 (by omega)),
    State.tReq_progress _ _ _ _ (by simpa using hs) (hr 4 (by omega)),
    State.readAll_eq n 0 _ (by simpa [State.progress] using hs)
      (State.Returns.shift (s := s) (n := 5) hr rfl rfl)]
  have hb : ∀ k, State.byteAt (State.progress (3 + 1 + 1) s
      { s with
        err := (s.moveAt 3).code
        avail := (s.moveAt (3 + 1)).code
        sent := []
        ptr := reg
        readGood := decide ((s.moveAt 3).code = 0#8 ∧ (s.moveAt (3 + 1)).code.toNat = n)
        trace := s.trace ++ [⟨.setClock s.speed, .done⟩, ⟨.beginTx s.addr, .done⟩, ⟨.write reg, .done⟩]
          ++ [⟨.endTx false, .value (s.moveAt 3).code⟩] ++ [⟨.request s.addr n, .value (s.moveAt (3 + 1)).code⟩] }) k
      = s.sample reg n k := by
    intro k
    simp only [State.byteAt, State.tickedChip_progress, State.moveAt_progress, State.sample]
    simp [State.progress]
  simp only [hb, State.tickedChip_progress]
  simp only [State.progress, State.afterRead, State.readTrace, State.mk.injEq, List.drop_drop, List.length_drop,
    Seq.advanceBy_advanceBy]
  simp
  omega

theorem State.writeAll_progress (bs : List Byte) : ∀ (k : Nat) (s u : State), u.hung = false →
    (∀ j < bs.length, (s.moveAt (k + j)).returns = true) →
    State.writeAll bs (State.progress k s u) =
      State.progress (k + bs.length) s
        { u with sent := u.sent ++ bs, trace := u.trace ++ bs.map fun b => ⟨.write b, .done⟩ } := by
  induction bs with
  | nil => intro k s u _ _; simp [State.writeAll]
  | cons b bs ih =>
    intro k s u hu hr
    rw [State.writeAll, State.tWrite_progress b k s u hu (hr 0 (by simp)), ih _ _ _ (by simpa using hu)]
    · simp [Nat.add_assoc, Nat.add_comm 1]
    · intro j hj
      have := hr (j + 1) (by simp; omega)
      rwa [show k + 1 + j = k + (j + 1) by omega]

/-- `wb` after bytes are put into it, read back. -/
theorem State.loadWb_take (bytes : List Byte) (s : State) (hs : s.hung = false) (hl : bytes.length ≤ 7) :
    (s.loadWb bytes).wb.toList.take bytes.length = bytes := by
  rw [State.loadWb, State.live_eq _ _ hs]
  refine List.ext_getElem (by simp; omega) fun i h1 h2 => ?_
  rw [List.getElem_take, Vector.getElem_toList, Vector.getElem_ofFn]
  simp [h2]

/-- A register write of at most seven bytes, put into `wb`, all of whose calls return (20_memory.md R59). -/
theorem State.memWrite_eq (reg : Byte) (bytes : List Byte) (s : State) (hs : s.hung = false)
    (hl : bytes.length ≤ 7) (hr : s.Returns (bytes.length + 4)) :
    (s.loadWb bytes).memWrite reg bytes.length = s.afterWrite reg bytes := by
  have hw := State.loadWb_take bytes s hs hl
  have e : s.loadWb bytes = { s with wb := Vector.ofFn fun i : Fin 7 => bytes.getD i.val (s.wb.get i) } :=
    State.live_eq _ _ hs
  have hm : ∀ k, (s.loadWb bytes).moveAt k = s.moveAt k :=
    State.moveAt_congr (by rw [e]) (by rw [e])
  have hr' : (s.loadWb bytes).Returns (bytes.length + 4) := fun k hk => by rw [hm]; exact hr k hk
  have ht : ∀ k, (s.loadWb bytes).tickedChip k = s.tickedChip k :=
    State.tickedChip_congr (by rw [e]) (by rw [e]) (by rw [e])
  have hh : (s.loadWb bytes).hung = false := by rw [e]; exact hs
  rw [State.memWrite, hw, State.addressPhase_eq reg _ hh (hr'.mono (by omega)),
    State.writeAll_progress bytes 3 _ _ (by exact hh) (fun j hj => hr' _ (by omega)),
    State.tEnd_write_progress reg bytes _ _ _ (by exact hh) (by simp) (hr' _ (by omega))]
  simp only [hm, ht, State.progress, State.afterWrite, State.writtenChip, State.writeTrace]
  rw [e]
  simp [Nat.add_comm 3]

/-! ### Transactions in which a call never returns -/

theorem State.SameBlock.rfl' (s : State) : s.SameBlock s := by constructor <;> rfl

theorem State.SameBlock.trans {s t u : State} (h : s.SameBlock t) (g : t.SameBlock u) : s.SameBlock u := by
  constructor
  all_goals first
    | exact g.1.trans h.1 | exact g.2.trans h.2 | exact g.3.trans h.3 | exact g.4.trans h.4
    | exact g.5.trans h.5 | exact g.6.trans h.6 | exact g.7.trans h.7 | exact g.8.trans h.8
    | exact g.9.trans h.9 | exact g.10.trans h.10 | exact g.11.trans h.11 | exact g.12.trans h.12
    | exact g.13.trans h.13 | exact g.14.trans h.14 | exact g.15.trans h.15 | exact g.16.trans h.16

/-- A call that never returns, after `k` that did. -/
theorem State.transport_progress_never (k : Nat) (s u : State) (c a e) (hu : u.hung = false)
    (hr : (s.moveAt k).returns = false) :
    (State.progress k s u).transport c a e =
      { State.progress (k + 1) s u with
        seq := s.seq.advanceBy k
        trace := u.trace ++ [⟨c, .never⟩]
        hung := true } := by
  have h0 : (State.progress k s u).moveAt 0 = s.moveAt k := State.moveAt_progress k 0 s u
  rw [State.transport_never _ _ _ (State.progress k s u) hu (by rw [h0]; exact hr), State.takeMove_progress, h0]
  simp [State.progress, State.tickedChip]

theorem State.writeAll_hung (bs : List Byte) (s : State) (h : s.hung = true) : State.writeAll bs s = s := by
  induction bs generalizing s with
  | nil => rfl
  | cons b bs ih => rw [State.writeAll, State.tWrite, State.transport_hung _ _ _ _ h, ih s h]

theorem State.readAll_hung (n : Nat) : ∀ (i : Nat) (s : State), s.hung = true → State.readAll n i s = s := by
  induction n with
  | zero => intro i s _; rfl
  | succ n ih => intro i s h; rw [State.readAll, State.tRead, State.transport_hung _ _ _ _ h, ih _ s h]

/-- The first call that does not return, if one of `n` does not. -/
theorem State.first_stop (n : Nat) (s : State) (h : ¬ s.Returns n) :
    ∃ k, k < n ∧ s.Returns k ∧ (s.moveAt k).returns = false := by
  induction n with
  | zero => exact absurd (fun k hk => absurd hk (Nat.not_lt_zero k)) h
  | succ n ih =>
    by_cases hn : s.Returns n
    · refine ⟨n, by omega, hn, ?_⟩
      by_contra hc
      refine h fun k hk => ?_
      rcases Nat.lt_succ_iff_lt_or_eq.1 hk with hk | rfl
      · exact hn k hk
      · simpa using hc
    · obtain ⟨k, h1, h2, h3⟩ := ih hn
      exact ⟨k, by omega, h2, h3⟩

/-- Reads in a row of which the `j`-th never returns. -/
theorem State.readAll_stuck (n i j : Nat) (s : State) (hs : s.hung = false) (hj : j < n) (hr : s.Returns j)
    (hn : (s.moveAt j).returns = false) :
    ∃ rb ptr, State.readAll n i s =
      { s with
        rb := rb
        ptr := ptr
        seq := s.seq.advanceBy j
        chip := s.tickedChip (j + 1)
        moves := s.moves.drop (j + 1)
        freeMoves := s.freeMoves + (j + 1 - s.moves.length)
        trace := s.trace ++ ((List.range j).map fun k => ⟨.read, .value (s.byteAt k)⟩) ++ [⟨.read, .never⟩]
        hung := true } := by
  have split : ∀ (m i : Nat) (u : State), State.readAll (j + m) i u = State.readAll m (i + j) (State.readAll j i u) := by
    clear hj hr hn
    induction j with
    | zero => intro m i u; simp [State.readAll]
    | succ j ih =>
      intro m i u
      rw [show j + 1 + m = (j + m) + 1 by omega, State.readAll, ih, State.readAll]
      congr 1; omega
  obtain ⟨m, rfl⟩ : ∃ m, n = j + (m + 1) := ⟨n - j - 1, by omega⟩
  have e : State.readAll j i s = State.progress j s { s with
      rb := Vector.ofFn fun l : Fin 9 => if i ≤ l.val ∧ l.val < i + j then s.byteAt (l.val - i) else s.rb.get l
      ptr := s.ptr + BitVec.ofNat 8 j
      trace := s.trace ++ (List.range j).map fun k => ⟨.read, .value (s.byteAt k)⟩ } := State.readAll_eq j i s hs hr
  refine ⟨(State.readAll j i s).rb, (State.readAll j i s).ptr, ?_⟩
  rw [split, State.readAll, e, State.tRead, State.transport_progress_never j s _ _ _ _ (by exact hs) hn,
    State.readAll_hung _ _ _ rfl]
  simp only [State.progress]

/-- The address phase of which call `k` never returns. -/
theorem State.addressPhase_stuck (reg : Byte) (k : Nat) (s : State) (hs : s.hung = false) (hk : k < 3)
    (hr : s.Returns k) (hn : (s.moveAt k).returns = false) (more : List Event) :
    s.Stuck ([⟨.setClock s.speed, .done⟩, ⟨.beginTx s.addr, .done⟩, ⟨.write reg, .done⟩] ++ more) k
      (s.tSetClock.tBegin.tWrite reg) := by
  have h0 := State.progress_zero s
  obtain rfl | rfl | rfl : k = 0 ∨ k = 1 ∨ k = 2 := by omega
  · have e1 : s.tSetClock = _ := (congrArg State.tSetClock h0).symm.trans
      (State.transport_progress_never 0 s s _ _ _ hs hn)
    rw [e1, State.tBegin, State.transport_hung _ _ _ _ rfl, State.tWrite, State.transport_hung _ _ _ _ rfl]
    exact ⟨by simp, hr, hn, rfl, rfl, by constructor <;> rfl, rfl, _, rfl, by simp [State.progress]⟩
  · have e1 : s.tSetClock = _ := (congrArg State.tSetClock h0).symm.trans
      (State.tSetClock_progress 0 s s hs (hr 0 (by omega)))
    have e2 := State.transport_progress_never 1 s
      { s with trace := s.trace ++ [⟨.setClock s.speed, .done⟩] } (.beginTx s.addr) (fun _ _ => .done)
      (fun s _ => { s with sent := [] }) hs hn
    have e2' : s.tSetClock.tBegin = _ := (congrArg State.tBegin e1).trans e2
    rw [e2', State.tWrite, State.transport_hung _ _ _ _ rfl]
    exact ⟨by simp, hr, hn, rfl, rfl, by constructor <;> rfl, rfl, _, rfl, by simp⟩
  · have e1 : s.tSetClock = _ := (congrArg State.tSetClock h0).symm.trans
      (State.tSetClock_progress 0 s s hs (hr 0 (by omega)))
    have e2 : s.tSetClock.tBegin = _ := (congrArg State.tBegin e1).trans
      (State.tBegin_progress 1 s _ (by exact hs) (hr 1 (by omega)))
    rw [e2, State.tWrite, State.transport_progress_never 2 s _ _ _ _ (by exact hs) hn]
    exact ⟨by simp, hr, hn, rfl, rfl, by constructor <;> rfl, rfl, _, rfl, by simp⟩

/-- What a register read can do (R60, R13 (b)): all its calls return, or one never does. -/
theorem State.memRead_cases (reg : Byte) (n : Nat) (s : State) (hs : s.hung = false) :
    (s.Returns (5 + n) ∧ s.memRead reg n = s.afterRead reg n) ∨
      ∃ k, s.Stuck (s.readTrace reg n) k (s.memRead reg n) := by
  by_cases h : s.Returns (5 + n)
  · exact .inl ⟨h, State.memRead_eq reg n s hs h⟩
  · obtain ⟨k, hk, hr, hn⟩ := State.first_stop _ s h
    refine .inr ⟨k, ?_⟩
    by_cases h3 : k < 3
    · have st := State.addressPhase_stuck reg k s hs h3 hr hn
        ([⟨.endTx false, .value (s.moveAt 3).code⟩, ⟨.request s.addr n, .value (s.moveAt 4).code⟩]
          ++ (List.range n).map fun i => ⟨.read, .value (s.sample reg n i)⟩)
      have e : s.memRead reg n = s.tSetClock.tBegin.tWrite reg := by
        rw [State.memRead, State.tEnd, State.transport_hung _ _ _ _ st.hung, State.tReq,
          State.transport_hung _ _ _ _ st.hung, State.readAll_hung _ _ _ st.hung]
      rw [e]; exact st
    · have hp := State.addressPhase_eq reg s hs (hr.mono (by omega))
      by_cases h4 : k = 3
      · subst h4
        rw [State.memRead, hp, State.tEnd, State.transport_progress_never 3 s _ _ _ _ (by exact hs) hn, State.tReq,
          State.transport_hung _ _ _ _ rfl, State.readAll_hung _ _ _ rfl]
        exact ⟨by simp [State.readTrace], hr, hn, rfl, rfl, by constructor <;> rfl, rfl, _, rfl,
          by simp [State.readTrace]⟩
      · have he := State.tEnd_address_progress reg 3 s { s with
          sent := [reg]
          trace := s.trace ++ [⟨.setClock s.speed, .done⟩, ⟨.beginTx s.addr, .done⟩, ⟨.write reg, .done⟩] }
          (by exact hs) rfl (hr 3 (by omega))
        by_cases h5 : k = 4
        · subst h5
          rw [State.memRead, hp, he, State.tReq, State.transport_progress_never 4 s _ _ _ _ (by exact hs) hn,
            State.readAll_hung _ _ _ rfl]
          exact ⟨by simp [State.readTrace], hr, hn, rfl, rfl, by constructor <;> rfl, rfl, _, rfl,
            by simp [State.progress, State.readTrace]⟩
        · obtain ⟨j, rfl⟩ : ∃ j, k = 5 + j := ⟨k - 5, by omega⟩
          have hq := State.tReq_progress n 4 s { s with
            err := (s.moveAt 3).code
            sent := []
            ptr := reg
            trace := s.trace ++ [⟨.setClock s.speed, .done⟩, ⟨.beginTx s.addr, .done⟩, ⟨.write reg, .done⟩]
              ++ [⟨.endTx false, .value (s.moveAt 3).code⟩] } (by exact hs) (hr 4 (by omega))
          have hb : ∀ i, State.byteAt (State.progress (4 + 1) s
              { s with
                err := (s.moveAt 3).code
                avail := (s.moveAt 4).code
                sent := []
                ptr := reg
                readGood := decide ((s.moveAt 3).code = 0#8 ∧ (s.moveAt 4).code.toNat = n)
                trace := s.trace ++ [⟨.setClock s.speed, .done⟩, ⟨.beginTx s.addr, .done⟩, ⟨.write reg, .done⟩]
                  ++ [⟨.endTx false, .value (s.moveAt 3).code⟩]
                  ++ [⟨.request s.addr n, .value (s.moveAt 4).code⟩] }) i
              = s.sample reg n i := by
            intro i
            simp only [State.byteAt, State.tickedChip_progress, State.moveAt_progress, State.sample]
            simp [State.progress]
          obtain ⟨rb, ptr, hra⟩ := State.readAll_stuck n 0 j _
            (show (State.progress (4 + 1) s
              { s with
                err := (s.moveAt 3).code
                avail := (s.moveAt 4).code
                sent := []
                ptr := reg
                readGood := decide ((s.moveAt 3).code = 0#8 ∧ (s.moveAt 4).code.toNat = n)
                trace := s.trace ++ [⟨.setClock s.speed, .done⟩, ⟨.beginTx s.addr, .done⟩, ⟨.write reg, .done⟩]
                  ++ [⟨.endTx false, .value (s.moveAt 3).code⟩]
                  ++ [⟨.request s.addr n, .value (s.moveAt 4).code⟩] }).hung = false from hs)
            (by omega : j < n) (State.Returns.shift (s := s) (n := 5) hr rfl rfl)
            (by rw [State.moveAt_progress]; exact hn)
          rw [State.memRead, hp, he, hq, hra]
          simp only [hb, State.tickedChip_progress]
          refine ⟨by simp [State.readTrace]; omega, hr, hn, rfl, ?_, by constructor <;> rfl, rfl,
            ⟨.read, .value (s.sample reg n j)⟩, ?_, ?_⟩
          · simp [State.progress]
          · have : j < n := by omega
            simp [State.readTrace, Nat.add_comm 5 j, this]
          · have : min j n = j := by omega
            simp [State.progress, State.readTrace, Nat.add_comm 5 j, ← List.map_take, List.take_range, this]

/-- What `T_INIT()` can do (R50, R13 (b)). -/
theorem State.tInit_cases (s : State) (hs : s.hung = false) :
    ((s.moveAt 0).returns = true ∧ s.tInit = s.afterInit) ∨ s.Stuck [⟨.init, .done⟩] 0 s.tInit := by
  have h0 := State.progress_zero s
  by_cases h : (s.moveAt 0).returns = true
  · refine .inl ⟨h, ?_⟩
    exact (congrArg State.tInit h0).symm.trans (State.tInit_progress 0 s s hs h)
  · have hn : (s.moveAt 0).returns = false := by simpa using h
    have e : s.tInit = _ := (congrArg State.tInit h0).symm.trans
      (State.transport_progress_never 0 s s _ _ _ hs hn)
    rw [e]
    exact .inr ⟨by simp, fun k hk => absurd hk (Nat.not_lt_zero k), hn, rfl, rfl, by constructor <;> rfl, rfl, _, rfl,
      by simp⟩

/-- Data bytes in a row of which the `j`-th `T_WRITE` never returns. -/
theorem State.writeAll_stuck (bs : List Byte) : ∀ (k j : Nat) (s u : State), u.hung = false → (hj : j < bs.length) →
    (∀ i < j, (s.moveAt (k + i)).returns = true) → (s.moveAt (k + j)).returns = false →
    State.writeAll bs (State.progress k s u) =
      { State.progress (k + j + 1) s u with
        sent := u.sent ++ bs.take j
        seq := s.seq.advanceBy (k + j)
        trace := u.trace ++ ((bs.take j).map fun b => ⟨.write b, .done⟩) ++ [⟨.write bs[j], .never⟩]
        hung := true } := by
  induction bs with
  | nil => intro k j s u _ hj; exact absurd hj (Nat.not_lt_zero j)
  | cons b bs ih =>
    intro k j s u hu hj hr hn
    cases j with
    | zero =>
      rw [State.writeAll, State.tWrite, State.transport_progress_never k s u _ _ _ hu hn,
        State.writeAll_hung _ _ rfl]
      simp [State.progress]
    | succ j =>
      rw [State.writeAll, State.tWrite_progress b k s u hu (hr 0 (by omega)), ih (k + 1) j s _ (by exact hu)
        (by simpa using hj)
        (fun i hi => by have := hr (i + 1) (by omega); rwa [show k + 1 + i = k + (i + 1) by omega])
        (by rwa [show k + 1 + j = k + (j + 1) by omega])]
      simp [State.progress, show k + 1 + j = k + (j + 1) by omega]

/-- What a register write of at most seven bytes, put into `wb`, can do (R59, R13 (b)): all its calls return, or one
never does. -/
theorem State.memWrite_cases (reg : Byte) (bytes : List Byte) (s : State) (hs : s.hung = false)
    (hl : bytes.length ≤ 7) :
    (s.Returns (bytes.length + 4) ∧ (s.loadWb bytes).memWrite reg bytes.length = s.afterWrite reg bytes) ∨
      ∃ k, (s.loadWb bytes).Stuck (s.writeTrace reg bytes) k ((s.loadWb bytes).memWrite reg bytes.length) := by
  by_cases h : s.Returns (bytes.length + 4)
  · exact .inl ⟨h, State.memWrite_eq reg bytes s hs hl h⟩
  · have hw := State.loadWb_take bytes s hs hl
    have e : s.loadWb bytes = { s with wb := Vector.ofFn fun i : Fin 7 => bytes.getD i.val (s.wb.get i) } :=
      State.live_eq _ _ hs
    have hm : ∀ k, (s.loadWb bytes).moveAt k = s.moveAt k :=
      State.moveAt_congr (by rw [e]) (by rw [e])
    have hwt : s.writeTrace reg bytes = (s.loadWb bytes).writeTrace reg bytes := by
      simp only [State.writeTrace, hm]; rw [e]
    rw [hwt]
    generalize hu : s.loadWb bytes = u at *
    have hh : u.hung = false := by rw [e]; exact hs
    obtain ⟨k, hk, hr, hn⟩ := State.first_stop _ u (fun hc => h fun k hk => by rw [← hm]; exact hc k hk)
    refine .inr ⟨k, ?_⟩
    rw [State.memWrite, hw]
    by_cases h3 : k < 3
    · have st := State.addressPhase_stuck reg k u hh h3 hr hn
        (bytes.map (fun b => ⟨.write b, .done⟩) ++ [⟨.endTx true, .value (u.moveAt (bytes.length + 3)).code⟩])
      rw [State.writeAll_hung _ _ st.hung, State.tEnd, State.transport_hung _ _ _ _ st.hung]
      simpa [State.writeTrace] using st
    · have hp := State.addressPhase_eq reg u hh (hr.mono (by omega))
      rw [hp]
      obtain ⟨j, rfl⟩ : ∃ j, k = 3 + j := ⟨k - 3, by omega⟩
      by_cases hj : j < bytes.length
      · rw [State.writeAll_stuck bytes 3 j u _ (by exact hh) hj (fun i hi => hr _ (by omega)) hn, State.tEnd,
          State.transport_hung _ _ _ _ rfl]
        refine ⟨by simp [State.writeTrace]; omega, hr, hn, rfl, rfl, by constructor <;> rfl, rfl,
          ⟨.write bytes[j], .done⟩, ?_, ?_⟩
        · simp [State.writeTrace, Nat.add_comm 3 j, List.getElem?_append_left, hj]
        · have : j - bytes.length = 0 := by omega
          simp [State.writeTrace, Nat.add_comm 3 j, List.take_append, ← List.map_take, this]
      · obtain rfl : j = bytes.length := by omega
        rw [State.writeAll_progress bytes 3 u _ (by exact hh) (fun i hi => hr _ (by omega)), State.tEnd,
          State.transport_progress_never _ u _ _ _ _ (by exact hh) hn]
        refine ⟨by simp [State.writeTrace]; omega, hr, hn, rfl, rfl, by constructor <;> rfl, rfl,
          ⟨.endTx true, .value (u.moveAt (bytes.length + 3)).code⟩, ?_, ?_⟩
        · simp [State.writeTrace, Nat.add_comm 3 bytes.length]
        · simp [State.writeTrace, Nat.add_comm 3 bytes.length]

end Sys2Proof.Machine
end

