-- ==== Sys2Proof/Laws/Commands.lean ====
section
/-! SUPPORT. What the operations that commands are built from can do: all their calls return, or one never does. -/

namespace Sys2Proof.Machine

/-! ### Presenting a command -/

theorem State.present_idle (i : Instr) (f : State → State) (s : State) (h : s.Idle) :
    s.present i false f = .next (f (s.accept i)) := by
  simp [State.present, h.1]

theorem State.present_ready (i : Instr) (nb : Bool) (f : State → State) (s : State) (h : s.Ready) :
    s.present i nb f = .next (f (s.accept i)) := by
  simp [State.present, h.1.1, h.2]

/-- All that presenting a command can do. -/
theorem State.present_cases (i : Instr) (nb : Bool) (f : State → State) (s : State) :
    (s.seq ≠ .idle ∧ s.present i nb f = .refused .busy) ∨
    (s.seq = .idle ∧ nb = true ∧ s.begun = false ∧ s.present i nb f = .refused .beforeBegin) ∨
    (s.seq = .idle ∧ (nb = true → s.begun = true) ∧ s.present i nb f = .next (f (s.accept i))) := by
  unfold State.present
  by_cases h : s.seq = .idle <;> cases nb <;> cases hb : s.begun <;> simp [h]

theorem State.accept_moveAt (i : Instr) (s : State) (k : Nat) : (s.accept i).moveAt k = s.moveAt k :=
  State.moveAt_congr rfl rfl k

theorem State.accept_returns (i : Instr) (s : State) (n : Nat) (h : s.Returns n) : (s.accept i).Returns n :=
  fun k hk => by rw [State.accept_moveAt]; exact h k hk

/-! ### One write, one read -/

theorem State.writeCommand_eq (reg : Byte) (bytes : List Byte) (s : State) (hs : s.hung = false)
    (hl : bytes.length ≤ 7) (hr : s.Returns (bytes.length + 4)) :
    s.writeCommand reg bytes = { s.afterWrite reg bytes with
      res := if (s.moveAt (bytes.length + 3)).code = 0#8 then 1#64 else 0#64, seq := .idle } := by
  rw [State.writeCommand, State.memWrite_eq reg bytes s hs hl hr, State.ret_eq _ _ (by simpa using hs)]
  by_cases h : (s.moveAt (bytes.length + 3)).code = 0#8
  · simp [State.writeOk, boolResult, h, State.afterWrite]
  · simp [State.writeOk, boolResult, beq_eq_false_iff_ne.mpr h, h, State.afterWrite]

theorem State.writeCommand_cases (reg : Byte) (bytes : List Byte) (s : State) (hs : s.hung = false)
    (hl : bytes.length ≤ 7) :
    (s.Returns (bytes.length + 4) ∧ s.writeCommand reg bytes = { s.afterWrite reg bytes with
      res := if (s.moveAt (bytes.length + 3)).code = 0#8 then 1#64 else 0#64, seq := .idle }) ∨
    ∃ k, (s.loadWb bytes).Stuck (s.writeTrace reg bytes) k (s.writeCommand reg bytes) := by
  rcases State.memWrite_cases reg bytes s hs hl with ⟨hr, _⟩ | ⟨k, hk⟩
  · exact .inl ⟨hr, State.writeCommand_eq reg bytes s hs hl hr⟩
  · refine .inr ⟨k, ?_⟩
    rw [State.writeCommand, State.ret_hung _ _ hk.hung]; exact hk

theorem State.readCommand_eq (reg : Byte) (n : Nat) (v : State → Word) (s : State) (hs : s.hung = false)
    (hr : s.Returns (5 + n)) :
    s.readCommand reg n v = { s.afterRead reg n with res := v (s.afterRead reg n), seq := .idle } := by
  rw [State.readCommand, State.memRead_eq reg n s hs hr, State.ret_eq _ _ (by simpa using hs)]

theorem State.readCommand_cases (reg : Byte) (n : Nat) (v : State → Word) (s : State) (hs : s.hung = false) :
    (s.Returns (5 + n) ∧ s.readCommand reg n v = { s.afterRead reg n with res := v (s.afterRead reg n), seq := .idle }) ∨
    ∃ k, s.Stuck (s.readTrace reg n) k (s.readCommand reg n v) := by
  rcases State.memRead_cases reg n s hs with ⟨hr, _⟩ | ⟨k, hk⟩
  · exact .inl ⟨hr, State.readCommand_eq reg n v s hs hr⟩
  · refine .inr ⟨k, ?_⟩
    rw [State.readCommand, State.ret_hung _ _ hk.hung]; exact hk

/-! ### The status refresh -/

theorem State.refreshStatus_eq (s : State) (hs : s.hung = false) (hr : s.Returns 7) :
    s.refreshStatus = s.afterStatus := by
  rw [State.refreshStatus, State.memRead_eq _ _ _ hs hr, State.live_eq _ _ (by simpa using hs)]
  simp [State.afterStatus, State.afterRead, Config.regCs1, Vector.getElem_ofFn]

theorem State.refreshStatus_cases (s : State) (hs : s.hung = false) :
    (s.Returns 7 ∧ s.refreshStatus = s.afterStatus) ∨
    ∃ k, s.Stuck (s.readTrace 0x00#8 2) k s.refreshStatus := by
  rcases State.memRead_cases 0x00#8 2 s hs with ⟨hr, _⟩ | ⟨k, hk⟩
  · exact .inl ⟨hr, State.refreshStatus_eq s hs hr⟩
  · refine .inr ⟨k, ?_⟩
    rw [State.refreshStatus, Config.regCs1, State.live_hung _ _ hk.hung]; exact hk

/-! ### The time burst -/

theorem State.takeBurst_afterRead (s : State) : (s.afterRead 0x00#8 9).takeBurst = s.afterBurst := by
  have h : (s.afterRead 0x00#8 9).rb = s.burst := by
    ext i hi
    simp only [State.afterRead, State.burst, Vector.getElem_ofFn, if_pos hi]
  simp only [State.takeBurst, h, State.afterBurst]

/-- All that one pass of the loop of R170 can do. -/
theorem State.timePass_cases (twice : Bool) (v : State → Word) (s : State) (hs : s.hung = false) :
    (s.Returns 14 ∧ State.timePass twice v s = s.afterBurst.settle twice v) ∨
    ∃ k, s.Stuck (s.readTrace 0x00#8 9) k (State.timePass twice v s) := by
  rcases State.memRead_cases 0x00#8 9 s hs with ⟨hr, _⟩ | ⟨k, hk⟩
  · refine .inl ⟨hr, ?_⟩
    rw [State.timePass, State.memRead_eq _ _ _ hs hr, State.live_eq _ _ (by simpa using hs),
      Config.regCs1, State.takeBurst_afterRead]
  · refine .inr ⟨k, ?_⟩
    rw [State.timePass, Config.regCs1, State.live_hung _ _ hk.hung]; exact hk

/-- A pass in a state whose outstanding call never returns. -/
theorem State.timePass_hung (twice : Bool) (v : State → Word) (s : State) (hs : s.hung = true) :
    State.timePass twice v s = s := by
  have h : s.memRead Config.regCs1 9 = s := by
    have e1 : s.tSetClock = s := State.transport_hung _ _ _ _ hs
    have e2 : s.tBegin = s := State.transport_hung _ _ _ _ hs
    have e3 : s.tWrite Config.regCs1 = s := State.transport_hung _ _ _ _ hs
    have e4 : s.tEnd false = s := State.transport_hung _ _ _ _ hs
    have e5 : s.tReq 9 = s := State.transport_hung _ _ _ _ hs
    rw [State.memRead, e1, e2, e3, e4, e5, State.readAll_hung _ _ _ hs]
  rw [State.timePass, h, State.live_hung _ _ hs]

/-- What R170 does with a decoded read. -/
theorem State.settle_eq (twice : Bool) (v : State → Word) (s : State) (hs : s.hung = false) :
    s.settle twice v = if twice = false ∨ (s.prevValid = true ∧ s.prevDate = s.curDate)
      then { s with res := v s, seq := .idle }
      else { s with prevDate := s.curDate, prevValid := true, seq := .run 0 } := by
  rw [State.settle, State.ret_eq _ _ hs]
  simp only [State.dateAgrees, Bool.or_eq_true, Bool.not_eq_true', Bool.and_eq_true, beq_iff_eq]

/-! ### The step -/

/-- All that a step can do, by what it is about. -/
theorem step_cases (s : State) :
    (∃ rest, s.host = .reset :: rest ∧ step s = .next ({ s with host := rest } : State).blockReset) ∨
    (s.host.head? ≠ some .reset ∧ s.seq ≠ .idle ∧ step s = resume s) ∨
    (s.seq = .idle ∧ s.host = [] ∧ step s = .next s.envStep) ∨
    (∃ w rest, s.seq = .idle ∧ s.host = .command w :: rest ∧
      ((∃ i, decode w = .ok i ∧ step s = exec i { s with host := rest }) ∨
        ∃ op, decode w = .error (.reservedOpcode op) ∧ step s = .refused (.reservedOpcode op))) := by
  unfold step fetch
  rcases hh : s.host with _ | ⟨c, rest⟩
  · rcases hq : s.seq with _ | k
    · exact .inr (.inr (.inl ⟨rfl, rfl, rfl⟩))
    · exact .inr (.inl ⟨by simp, by simp, rfl⟩)
  · cases c with
    | reset => exact .inl ⟨rest, rfl, rfl⟩
    | command w =>
      rcases hq : s.seq with _ | k
      · refine .inr (.inr (.inr ⟨w, rest, rfl, rfl, ?_⟩))
        rcases hd : decode w with e | i
        · exact .inr ⟨e.1, rfl, by simp [hd]⟩
        · exact .inl ⟨i, rfl, by simp [hd]⟩
      · exact .inr (.inl ⟨by simp, by simp, rfl⟩)

end Sys2Proof.Machine
end

