-- ==== Sys2Proof/Laws/Decode.lean ====
section
/-! SUPPORT. The fields of an encoded command word. -/

namespace Sys2Proof

@[simp] theorem opField_mkCmd (op : Byte) (arg : Word) : opField (mkCmd op arg) = op := by
  unfold opField mkCmd
  ext i hi
  rw [BitVec.getElem_extractLsb']
  exact (BitVec.getLsbD_append (x := op) (y := arg) (i := 64 + i)).trans (by simp [hi])

@[simp] theorem argField_mkCmd (op : Byte) (arg : Word) : argField (mkCmd op arg) = arg := by
  unfold argField mkCmd
  ext i hi
  rw [BitVec.getElem_extractLsb']
  exact (BitVec.getLsbD_append (x := op) (y := arg) (i := 0 + i)).trans (by simp [hi])

/-- An epoch count that fits `EPOCH_W` bits is read whole (R101). -/
theorem argEpoch_eq (epochW : Nat) (a : Word) (h : a.toNat < 2 ^ epochW) : argEpoch epochW a = a := by
  rw [argEpoch, Nat.mod_eq_of_lt h, BitVec.ofNat_toNat, BitVec.setWidth_eq]

/-- Thirty-two bits fit every `EPOCH_W` (R6). -/
theorem two_pow_32_le : 2 ^ 32 ≤ 2 ^ Config.epochWidth :=
  Nat.pow_le_pow_right (by decide) Config.epochWidth_ge

end Sys2Proof
end

