-- ==== Sys2Proof/Laws/PerInstr.lean ====
section
/-! SUPPORT. Per-instruction families. `EncodedFields`: every command's word has its opcode, which is no reserved one,
and its operand in their fields (30_encoding.md R90, R91). -/

namespace Sys2Proof.Laws.EncodedFields

def Statement (i : Instr) : Prop :=
  i.opcode.toNat < 0x12 ∧ opField (encode i) = i.opcode ∧ argField (encode i) = i.operand

theorem begin (speed : BitVec 32) (address : Byte) : Statement (.begin speed address) :=
  ⟨by simp [Instr.opcode], opField_mkCmd _ _, argField_mkCmd _ _⟩

theorem reset : Statement .reset :=
  ⟨by simp [Instr.opcode], opField_mkCmd _ _, argField_mkCmd _ _⟩

theorem getstatus : Statement .getstatus :=
  ⟨by simp [Instr.opcode], opField_mkCmd _ _, argField_mkCmd _ _⟩

theorem isrunning : Statement .isrunning :=
  ⟨by simp [Instr.opcode], opField_mkCmd _ _, argField_mkCmd _ _⟩

theorem isalarm : Statement .isalarm :=
  ⟨by simp [Instr.opcode], opField_mkCmd _ _, argField_mkCmd _ _⟩

theorem istimer : Statement .istimer :=
  ⟨by simp [Instr.opcode], opField_mkCmd _ _, argField_mkCmd _ _⟩

theorem now (twice : Bool) : Statement (.now twice) :=
  ⟨by simp [Instr.opcode], opField_mkCmd _ _, argField_mkCmd _ _⟩

theorem epoch (twice : Bool) : Statement (.epoch twice) :=
  ⟨by simp [Instr.opcode], opField_mkCmd _ _, argField_mkCmd _ _⟩

theorem adjust (date : Date) (time : Time) : Statement (.adjust date time) :=
  ⟨by simp [Instr.opcode], opField_mkCmd _ _, argField_mkCmd _ _⟩

theorem adjuste (t : Word) : Statement (.adjuste t) :=
  ⟨by simp [Instr.opcode], opField_mkCmd _ _, argField_mkCmd _ _⟩

theorem activealarm (enable : Bool) : Statement (.activealarm enable) :=
  ⟨by simp [Instr.opcode], opField_mkCmd _ _, argField_mkCmd _ _⟩

theorem activetimer (enable : Bool) : Statement (.activetimer enable) :=
  ⟨by simp [Instr.opcode], opField_mkCmd _ _, argField_mkCmd _ _⟩

theorem setalarm (a : BitVec 32) : Statement (.setalarm a) :=
  ⟨by simp [Instr.opcode], opField_mkCmd _ _, argField_mkCmd _ _⟩

theorem getalarm : Statement .getalarm :=
  ⟨by simp [Instr.opcode], opField_mkCmd _ _, argField_mkCmd _ _⟩

theorem settimer (v : BitVec 16) : Statement (.settimer v) :=
  ⟨by simp [Instr.opcode], opField_mkCmd _ _, argField_mkCmd _ _⟩

theorem gettimer : Statement .gettimer :=
  ⟨by simp [Instr.opcode], opField_mkCmd _ _, argField_mkCmd _ _⟩

theorem setclockout (b : Byte) : Statement (.setclockout b) :=
  ⟨by simp [Instr.opcode], opField_mkCmd _ _, argField_mkCmd _ _⟩

theorem getclockout : Statement .getclockout :=
  ⟨by simp [Instr.opcode], opField_mkCmd _ _, argField_mkCmd _ _⟩

end Sys2Proof.Laws.EncodedFields
end

