-- ==== Sys2Proof/Tests/Slice0.lean ====
section
/-! SUPPORT. Tests: expected values are those of spec/95_test_vectors.md (vector named in each comment), or written out
from the encoding tables of spec/30_encoding.md. -/

namespace Sys2Proof.Tests

open Sys2Proof.Machine

/-! ### Decoding (95_test_vectors.md section 7, 30_encoding.md) -/

theorem test_decode_begin : decodeAt 32 0x0000000051000186A0#72 = .ok (.begin 0x000186A0#32 0x51#8) := by decide
theorem test_decode_reset : decodeAt 32 0x010000000000000000#72 = .ok .reset := by decide
theorem test_decode_getstatus : decodeAt 32 0x020000000000000000#72 = .ok .getstatus := by decide
theorem test_decode_isrunning : decodeAt 32 0x030000000000000000#72 = .ok .isrunning := by decide
theorem test_decode_isalarm : decodeAt 32 0x040000000000000000#72 = .ok .isalarm := by decide
theorem test_decode_istimer : decodeAt 32 0x050000000000000000#72 = .ok .istimer := by decide
theorem test_decode_now_1 : decodeAt 32 0x06000000000000FFFF#72 = .ok (.now true) := by decide
theorem test_decode_now_0 : decodeAt 32 0x06FFFFFFFFFFFFFFFE#72 = .ok (.now false) := by decide
theorem test_decode_epoch : decodeAt 32 0x070000000000000001#72 = .ok (.epoch true) := by decide
/- V-ADJ-2: bits 31:24 ignored. -/
theorem test_decode_adjust :
    decodeAt 32 0x0820230915FF123045#72 = .ok (.adjust 0x20230915#32 0x123045#24) := by decide
theorem test_decode_adjuste : decodeAt 32 0x090000000065044E75#72 = .ok (.adjuste 1694781045#64) := by decide
/- V-ADJE-4: with EPOCH_W = 32 bits 63:32 are ignored, with EPOCH_W = 64 they count. -/
theorem test_decode_adjuste_32 : decodeAt 32 0x090000000100000000#72 = .ok (.adjuste 0#64) := by decide
theorem test_decode_adjuste_64 : decodeAt 64 0x090000000100000000#72 = .ok (.adjuste 0x100000000#64) := by decide
theorem test_decode_activealarm : decodeAt 32 0x0A0000000000000001#72 = .ok (.activealarm true) := by decide
theorem test_decode_activetimer : decodeAt 32 0x0B0000000000000000#72 = .ok (.activetimer false) := by decide
theorem test_decode_setalarm : decodeAt 32 0x0CDEADBEEF81083005#72 = .ok (.setalarm 0x81083005#32) := by decide
theorem test_decode_getalarm : decodeAt 32 0x0D0000000000000000#72 = .ok .getalarm := by decide
theorem test_decode_settimer : decodeAt 32 0x0E000000000000823C#72 = .ok (.settimer 0x823C#16) := by decide
theorem test_decode_gettimer : decodeAt 32 0x0F0000000000000000#72 = .ok .gettimer := by decide
theorem test_decode_setclockout : decodeAt 32 0x100000000000000183#72 = .ok (.setclockout 0x83#8) := by decide
theorem test_decode_getclockout : decodeAt 32 0x110000000000000000#72 = .ok .getclockout := by decide
/- V-REF-1. -/
theorem test_decode_reserved : decodeAt 32 0x120000000000000000#72 = .error (.reservedOpcode 0x12#8) := by decide
theorem test_decode_reserved_last : decodeAt 32 0xFF0000000000000000#72 = .error (.reservedOpcode 0xFF#8) := by decide
theorem test_encode_begin : encode (.begin 100000#32 0x51#8) = 0x0000000051000186A0#72 := by decide
theorem test_encode_adjust : encode (.adjust 0x20230915#32 0x123045#24) = 0x082023091500123045#72 := by decide
theorem test_table_word : decodeTableWord 72 0x0F0000000000000000 = some .gettimer := by decide
/- R101: an epoch count must fit EPOCH_W bits. -/
theorem test_ill_formed : (Instr.adjuste 0x100000000#64).wellFormedAt 32 = false := by decide
theorem test_well_formed : (Instr.adjuste 0x100000000#64).wellFormedAt 33 = true := by decide

/-! ### Codec (95_test_vectors.md section 2) -/

theorem test_bcd2bin8 : (bcd2bin8 0x59#8, bcd2bin8 0x9A#8, bcd2bin8 0xFF#8) = (59, 100, 165) := by decide
theorem test_bin2bcd8 : (bin2bcd8 59, bin2bcd8 100, bin2bcd8 165) = (0x59#8, 0x00#8, 0x65#8) := by decide
theorem test_bcd2bin16 : (bcd2bin16 0x2023#16, bcd2bin16 0xFFFF#16) = (2023, 16665) := by decide
theorem test_bin2bcd16 : (bin2bcd16 2199, bin2bcd16 12023) = (0x2199#16, 0x2023#16) := by decide
theorem test_decodeYear : (decodeYear 0x99#8 true, decodeYear 0xFF#8 true) = (2199, 2265) := by decide
theorem test_centuryBit :
    (centuryBit 1999, centuryBit 2023, centuryBit 2399, centuryBit 2400, centuryBit 16665)
      = (0x80#8, 0x00#8, 0x80#8, 0x00#8, 0x80#8) := by decide
theorem test_daysFromCivil :
    (daysFromCivil 1969 12 31, daysFromCivil 2100 3 1, daysFromCivil 0 1 1, daysFromCivil 2000 0 0,
      daysFromCivil 2000 13 1) = (-1, 47541, -719528, 10925, 11323) := by decide
theorem test_civilFromDays :
    (civilFromDays 11016, civilFromDays 47540, civilFromDays 84005) = ((2000, 2, 29), (2100, 2, 28), (2199, 12, 31)) := by
  decide
theorem test_weekday : (weekday (-1), weekday 19615, weekday (-719528)) = (3, 5, 6) := by decide
theorem test_isLeap : (isLeap 2000, isLeap 2100, isLeap 2024, isLeap 2023) = (true, false, true, false) := by decide
theorem test_decodeBurst :
    decodeBurst #v[0x20#8, 0x0A#8, 0x59#8, 0xC0#8, 0x40#8, 0xC1#8, 0x07#8, 0x29#8, 0x23#8]
      = (0x202329C1#32, 0x40C059#24) := by decide
theorem test_decodeBurst_century :
    decodeBurst #v[0x00#8, 0x00#8, 0xC5#8, 0x30#8, 0x12#8, 0x15#8, 0x03#8, 0x89#8, 0x23#8]
      = (0x21238915#32, 0x123045#24) := by decide
theorem test_encodeBurst :
    encodeBurst 0x21230915#32 0x000000#24 = [0x00#8, 0x00#8, 0x00#8, 0x15#8, 0x03#8, 0x89#8, 0x23#8] := by decide
theorem test_encodeBurst_any :
    encodeBurst 0xFFFFFFFF#32 0xFFFFFF#24 = [0xFF#8, 0xFF#8, 0xFF#8, 0xFF#8, 0x02#8, 0xFF#8, 0xFF#8] := by decide
theorem test_bcdToEpoch :
    (bcdToEpoch 32 0x21238915#32 0x123000#24, bcdToEpoch 64 0x21238915#32 0x123000#24,
      bcdToEpoch 64 0x00000101#32 0#24) = (555487304, 4850454600, 0xFFFFFFF1868B8400) := by decide
theorem test_epochToBcd :
    (epochToBcd 0, epochToBcd 951782400, epochToBcd 4294967295)
      = ((0x19708101#32, 0#24), (0x20000229#32, 0#24), (0x21068207#32, 0x062815#24)) := by decide
theorem test_alarm_bytes : alarmToBytes 0x8080808F#32 = [0x80#8, 0x80#8, 0x80#8, 0x87#8] := by decide
theorem test_timer_bytes : timerToBytes 0x823C#16 = [0x82#8, 0x3C#8] := by decide

/-! ### Commands, one step each (95_test_vectors.md sections 3 to 6) -/

/-- A call that returns, with code 0 and no tick. -/
def ack : EnvMove := ⟨true, 0#8, 0#8, 0, []⟩

/-- A call that returns with this code. -/
def code (c : Byte) : EnvMove := ⟨true, c, 0#8, 0, []⟩

/-- The moves of a good read of `n` bytes. -/
def readMoves (n : Nat) : List EnvMove := [ack, ack, ack, ack, code (BitVec.ofNat 8 n)] ++ List.replicate n ack

/-- A begun block (95_test_vectors.md section 0), these chip registers, these moves. -/
def begun (chip : Memory) (moves : List EnvMove) : State :=
  { State.reset with
    addr := 0x51#8, speed := 100000#32, begun := true, busInit := true, chip := chip, moves := moves }

/-- What a step shows: result, cached status bytes, number of transport calls. -/
def shown : Host.Outcome State Fault Refusal → Option (Word × Byte × Byte × Byte × Nat)
  | .next t => some (t.res, t.cs1c, t.cs2c, t.cs3c, t.trace.length)
  | _ => none

/-- Some of the chip's registers after a step. -/
def chipAfter (a n : Nat) : Host.Outcome State Fault Refusal → List (Option Byte)
  | .next t => (List.range n).map fun i => t.chip.read (a + i)
  | _ => []

/-- The chip of V-NOW-1 with these three first registers. -/
def clockChip (cs1 cs2 sec : Byte) : Memory :=
  [(0, cs1), (1, cs2), (2, sec), (3, 0x30#8), (4, 0x12#8), (5, 0x15#8), (6, 0x03#8), (7, 0x09#8), (8, 0x23#8)]

/- V-BEGIN-1: eight calls. -/
theorem test_begin :
    shown (exec (.begin 100000#32 0x51#8)
      { State.reset with chip := [(0, 0x00#8), (1, 0x00#8)], moves := ack :: readMoves 2 })
      = some (1#64, 0x00#8, 0x00#8, 0x00#8, 8) := by decide
/- V-BEGIN-3: no T_INIT, seven calls. -/
theorem test_begin_again :
    shown (exec (.begin 400000#32 0x51#8) (begun [(0, 0x20#8), (1, 0x00#8)] (readMoves 2)))
      = some (0#64, 0x20#8, 0x00#8, 0x00#8, 7) := by decide
/- V-RESET-2: a failed write that took one byte. -/
theorem test_reset_fails :
    (shown (exec .reset (begun (clockChip 0x20#8 0x0F#8 0#8) [ack, ack, ack, ack, ack, ⟨true, 2#8, 0#8, 1, []⟩])),
      chipAfter 0 2 (exec .reset (begun (clockChip 0x20#8 0x0F#8 0#8)
        [ack, ack, ack, ack, ack, ⟨true, 2#8, 0#8, 1, []⟩])))
      = (some (0#64, 0#8, 0#8, 0#8, 6), [some 0x00#8, some 0x0F#8]) := by decide
/- V-STAT-1. -/
theorem test_getstatus :
    shown (exec .getstatus (begun (clockChip 0x00#8 0x0A#8 0#8) (readMoves 2)))
      = some (0x0A#64, 0x00#8, 0x0A#8, 0#8, 7) := by decide
/- V-FAIL-1: a failed read is any data. -/
theorem test_getstatus_fails :
    shown (exec .getstatus (begun (clockChip 0x00#8 0x0A#8 0#8)
      [ack, ack, ack, code 2#8, ack, ⟨true, 0#8, 0x77#8, 0, []⟩, ⟨true, 0#8, 0x99#8, 0, []⟩]))
      = some (0x99#64, 0x77#8, 0x99#8, 0#8, 7) := by decide
/- V-RUN-3, V-RUN-4. -/
theorem test_isrunning :
    shown (exec .isrunning (begun (clockChip 0xDF#8 0#8 0#8) (readMoves 2))) = some (1#64, 0xDF#8, 0#8, 0#8, 7) := by
  decide
theorem test_isrunning_stopped :
    shown (exec .isrunning (begun (clockChip 0xFF#8 0#8 0#8) (readMoves 2))) = some (0#64, 0xFF#8, 0#8, 0#8, 7) := by
  decide
/- V-ISA / V-IST. -/
theorem test_isalarm :
    shown (exec .isalarm (begun (clockChip 0#8 0x06#8 0#8) (readMoves 2))) = some (0#64, 0#8, 0x06#8, 0#8, 7) := by
  decide
theorem test_istimer :
    shown (exec .istimer (begun (clockChip 0#8 0x06#8 0#8) (readMoves 2))) = some (1#64, 0#8, 0x06#8, 0#8, 7) := by
  decide
/- V-NOW-2. -/
theorem test_now_0 :
    shown (exec (.now false) (begun (clockChip 0#8 0#8 0xC5#8) (readMoves 9)))
      = some (0x2023091500123045#64, 0#8, 0#8, 0xC5#8, 14) := by decide
/- V-NOW-1. -/
theorem test_now_1 :
    shown (exec (.now true) (begun (clockChip 0#8 0#8 0x45#8) (readMoves 9 ++ readMoves 9)))
      = some (0x2023091500123045#64, 0#8, 0#8, 0x45#8, 28) := by decide
/- PR4 and V-EPOCH-1, up to the conversion, whose width is open. -/
theorem test_epoch_burst :
    (match exec (.epoch false) (begun (clockChip 0#8 0#8 0x45#8) (readMoves 9)) with
      | .next t => some (bcdToEpoch 32 t.curDate t.curTime, t.trace.length)
      | _ => none) = some (0x65044E75, 14) := by decide
/- V-ADJ-1. -/
theorem test_adjust :
    (shown (exec (.adjust 0x20230915#32 0x123045#24) (begun [] (List.replicate 11 ack))),
      chipAfter 2 7 (exec (.adjust 0x20230915#32 0x123045#24) (begun [] (List.replicate 11 ack))))
      = (some (1#64, 0#8, 0#8, 0#8, 11),
        [some 0x45#8, some 0x30#8, some 0x12#8, some 0x15#8, some 0x05#8, some 0x09#8, some 0x23#8]) := by decide
/- V-ADJE-2. -/
theorem test_adjuste :
    chipAfter 2 7 (exec (.adjuste 0#64) (begun [] (List.replicate 11 ack)))
      = [some 0x00#8, some 0x00#8, some 0x00#8, some 0x01#8, some 0x04#8, some 0x81#8, some 0x70#8] := by decide
/- V-AA-1. -/
theorem test_activealarm :
    (shown (exec (.activealarm true) (begun (clockChip 0#8 0x0C#8 0#8) (readMoves 2 ++ List.replicate 5 ack))),
      chipAfter 1 1 (exec (.activealarm true) (begun (clockChip 0#8 0x0C#8 0#8) (readMoves 2 ++ List.replicate 5 ack))))
      = (some (1#64, 0#8, 0x06#8, 0#8, 12), [some 0x06#8]) := by decide
/- V-AA-3: a stopped chip, seven calls. -/
theorem test_activealarm_stopped :
    shown (exec (.activealarm true) (begun (clockChip 0x20#8 0x0C#8 0#8) (readMoves 2)))
      = some (0#64, 0x20#8, 0x0C#8, 0#8, 7) := by decide
/- V-AT-1. -/
theorem test_activetimer :
    shown (exec (.activetimer true) (begun (clockChip 0#8 0x0C#8 0#8) (readMoves 2 ++ List.replicate 5 ack)))
      = some (1#64, 0#8, 0x09#8, 0#8, 12) := by decide
/- V-SA-1, V-SA-2. -/
theorem test_setalarm :
    chipAfter 9 4 (exec (.setalarm 0x8108300D#32) (begun [] (List.replicate 8 ack)))
      = [some 0x30#8, some 0x08#8, some 0x81#8, some 0x05#8] := by decide
/- V-GA-1. -/
theorem test_getalarm :
    shown (exec .getalarm (begun [(9, 0x30#8), (10, 0x08#8), (11, 0x81#8), (12, 0x05#8)] (readMoves 4)))
      = some (0x81083005#64, 0#8, 0#8, 0#8, 9) := by decide
/- V-ST-1. -/
theorem test_settimer :
    chipAfter 14 2 (exec (.settimer 0x823C#16) (begun [] (List.replicate 6 ack))) = [some 0x82#8, some 0x3C#8] := by
  decide
/- V-GT-1. -/
theorem test_gettimer :
    shown (exec .gettimer (begun [(14, 0x82#8), (15, 0x3C#8)] (readMoves 2))) = some (0x823C#64, 0#8, 0#8, 0#8, 7) := by
  decide
/- V-SC-1. -/
theorem test_setclockout :
    chipAfter 13 1 (exec (.setclockout 0x83#8) (begun [] (List.replicate 5 ack))) = [some 0x83#8] := by decide
/- V-GC-1. -/
theorem test_getclockout :
    shown (exec .getclockout (begun [(13, 0x83#8)] (readMoves 1))) = some (0x83#64, 0#8, 0#8, 0#8, 6) := by decide
/- V-REF-2. -/
theorem test_before_begin : exec (.now true) State.reset = .refused .beforeBegin := rfl
/- R230, R231: a reset of the block leaves the chip's registers and pointer. -/
theorem test_reset_input :
    (match step { begun [(15, 0x3C#8)] [] with ptr := 0x0F#8, speed := 1#32, host := [.reset] } with
      | .next t => some (t.speed, t.ptr, t.chip.read 15, t.begun)
      | _ => none) = some (0#32, 0x0F#8, some 0x3C#8, false) := by decide
/- 00_scope.md R11 (b), log 21: the chip counts during a call that never returns, then the reset input comes. -/
theorem test_tick_before_reset :
    (match step { begun [(2, 0x59#8)] [⟨false, 0#8, 0#8, 0, [(2#4, 0x00#8), (3#4, 0x31#8)]⟩] with
        host := [.command 0x110000000000000000#72, .reset] } with
      | .next t => (match step t with
        | .next u => some (t.hung, u.hung, u.chip.read 2, u.chip.read 3)
        | _ => none)
      | _ => none) = some (true, false, some 0x00#8, some 0x31#8) := by decide
/- The fetch word runs its command. -/
theorem test_fetch_word :
    step (State.reset.withFetchWord 72 0x110000000000000000)
      = exec .getclockout { State.reset with begun := true } := rfl

/-! ### Witnesses: states and operands that meet the hypotheses of each statement

`witness_<name>` is for `Obligations.<name>`; several clauses or bounds of one statement stand in one conjunction. -/

/-- A begun block all of whose next `n` calls return with code 0, on a chip of which nothing is known. -/
def acked (n : Nat) : State := begun [] (List.replicate n ack)

/-- The outcome is a next state. -/
def isNext : Host.Outcome State Fault Refusal → Bool
  | .next _ => true
  | _ => false

/-- The next state of an outcome, where there is one. -/
def nextOr (s : State) : Host.Outcome State Fault Refusal → State
  | .next t => t
  | _ => s

/-- The outcome is this refusal. -/
def isRefused (r : Refusal) : Host.Outcome State Fault Refusal → Bool
  | .refused q => q == r
  | _ => false

/-- The moves of a read of nine bytes that fails and delivers `d` nine times. -/
def badRead (d : Byte) : List EnvMove :=
  [ack, ack, ack, code 2#8, ack] ++ List.replicate 9 ⟨true, 0#8, d, 0, []⟩

/-- A block whose `NOW 1` loops, with these moves to come. -/
def looping (op : Byte) (moves : List EnvMove) : State :=
  { begun [] moves with op := op, arg := 1#64, seq := .run 0, prevValid := true, prevDate := 0x20010101#32 }

/-- A block whose command waits on a `T_SETCLOCK` that never returns. -/
def waiting : State :=
  { begun [] [] with op := 0x0D#8, seq := .run 0, hung := true, trace := [⟨.setClock 100000#32, .never⟩] }

theorem witness_DecodeOfEncodeIsTheCommand :
    (Instr.adjuste 0xFFFFFFFF#64).wellFormed = true ∧ (Instr.begin 0#32 0x51#8).wellFormed = true := by
  refine ⟨?_, rfl⟩
  have h : 2 ^ 32 ≤ 2 ^ Config.epochWidth := Nat.pow_le_pow_right (by decide) Config.epochWidth_ge
  simp only [Instr.wellFormed, Instr.wellFormedAt, decide_eq_true_eq]
  exact lt_of_lt_of_le (by decide) h

theorem witness_DecodedCommandsAreWellFormed :
    decode 0x060000000000000001#72 = .ok (.now true) ∧ decode 0x11FFFFFFFFFFFFFFFF#72 = .ok .getclockout := ⟨rfl, rfl⟩

theorem witness_ReservedOpcodesAreRefused :
    State.reset.seq = .idle ∧ 0x12 ≤ (opField 0x120000000000000000#72).toNat ∧
      0x12 ≤ (opField 0xFF0000000000000000#72).toNat ∧ (opField 0x11FFFFFFFFFFFFFFFF#72).toNat < 0x12 := by decide

theorem witness_UnusedOperandBitsAreIgnored :
    (acked 11).seq = .idle ∧ opField 0x0820230915FF123045#72 = opField 0x082023091500123045#72 ∧
      argField 0x0820230915FF123045#72 &&& usedOperandBits Config.epochWidth (opField 0x0820230915FF123045#72)
        = argField 0x082023091500123045#72 &&& usedOperandBits Config.epochWidth (opField 0x0820230915FF123045#72) := by
  decide

theorem witness_StepRunsThePresentedCommand :
    (acked 14).seq = .idle ∧ decode 0x060000000000000000#72 = .ok (.now false) ∧
      (Instr.now false).wellFormed = true := ⟨rfl, rfl, rfl⟩

theorem witness_CommandsBeforeBeginAreRefused :
    State.reset.seq = .idle ∧ State.reset.begun = false ∧ isBegin .getclockout = false := by decide

theorem witness_RunningBlockAcceptsNoCommand :
    waiting.seq = .run 0 ∧
      isNext (step { waiting with host := [.command 0x010000000000000000#72] }) = true := ⟨rfl, rfl⟩

theorem witness_ResetInputClearsTheBlockOnly :
    ({ waiting with host := [.reset, .reset] } : State).host = .reset :: [.reset] := rfl

theorem witness_StepKeepsTheInvariant_idle :
    ({ acked 6 with host := [.command (encode .getclockout)] } : State).Inv ∧
      isNext (step { acked 6 with host := [.command (encode .getclockout)] }) = true :=
  ⟨by constructor <;> decide, rfl⟩

theorem witness_StepKeepsTheInvariant_looping :
    (looping 0x06#8 (badRead 1#8)).Inv ∧ isNext (step (looping 0x06#8 (badRead 1#8))) = true :=
  ⟨by constructor <;> decide, rfl⟩

theorem witness_StepKeepsTheInvariant_waiting : waiting.Inv ∧ isNext (step waiting) = true :=
  ⟨by constructor <;> decide, rfl⟩

theorem witness_OnlyTheHostsWordIsRefused_reserved :
    ({ acked 0 with host := [.command 0x120000000000000000#72] } : State).Inv ∧
      isRefused (.reservedOpcode 0x12#8) (step { acked 0 with host := [.command 0x120000000000000000#72] }) = true :=
  ⟨by constructor <;> decide, rfl⟩

theorem witness_OnlyTheHostsWordIsRefused_beforeBegin :
    ({ State.reset with host := [.command 0x010000000000000000#72] } : State).Inv ∧
      isRefused .beforeBegin (step { State.reset with host := [.command 0x010000000000000000#72] }) = true :=
  ⟨by constructor <;> decide, rfl⟩

theorem witness_IdleBlockOnlyWaits : State.reset.seq = .idle ∧ State.reset.host = [] := by decide

theorem witness_UnfinishedCommandStaysUnfinished :
    waiting.hung = true ∧ waiting.seq = .run 0 ∧ waiting.host.head? ≠ some .reset := by decide

/- Both opcodes, a date that agrees and one that does not. -/
theorem witness_LoopingStepMakesOnePass :
    (looping 0x06#8 (badRead 1#8)).Looping ∧ (looping 0x07#8 (badRead 1#8)).Looping ∧
      (looping 0x06#8 (badRead 1#8)).hung = false ∧ (looping 0x06#8 (badRead 1#8)).host.head? ≠ some .reset ∧
      (looping 0x06#8 (badRead 1#8)).Returns 14 ∧ (looping 0x07#8 (badRead 1#8)).Returns 14 ∧
      (looping 0x06#8 (badRead 1#8)).prevDate = burstDate (looping 0x06#8 (badRead 1#8)).burst ∧
      (looping 0x07#8 (badRead 2#8)).prevDate ≠ burstDate (looping 0x07#8 (badRead 2#8)).burst := by decide

/- The widest read, and the last register of the map; a good read and a failed one. -/
theorem witness_RegisterReadDeliversRegisters :
    (0x00#8).toNat + 9 ≤ 16 ∧ (0x0F#8).toNat + 1 ≤ 16 ∧ (begun [] (readMoves 9)).hung = false ∧
      (begun [] (readMoves 9)).Returns (5 + 9) ∧ (begun [] (readMoves 1)).Returns (5 + 1) ∧
      ((begun [] (readMoves 9)).moveAt 4).code.toNat = 9 ∧
      ((begun [] (badRead 1#8)).moveAt 3).code ≠ 0#8 ∧ (begun [] (badRead 1#8)).Returns (5 + 9) := by decide

/-- The moves of a write of `n` bytes of which the chip takes `took` before it fails. -/
def badWrite (n took : Nat) : List EnvMove := List.replicate (n + 3) ack ++ [⟨true, 3#8, 0#8, took, []⟩]

/- A write to the last register, a failed one that stores a part. -/
theorem witness_RegisterWriteStoresBytes :
    (0x0E#8).toNat + [0x82#8, 0x3C#8].length ≤ 16 ∧ (acked 6).hung = false ∧ (acked 6).chip.wf ∧
      (acked 6).Returns 6 ∧ (acked 6).Quiet 6 ∧ ((acked 6).moveAt 5).code = 0#8 ∧
      (begun [] (badWrite 2 1)).chip.wf ∧ (begun [] (badWrite 2 1)).Returns 6 ∧ (begun [] (badWrite 2 1)).Quiet 6 ∧
      ((begun [] (badWrite 2 1)).moveAt 5).code ≠ 0#8 ∧ ((begun [] (badWrite 2 1)).moveAt 5).took = 1 := by decide

theorem witness_BcdRoundTrips :
    validBcd8 0x99#8 = true ∧ validBcd8 0x00#8 = true ∧ validBcd16 0x9999#16 = true ∧ validBcd16 0x0000#16 = true ∧
      validBcd8 0x9A#8 = false := by decide

/- Ends of the centuries the rule names. -/
theorem witness_CenturyBitRule :
    ((1600 : Nat) ≤ 1699 ∧ (1699 : Nat) ≤ 1699) ∧ (2000 ≤ 2000 ∧ (2000 : Nat) ≤ 2099) ∧
      (2400 ≤ 2499 ∧ (2499 : Nat) ≤ 2499) ∧ (1900 ≤ 1999 ∧ (1999 : Nat) ≤ 1999) ∧ (2100 ≤ 2399 ∧ (2399 : Nat) ≤ 2399) := by
  decide

theorem witness_YearDecoding : validBcd8 0x99#8 = true ∧ decodeYear 0x99#8 true = 2199 := by decide

/- The next day exists, the month ends, the year ends. -/
theorem witness_DayCountFollowsTheCalendar :
    (validDate 2000 2 28 = true ∧ validDate 2000 2 (28 + 1) = true) ∧
      (validDate 2100 2 28 = true ∧ validDate 2100 2 (28 + 1) = false ∧ (2 : Int) < 12) ∧
      (validDate (-1) 12 31 = true ∧ validDate (-1) 12 (31 + 1) = false) := by decide

theorem witness_CalendarFunctionsAreInverse : validDate 2000 2 29 = true ∧ validDate (-1) 12 31 = true := by decide

/- The first instant of the epoch, and the last whole day of 32 bits. -/
theorem witness_DateTimeRoundTripsThroughEpoch :
    (validDT 0x19708101#32 0x000000#24 = true ∧ consistentFlag 0x19708101#32 = true ∧
      bcd2bin16 (dateYear 0x19708101#32) = 1970) ∧
    (validDT 0x21068206#32 0x235959#24 = true ∧ consistentFlag 0x21068206#32 = true ∧
      1970 ≤ bcd2bin16 (dateYear 0x21068206#32) ∧ dateDays 0x21068206#32 * 86400 + 86399 < (2 ^ 32 : Nat)) := by decide

/- The greatest count of 32 bits, and the last second of the year 9999. -/
theorem witness_EpochRoundTripsThroughDateTime :
    (4294967295 < 2 ^ 32 ∧ (civilFromDays ((4294967295 / 86400 : Nat) : Int)).1 ≤ 9999) ∧
      (253402300799 < 2 ^ 64 ∧ (civilFromDays ((253402300799 / 86400 : Nat) : Int)).1 = 9999) := by decide

theorem witness_RegistersRoundTripThroughTheCodec :
    validBcd8 (#v[0#8, 0#8, 0x59#8, 0x59#8, 0x23#8, 0x31#8, 0x03#8, 0x92#8, 0x99#8] : Vector Byte 9)[8] = true ∧
      (#v[0#8, 0#8, 0x59#8, 0x59#8, 0x23#8, 0x31#8, 0x03#8, 0x92#8, 0x99#8] : Vector Byte 9)[2].getLsbD 7 = false ∧
      validDT (burstDate #v[0#8, 0#8, 0x59#8, 0x59#8, 0x23#8, 0x31#8, 0x03#8, 0x92#8, 0x99#8])
        (burstTime #v[0#8, 0#8, 0x59#8, 0x59#8, 0x23#8, 0x31#8, 0x03#8, 0x92#8, 0x99#8]) = true := by decide

/- SPEED 0, and SPEED not 0. -/
theorem witness_BeginInitialisesAndReportsRunning :
    ({ State.reset with moves := List.replicate 8 ack } : State).Idle ∧
      ({ State.reset with moves := List.replicate 8 ack } : State).speed = 0#32 ∧
      ({ State.reset with moves := List.replicate 8 ack } : State).Returns 8 ∧
      (acked 7).Idle ∧ (acked 7).speed ≠ 0#32 ∧ (acked 7).Returns 7 := by decide

theorem witness_ResetWritesTwoZeros : (acked 6).Ready ∧ (acked 6).Returns 6 := by decide
theorem witness_GetStatusCachesAndReturnsCs2 : opField 0x020000000000000000#72 = 0x02#8 ∧ (acked 7).Ready ∧ (acked 7).Returns 7 := by
  decide
theorem witness_IsRunningTestsStop : opField 0x030000000000000000#72 = 0x03#8 ∧ (acked 7).Ready ∧ (acked 7).Returns 7 := by
  decide
theorem witness_IsAlarmTestsAlarmFlag : opField 0x040000000000000000#72 = 0x04#8 ∧ (acked 7).Ready ∧ (acked 7).Returns 7 := by
  decide
theorem witness_IsTimerTestsTimerFlag : opField 0x050000000000000000#72 = 0x05#8 ∧ (acked 7).Ready ∧ (acked 7).Returns 7 := by
  decide

/- One read; two reads whose dates agree, and two whose dates do not. -/
theorem witness_NowReadsOnceOrUntilDatesAgree :
    (acked 14).Ready ∧ (acked 14).Returns 14 ∧ (acked 28).Ready ∧ (acked 28).Returns 28 ∧
      (nextOr State.reset (exec (.now true) (acked 28))).seq = .idle ∧
      (begun [] (badRead 1#8 ++ badRead 2#8)).Ready ∧ (begun [] (badRead 1#8 ++ badRead 2#8)).Returns 28 ∧
      (nextOr State.reset (exec (.now true) (begun [] (badRead 1#8 ++ badRead 2#8)))).Looping := by decide

theorem witness_EpochConvertsTheTimeRead :
    (acked 14).Ready ∧ (acked 14).Returns 14 ∧ (acked 28).Ready ∧ (acked 28).Returns 28 ∧
      (nextOr State.reset (exec (.epoch true) (begun [] (badRead 1#8 ++ badRead 2#8)))).Looping := by decide

theorem witness_AdjustWritesTheEncodedTime : (acked 11).Ready ∧ (acked 11).Returns 11 := by decide
theorem witness_AdjustEpochWritesTheConvertedCount : (acked 11).Ready ∧ (acked 11).Returns 11 := by decide

/- A stopped chip, with no more than the seven calls; a running one. -/
theorem witness_ActiveAlarmArmsARunningChip :
    (begun (clockChip 0x20#8 0x0C#8 0#8) (readMoves 2)).Ready ∧
      (begun (clockChip 0x20#8 0x0C#8 0#8) (readMoves 2)).Returns 7 ∧
      ((begun (clockChip 0x20#8 0x0C#8 0#8) (readMoves 2)).accept (.activealarm true)).afterStatus.cs1c.getLsbD 5
        = true ∧
      (acked 12).Ready ∧ (acked 12).Returns 12 ∧
      ((acked 12).accept (.activealarm true)).afterStatus.cs1c.getLsbD 5 = false := by decide

theorem witness_ActiveTimerArmsARunningChip :
    (begun (clockChip 0x20#8 0x0C#8 0#8) (readMoves 2)).Ready ∧
      (begun (clockChip 0x20#8 0x0C#8 0#8) (readMoves 2)).Returns 7 ∧
      ((begun (clockChip 0x20#8 0x0C#8 0#8) (readMoves 2)).accept (.activetimer true)).afterStatus.cs1c.getLsbD 5
        = true ∧
      (acked 12).Ready ∧ (acked 12).Returns 12 ∧
      ((acked 12).accept (.activetimer true)).afterStatus.cs1c.getLsbD 5 = false := by decide

theorem witness_SetAlarmWritesFourBytes : opField 0x0C0000000000000000#72 = 0x0C#8 ∧ (acked 8).Ready ∧ (acked 8).Returns 8 := by
  decide
theorem witness_GetAlarmRepacksFourBytes : opField 0x0D0000000000000000#72 = 0x0D#8 ∧ (acked 9).Ready ∧ (acked 9).Returns 9 := by
  decide
theorem witness_SetTimerWritesTwoBytes : opField 0x0E0000000000000000#72 = 0x0E#8 ∧ (acked 6).Ready ∧ (acked 6).Returns 6 := by
  decide
theorem witness_GetTimerReadsTwoBytes : opField 0x0F0000000000000000#72 = 0x0F#8 ∧ (acked 7).Ready ∧ (acked 7).Returns 7 := by
  decide
theorem witness_SetClockOutWritesOneByte : opField 0x100000000000000000#72 = 0x10#8 ∧ (acked 5).Ready ∧ (acked 5).Returns 5 := by
  decide
theorem witness_GetClockOutReadsOneByte : opField 0x110000000000000000#72 = 0x11#8 ∧ (acked 6).Ready ∧ (acked 6).Returns 6 := by
  decide

/- Next to both ends of the registers ADJUST stores to. -/
theorem witness_CommandsStoreOnlyInTheirRegisters :
    (acked 28).chip.wf ∧ (acked 28).Quiet 28 ∧
      isNext (exec (.adjust 0x20230915#32 0x123045#24) (acked 28)) = true ∧
      ¬ ((storeRange (.adjust 0x20230915#32 0x123045#24)).1 ≤ 1 ∧
        1 < (storeRange (.adjust 0x20230915#32 0x123045#24)).1 + (storeRange (.adjust 0x20230915#32 0x123045#24)).2) ∧
      ¬ ((storeRange (.adjust 0x20230915#32 0x123045#24)).1 ≤ 9 ∧
        9 < (storeRange (.adjust 0x20230915#32 0x123045#24)).1 + (storeRange (.adjust 0x20230915#32 0x123045#24)).2) :=
  by decide

theorem witness_ReadingCommandsKeepTheRest :
    isNext (exec .getalarm (acked 9)) = true ∧ isNext (exec .gettimer (acked 7)) = true ∧
      isNext (exec .getclockout (acked 6)) = true := ⟨rfl, rfl, rfl⟩
theorem witness_StatusCommandsKeepTheRest :
    isNext (exec .getstatus (acked 7)) = true ∧ isNext (exec .isrunning (acked 7)) = true ∧
      isNext (exec .isalarm (acked 7)) = true ∧ isNext (exec .istimer (acked 7)) = true := ⟨rfl, rfl, rfl, rfl⟩
theorem witness_TimeCommandsKeepTheRest :
    isNext (exec (.now true) (acked 28)) = true ∧ isNext (exec (.epoch false) (acked 14)) = true := ⟨rfl, rfl⟩
theorem witness_WritingCommandsKeepTheRest :
    isNext (exec .reset (acked 6)) = true ∧ isNext (exec (.adjust 0#32 0#24) (acked 11)) = true ∧
      isNext (exec (.adjuste 0#64) (acked 11)) = true ∧ isNext (exec (.setalarm 0#32) (acked 8)) = true ∧
      isNext (exec (.settimer 0#16) (acked 6)) = true ∧ isNext (exec (.setclockout 0#8) (acked 5)) = true :=
  ⟨rfl, rfl, rfl, rfl, rfl, rfl⟩
theorem witness_ArmingCommandsKeepTheRest :
    isNext (exec (.activealarm true) (acked 12)) = true ∧ isNext (exec (.activetimer false) (acked 12)) = true :=
  ⟨rfl, rfl⟩
theorem witness_BeginKeepsTheRest : isNext (exec (.begin 100000#32 0x51#8) State.reset) = true := rfl

/- The three outcomes: complete, stuck in a call, looping. -/
theorem witness_OutcomesOfACommand :
    (acked 6).Idle ∧ (acked 6).begun = true ∧ (nextOr State.reset (exec .getclockout (acked 6))).Idle ∧
      (nextOr State.reset (exec .getclockout (begun [] [ack, ⟨false, 0#8, 0#8, 0, []⟩]))).hung = true ∧
      (nextOr State.reset (exec (.now true) (begun [] (badRead 1#8 ++ badRead 2#8)))).Looping := by decide

/- A command; a looping block, all calls of whose pass return and one of which never does; a waiting block. -/
theorem witness_TransportCallArguments :
    State.reset.Idle ∧ isNext (exec (.begin 100000#32 0x51#8) State.reset) = true ∧
      ((looping 0x06#8 (badRead 1#8)).seq ≠ .idle ∧ (looping 0x06#8 (badRead 1#8)).host.head? ≠ some .reset ∧
        isNext (step (looping 0x06#8 (badRead 1#8))) = true) ∧
      ((looping 0x07#8 [ack, ⟨false, 0#8, 0#8, 0, []⟩]).seq ≠ .idle ∧
        (looping 0x07#8 [ack, ⟨false, 0#8, 0#8, 0, []⟩]).host.head? ≠ some .reset ∧
        (nextOr State.reset (step (looping 0x07#8 [ack, ⟨false, 0#8, 0#8, 0, []⟩]))).hung = true) ∧
      (waiting.seq ≠ .idle ∧ waiting.host.head? ≠ some .reset ∧ isNext (step waiting) = true) := by decide

theorem witness_StaleCacheIsInvisible : isNext (exec .getstatus (acked 7)) = true := rfl

/- The first day of the year 2000, the last of 2199. -/
theorem witness_AdjustedTimeIsReadBack :
    (begun [] (List.replicate 11 ack ++ readMoves 9)).Ready ∧
      (begun [] (List.replicate 11 ack ++ readMoves 9)).chip.wf ∧
      (begun [] (List.replicate 11 ack ++ readMoves 9)).Returns 25 ∧
      (begun [] (List.replicate 11 ack ++ readMoves 9)).Quiet 25 ∧
      ((begun [] (List.replicate 11 ack ++ readMoves 9)).moveAt 10).code = 0#8 ∧
      ((begun [] (List.replicate 11 ack ++ readMoves 9)).moveAt 14).code = 0#8 ∧
      ((begun [] (List.replicate 11 ack ++ readMoves 9)).moveAt 15).code = 9#8 ∧
      (validDT 0x20000101#32 0x000000#24 = true ∧ consistentFlag 0x20000101#32 = true ∧
        bcd2bin16 (dateYear 0x20000101#32) = 2000) ∧
      (validDT 0x21999231#32 0x235959#24 = true ∧ consistentFlag 0x21999231#32 = true ∧
        bcd2bin16 (dateYear 0x21999231#32) = 2199) := by decide

end Sys2Proof.Tests
end

section
/-! SUPPORT. The scope statements (00_scope.md R13): which steps are refused, what a call that never returns leaves, and
how a presented command can come out. -/

namespace Sys2Proof.Machine

/-! ### Refusals -/

/-- Every arm of the dispatch presents its command; all but `BEGIN` need a completed `BEGIN` (R233). -/
theorem exec_eq_present (i : Instr) (s : State) :
    ∃ body, exec i s = s.present i (!isBegin i) body := by
  unfold exec
  cases i
  case begin speed address => unfold execBegin; exact ⟨_, rfl⟩
  case getstatus => unfold execGetstatus; exact ⟨_, rfl⟩
  case isrunning => unfold execIsrunning; exact ⟨_, rfl⟩
  case isalarm => unfold execIsalarm; exact ⟨_, rfl⟩
  case istimer => unfold execIstimer; exact ⟨_, rfl⟩
  all_goals exact ⟨_, rfl⟩

/-- An idle block refuses a command only before the first `BEGIN` has completed (R233, U4). -/
theorem exec_refused_of_idle {i : Instr} {s : State} {r : Refusal} (hq : s.seq = .idle)
    (h : exec i s = .refused r) : isBegin i = false ∧ s.begun = false ∧ r = .beforeBegin := by
  obtain ⟨body, hbody⟩ := exec_eq_present i s
  rcases State.present_cases i (!isBegin i) body s with ⟨hrun, _⟩ | ⟨_, hnb, hb, e⟩ | ⟨_, _, e⟩
  · exact absurd hq hrun
  · rw [hbody, e] at h
    cases h
    exact ⟨by simpa using hnb, hb, rfl⟩
  · rw [hbody, e] at h
    cases h

/-- A running block that meets the invariant waits or loops, so its step always has a meaning (log 18). -/
theorem resume_next_of_inv {s : State} (hs : s.Inv) (hq : s.seq ≠ .idle) : ∃ t, resume s = .next t := by
  unfold resume
  by_cases hh : s.hung = true
  · exact ⟨_, if_pos hh⟩
  · rw [if_neg hh]
    rcases hs.between (by simpa using hh) with hidle | ⟨⟨_, hop, _, _⟩, _⟩
    · exact absurd hidle hq
    · rcases hop with hop | hop <;> simp [hop]

/-- Settles O13: of the things a step can be about, only a presented word can be refused. -/
theorem onlyTheHostsWordIsRefused : Obligations.OnlyTheHostsWordIsRefused := by
  intro s r hs hr
  rcases step_cases s with ⟨rest, _, e⟩ | ⟨_, hq, e⟩ | ⟨_, _, e⟩ | ⟨w, rest, hq, hw, hword⟩
  · rw [e] at hr; cases hr
  · obtain ⟨t, ht⟩ := resume_next_of_inv hs hq
    rw [e, ht] at hr; cases hr
  · rw [e] at hr; cases hr
  · refine ⟨w, rest, hw, hq, ?_⟩
    rcases hword with ⟨i, hd, e⟩ | ⟨op, hd, e⟩
    · exact .inr ⟨i, hd, exec_refused_of_idle (s := { s with host := rest }) hq (e.symm.trans hr)⟩
    · rw [e] at hr; cases hr
      exact .inl ⟨op, hd, rfl⟩

/-! ### A call that never returns -/

theorem State.envStep_sameBlock (s : State) : s.SameBlock s.envStep := by
  constructor <;> simp

/-- While a call that never returns is outstanding, only the environment moves (R13 (b)). -/
theorem step_of_hung {s : State} (hh : s.hung = true) (hq : s.seq ≠ .idle) (hreset : s.host.head? ≠ some .reset) :
    step s = .next s.envStep := by
  rcases step_cases s with ⟨rest, hw, _⟩ | ⟨_, _, e⟩ | ⟨hidle, _, _⟩ | ⟨w, rest, hidle, _, _⟩
  · exact absurd (by rw [hw]; rfl) hreset
  · rw [e, resume, if_pos hh]
  · exact absurd hidle hq
  · exact absurd hidle hq

theorem run_succ_of_step {s t : State} (n : Nat) (h : step s = .next t) :
    Host.Core.run core (n + 1) s = Host.Core.run core n t := by
  have hcore : core.step s = .next t := h
  simp only [Host.Core.run, hcore]

/-- Settles O15, by induction on the number of steps. -/
theorem unfinishedCommandStaysUnfinished : Obligations.UnfinishedCommandStaysUnfinished := by
  intro n
  induction n with
  | zero => exact fun s k hh hq _ => ⟨s, rfl, State.SameBlock.rfl' s, hq, hh, rfl⟩
  | succ n ih =>
    intro s k hh hq hreset
    have hstep := step_of_hung hh (by simp [hq]) hreset
    obtain ⟨t, hrun, hsame, hseq, hhung, htrace⟩ :=
      ih s.envStep k (by simpa using hh) (by simpa using hq) (by simpa using hreset)
    exact ⟨t, (run_succ_of_step n hstep).trans hrun, s.envStep_sameBlock.trans hsame, hseq, hhung, by simpa using htrace⟩

/-! ### A command that has not returned yet -/

/-- The command that `s` runs is still running in `t`, and `RES` is as it was (R30 (b), (e)). -/
def State.Underway (s t : State) : Prop := t.seq ≠ .idle ∧ t.res = s.res

/-- The command that `s` runs has completed in `t`, or one of its calls never returns (R13 (a), (b)). -/
def State.Settled (s t : State) : Prop := t.Idle ∨ (t.hung = true ∧ s.Underway t)

theorem Seq.advanceBy_ne_idle {q : Seq} (n : Nat) (h : q ≠ .idle) : q.advanceBy n ≠ .idle := by
  cases q with
  | idle => exact absurd rfl h
  | run k => simp [Seq.advanceBy]

theorem State.Underway.trans {s t u : State} (h : s.Underway t) (g : t.Underway u) : s.Underway u :=
  ⟨g.1, g.2.trans h.2⟩

theorem State.Underway.settled {s t u : State} (h : s.Underway t) (g : t.Settled u) : s.Settled u :=
  g.imp_right fun ⟨hh, hu⟩ => ⟨hh, h.trans hu⟩

theorem State.Stuck.underway {calls : List Event} {k : Nat} {s t : State} (h : s.Stuck calls k t)
    (hq : s.seq ≠ .idle) : s.Underway t :=
  ⟨h.seq ▸ Seq.advanceBy_ne_idle k hq, h.same.res⟩

/-- A step of the block that ends nothing, while the command runs on or waits. -/
theorem State.Underway.live {s t : State} {f : State → State} (h : s.Underway t) (hf : t.Underway (f t)) :
    s.Underway (t.live f) := by
  unfold State.live
  split
  · exact h
  · exact h.trans hf

theorem State.Underway.ret {s t : State} (h : s.Underway t) (v : State → Word) : s.Settled (t.ret v) := by
  by_cases hh : t.hung = true
  · rw [State.ret_hung v t hh]; exact .inr ⟨hh, h⟩
  · have hh' : t.hung = false := by simpa using hh
    rw [State.ret_eq v t hh']; exact .inl ⟨rfl, hh'⟩

/-! ### The bodies that never loop -/

theorem State.memRead_hung (reg : Byte) (n : Nat) (s : State) (hs : s.hung = true) : s.memRead reg n = s := by
  have hclock : s.tSetClock = s := State.transport_hung _ _ _ _ hs
  have hbegin : s.tBegin = s := State.transport_hung _ _ _ _ hs
  have hwrite : s.tWrite reg = s := State.transport_hung _ _ _ _ hs
  have hend : s.tEnd false = s := State.transport_hung _ _ _ _ hs
  have hreq : s.tReq n = s := State.transport_hung _ _ _ _ hs
  rw [State.memRead, hclock, hbegin, hwrite, hend, hreq, State.readAll_hung _ _ _ hs]

theorem State.tInit_underway (s : State) (hs : s.hung = false) (hq : s.seq ≠ .idle) : s.Underway s.tInit := by
  rcases State.tInit_cases s hs with ⟨_, e⟩ | hstuck
  · rw [e]; exact ⟨Seq.advanceBy_ne_idle 1 hq, rfl⟩
  · exact hstuck.underway hq

theorem State.skipInit_underway (s : State) (hq : s.seq ≠ .idle) : s.Underway s.skipInit :=
  State.Underway.live ⟨hq, rfl⟩ ⟨by simpa [Seq.advance_eq] using Seq.advanceBy_ne_idle 1 hq, rfl⟩

theorem State.refreshStatus_underway (s : State) (hq : s.seq ≠ .idle) : s.Underway s.refreshStatus := by
  by_cases hh : s.hung = true
  · rw [State.refreshStatus, State.memRead_hung _ _ _ hh, State.live_hung _ _ hh]; exact ⟨hq, rfl⟩
  · rcases State.refreshStatus_cases s (by simpa using hh) with ⟨_, e⟩ | ⟨k, hstuck⟩
    · rw [e]; exact ⟨Seq.advanceBy_ne_idle 7 hq, rfl⟩
    · exact hstuck.underway hq

theorem State.writeCommand_settled (reg : Byte) (bytes : List Byte) (s : State) (hs : s.hung = false)
    (hq : s.seq ≠ .idle) (hl : bytes.length ≤ 7) : s.Settled (s.writeCommand reg bytes) := by
  rcases State.writeCommand_cases reg bytes s hs hl with ⟨_, e⟩ | ⟨k, hstuck⟩
  · rw [e]; exact .inl ⟨rfl, hs⟩
  · have hload : s.Underway (s.loadWb bytes) := State.Underway.live ⟨hq, rfl⟩ ⟨hq, rfl⟩
    exact .inr ⟨hstuck.hung, hload.trans (hstuck.underway hload.1)⟩

theorem State.readCommand_settled (reg : Byte) (n : Nat) (v : State → Word) (s : State) (hs : s.hung = false)
    (hq : s.seq ≠ .idle) : s.Settled (s.readCommand reg n v) := by
  rcases State.readCommand_cases reg n v s hs with ⟨_, e⟩ | ⟨k, hstuck⟩
  · rw [e]; exact .inl ⟨rfl, hs⟩
  · exact .inr ⟨hstuck.hung, hstuck.underway hq⟩

/-- The status commands (R152 to R155). -/
theorem State.statusCommand_settled (v : State → Word) (s : State) (hq : s.seq ≠ .idle) :
    s.Settled (s.refreshStatus.ret v) :=
  (s.refreshStatus_underway hq).ret v

theorem State.armCommand_settled (flagMask enableMask : Byte) (enable : Bool) (s : State) (hq : s.seq ≠ .idle) :
    s.Settled (s.armCommand flagMask enableMask enable) := by
  have hstatus := s.refreshStatus_underway hq
  rw [State.armCommand]
  generalize s.refreshStatus = t at hstatus
  by_cases hh : t.hung = true
  · rw [State.live_hung _ _ hh]; exact .inr ⟨hh, hstatus⟩
  · have hh' : t.hung = false := by simpa using hh
    rw [State.live_eq _ _ hh']
    split
    · exact State.Underway.settled (t := { t with cs2c := armedCs2 flagMask enableMask enable t.cs2c }) hstatus
        (State.writeCommand_settled _ _ _ hh' hstatus.1 (by simp))
    · exact hstatus.ret _

/-- `BEGIN` (R150): each piece of its body runs on or waits, and then it returns. -/
theorem State.beginBody_settled (speed : BitVec 32) (address : Byte) (v : State → Word) (s : State)
    (hs : s.hung = false) (hq : s.seq ≠ .idle) :
    s.Settled ((((if s.speed = 0#32 then s.tInit else s.skipInit).live
      fun s => { s with addr := address, speed := speed }).refreshStatus.live
        fun s => { s with begun := true }).ret v) := by
  have hinit : s.Underway (if s.speed = 0#32 then s.tInit else s.skipInit) := by
    split
    · exact s.tInit_underway hs hq
    · exact s.skipInit_underway hq
  have hstore := hinit.live (f := fun s => { s with addr := address, speed := speed }) ⟨hinit.1, rfl⟩
  have hstatus := hstore.trans (State.refreshStatus_underway _ hstore.1)
  exact (hstatus.live (f := fun s => { s with begun := true }) ⟨hstatus.1, rfl⟩).ret v

/-! ### The loop of `NOW` and `EPOCH` -/

/-- In `t` the command of `s` goes back to its first call, the date just read kept (R30 (d), R170). -/
structure State.LoopsBack (s t : State) : Prop where
  hung : t.hung = false
  seq : t.seq = .run 0
  prevValid : t.prevValid = true
  op : t.op = s.op
  arg : t.arg = s.arg
  res : t.res = s.res

theorem State.LoopsBack.trans {s t u : State} (h : s.LoopsBack t) (g : t.LoopsBack u) : s.LoopsBack u :=
  ⟨g.hung, g.seq, g.prevValid, g.op.trans h.op, g.arg.trans h.arg, g.res.trans h.res⟩

theorem State.LoopsBack.underway {s t : State} (h : s.LoopsBack t) : s.Underway t := ⟨by simp [h.seq], h.res⟩

/-- The three ways a pass comes out; one that looks for a second date ends the command only with a previous date. -/
theorem State.timePass_outcomes (twice : Bool) (v : State → Word) (s : State) (hs : s.hung = false)
    (hq : s.seq ≠ .idle) :
    ((State.timePass twice v s).Idle ∧ (twice = true → s.prevValid = true)) ∨
    ((State.timePass twice v s).hung = true ∧ s.Underway (State.timePass twice v s)) ∨
    (twice = true ∧ s.LoopsBack (State.timePass twice v s)) := by
  rcases State.timePass_cases twice v s hs with ⟨_, e⟩ | ⟨k, hstuck⟩
  · rw [e, State.settle_eq _ _ _ (show s.afterBurst.hung = false from hs)]
    split
    · next hend =>
      refine .inl ⟨⟨rfl, hs⟩, fun htwice => ?_⟩
      rcases hend with honce | ⟨hprev, _⟩
      · rw [htwice] at honce; cases honce
      · exact hprev
    · next hgo =>
      exact .inr (.inr ⟨by simpa using mt .inl hgo, hs, rfl, rfl, rfl, rfl, rfl⟩)
  · exact .inr (.inl ⟨hstuck.hung, hstuck.underway hq⟩)

/-- The first pass of `NOW 1` never ends the command, so the second starts where it went back to, or the block waits. -/
theorem State.timeCommand_outcomes (twice : Bool) (v : State → Word) (s : State) (hs : s.hung = false)
    (hq : s.seq ≠ .idle) :
    s.Settled (s.timeCommand twice v) ∨ (twice = true ∧ s.LoopsBack (s.timeCommand twice v)) := by
  have hfirst := State.timePass_outcomes twice v { s with prevValid := false } hs hq
  rw [State.timeCommand]
  generalize State.timePass twice v { s with prevValid := false } = t at hfirst
  cases twice with
  | false =>
    rcases hfirst with ⟨hidle, _⟩ | ⟨hh, hu⟩ | ⟨htwice, _⟩
    · exact .inl (.inl hidle)
    · exact .inl (.inr ⟨hh, hu⟩)
    · cases htwice
  | true =>
    rcases hfirst with ⟨_, hprev⟩ | ⟨hh, hu⟩ | ⟨_, hloop⟩
    · cases hprev rfl
    · simp only [if_true, State.timePass_hung _ _ _ hh]
      exact .inl (.inr ⟨hh, hu⟩)
    · have hback : s.LoopsBack t := ⟨hloop.hung, hloop.seq, hloop.prevValid, hloop.op, hloop.arg, hloop.res⟩
      rcases State.timePass_outcomes true v t hloop.hung hback.underway.1 with ⟨hidle, _⟩ | hwait | ⟨_, hagain⟩
      · exact .inl (.inl hidle)
      · exact .inl (hback.underway.settled (.inr hwait))
      · exact .inr ⟨rfl, hback.trans hagain⟩

/-! ### The outcomes of a presented command -/

/-- How a command `i` presented in `s` can come out in `t` (R13). -/
def State.ComesOut (i : Instr) (s t : State) : Prop :=
  t.Idle ∨ (t.hung = true ∧ t.seq ≠ .idle ∧ t.res = s.res) ∨
    (t.hung = false ∧ t.Looping ∧ t.res = s.res ∧ mayLoop i = true)

theorem State.Settled.comesOut {i : Instr} {s t : State} (h : (s.accept i).Settled t) : s.ComesOut i t :=
  h.imp_right .inl

theorem argFlag_flagOperand (b : Bool) : argFlag (flagOperand b) = b := by cases b <;> decide

/-- `NOW` and `EPOCH` (R170, R171), whose operand is the flag. -/
theorem State.timeCommand_comesOut {i : Instr} {twice : Bool} (v : State → Word) (s : State) (hs : s.hung = false)
    (hop : i.opcode = 0x06#8 ∨ i.opcode = 0x07#8) (harg : i.operand = flagOperand twice) (hloop : mayLoop i = twice) :
    s.ComesOut i ((s.accept i).timeCommand twice v) := by
  rcases State.timeCommand_outcomes twice v (s.accept i) hs (by simp) with h | ⟨htwice, hback⟩
  · exact h.comesOut
  · have hflag : argFlag (s.accept i).arg = true := by
      rw [State.accept_arg, harg, argFlag_flagOperand, htwice]
    exact .inr (.inr ⟨hback.hung, ⟨hback.seq, hback.op ▸ hop, hback.arg ▸ hflag, hback.prevValid⟩, hback.res,
      hloop.trans htwice⟩)

/-- An idle block accepts a `BEGIN`, and after one any command, which comes out as its body does (R30 (b), R233). -/
theorem State.present_comesOut {i : Instr} {body : State → State} {s : State} (h : s.Idle)
    (hmay : isBegin i = true ∨ s.begun = true) (hbody : s.ComesOut i (body (s.accept i))) :
    ∃ t, s.present i (!isBegin i) body = .next t ∧ s.ComesOut i t := by
  rcases hmay with hbegin | hbegun
  · rw [hbegin]
    exact ⟨_, State.present_idle i body s h, hbody⟩
  · exact ⟨_, State.present_ready i _ body s ⟨h, hbegun⟩, hbody⟩

/-- Settles O56, by command: each is one write, one read, a status read, an arming command, or the loop of R170. -/
theorem outcomesOfACommand : Obligations.OutcomesOfACommand := by
  intro i s h hmay
  have hh : (s.accept i).hung = false := h.2
  have hq : (s.accept i).seq ≠ .idle := by simp
  cases i with
  | begin speed address =>
    unfold exec execBegin
    exact State.present_comesOut h hmay (State.beginBody_settled speed address _ _ hh hq).comesOut
  | reset => exact State.present_comesOut h hmay (State.writeCommand_settled _ _ _ hh hq (by simp)).comesOut
  | getstatus =>
    unfold exec execGetstatus
    exact State.present_comesOut h hmay (State.statusCommand_settled _ _ hq).comesOut
  | isrunning =>
    unfold exec execIsrunning
    exact State.present_comesOut h hmay (State.statusCommand_settled _ _ hq).comesOut
  | isalarm =>
    unfold exec execIsalarm
    exact State.present_comesOut h hmay (State.statusCommand_settled _ _ hq).comesOut
  | istimer =>
    unfold exec execIstimer
    exact State.present_comesOut h hmay (State.statusCommand_settled _ _ hq).comesOut
  | now twice =>
    exact State.present_comesOut h hmay (State.timeCommand_comesOut _ s h.2 (.inl rfl) rfl (by cases twice <;> rfl))
  | epoch twice =>
    exact State.present_comesOut h hmay (State.timeCommand_comesOut _ s h.2 (.inr rfl) rfl (by cases twice <;> rfl))
  | adjust date time =>
    exact State.present_comesOut h hmay (State.writeCommand_settled _ _ _ hh hq (by simp [encodeBurst])).comesOut
  | adjuste t =>
    exact State.present_comesOut h hmay (State.writeCommand_settled _ _ _ hh hq (by simp [encodeBurst])).comesOut
  | activealarm enable => exact State.present_comesOut h hmay (State.armCommand_settled _ _ _ _ hq).comesOut
  | activetimer enable => exact State.present_comesOut h hmay (State.armCommand_settled _ _ _ _ hq).comesOut
  | setalarm a =>
    exact State.present_comesOut h hmay (State.writeCommand_settled _ _ _ hh hq (by simp [alarmToBytes])).comesOut
  | getalarm => exact State.present_comesOut h hmay (State.readCommand_settled _ _ _ _ hh hq).comesOut
  | settimer v =>
    exact State.present_comesOut h hmay (State.writeCommand_settled _ _ _ hh hq (by simp [timerToBytes])).comesOut
  | gettimer => exact State.present_comesOut h hmay (State.readCommand_settled _ _ _ _ hh hq).comesOut
  | setclockout b => exact State.present_comesOut h hmay (State.writeCommand_settled _ _ _ hh hq (by simp)).comesOut
  | getclockout => exact State.present_comesOut h hmay (State.readCommand_settled _ _ _ _ hh hq).comesOut

end Sys2Proof.Machine
end

section
/-! SUPPORT. The state after reset (10_state.md R48): the values the spec states, and the invariant, which the reset
input (R230) establishes from any block whose chip is in canonical form. -/

namespace Sys2Proof.Machine

/-- Settles O10: each row of R48's table that has a value, read off the state after reset. -/
theorem resetValues : Obligations.ResetValues := by
  unfold Obligations.ResetValues
  exact ⟨rfl, rfl, rfl, rfl, rfl, rfl, rfl, rfl⟩

/-- A block reset forgets the command, the transport calls and the `BEGIN`, so only the chip's own registers, which it
does not touch (R231), have to be in canonical form already. -/
theorem State.blockReset_inv {s : State} (hchip : s.chip.wf) : s.blockReset.Inv where
  chipWf := hchip
  whole _ := rfl
  disciplined := rfl
  between _ := .inl rfl
  waiting hhung := nomatch hhung
  begunInit hbegun := nomatch hbegun
  speedInit hspeed := absurd rfl hspeed
  initFirst _ _ he := absurd he List.not_mem_nil

/-- Resetting the block right after reset changes nothing. -/
theorem State.blockReset_reset : State.reset.blockReset = State.reset := rfl

/-- Settles O11: the state after reset is its own block reset, and nothing is known of the chip's registers in it. -/
theorem invariantHoldsAtReset : Obligations.InvariantHoldsAtReset := by
  unfold Obligations.InvariantHoldsAtReset
  rw [← State.blockReset_reset]
  exact State.blockReset_inv Memory.nil_wf

end Sys2Proof.Machine
end

section
/-! SUPPORT. What the two transactions deliver and store (20_memory.md R59, R60), read off their closed forms. -/

namespace Sys2Proof.Machine

/-! ### A register read -/

/-- Inside the map the register number of byte `i` does not wrap (R62). -/
theorem toNat_reg_add {reg : Byte} {n i : Nat} (hmap : reg.toNat + n ≤ 16) (hi : i < n) :
    (reg + BitVec.ofNat 8 i).toNat = reg.toNat + i := by
  rw [BitVec.toNat_add, BitVec.toNat_ofNat]
  omega

theorem State.afterRead_rb_getElem (reg : Byte) (n : Nat) (s : State) (i : Nat) (h : i < 9) (hi : i < n) :
    (s.afterRead reg n).rb[i] = s.sample reg n i := by
  simp only [State.afterRead_rb, Vector.getElem_ofFn, if_pos hi]

/-- Settles O17: a read all of whose calls return is its closed form, whose register numbers stay inside the map. -/
theorem registerReadDeliversRegisters : Obligations.RegisterReadDeliversRegisters := by
  intro reg n s _ hmap hs hr
  rw [State.memRead_eq reg n s hs hr]
  refine ⟨rfl, fun i h hi => ?_⟩
  rw [State.afterRead_rb_getElem reg n s i h hi, State.sample, toNat_reg_add hmap hi]

/-! ### A register write -/

theorem landed_length_le (m : EnvMove) (data : List Byte) : (landed m data).length ≤ data.length := by
  unfold landed
  split <;> simp

/-- Data byte `k` landed if the transfer succeeded or the chip took more than `k` bytes (R59, U2). -/
theorem landed_getElem? (m : EnvMove) (data : List Byte) (k : Nat) :
    (landed m data)[k]? = if m.code = 0#8 ∨ k < m.took then data[k]? else none := by
  by_cases hcode : m.code = 0#8
  · simp [landed, hcode]
  · simp [landed, hcode, List.getElem?_take]

/-- A register reads as before after a store of the bytes that landed, unless one of them is its own. -/
theorem Memory.read_store_landed (m : EnvMove) (data : List Byte) (c : Memory) (reg a : Nat) (h : c.wf)
    (hmap : reg + data.length ≤ Memory.size) :
    (c.store reg (landed m data)).read a =
      if reg ≤ a ∧ a < reg + data.length ∧ (m.code = 0#8 ∨ a - reg < m.took) then data[a - reg]? else c.read a := by
  have hle := landed_length_le m data
  rw [Memory.read_store _ _ _ _ h (by omega)]
  have hmem : (reg ≤ a ∧ a < reg + (landed m data).length) ↔
      (reg ≤ a ∧ a < reg + data.length ∧ (m.code = 0#8 ∨ a - reg < m.took)) := by
    unfold landed
    split
    · next hcode => simp [hcode]
    · next hcode => simp only [List.length_take, hcode, false_or]; omega
  by_cases hin : reg ≤ a ∧ a < reg + data.length ∧ (m.code = 0#8 ∨ a - reg < m.took)
  · rw [if_pos (hmem.2 hin), if_pos hin, landed_getElem?, if_pos hin.2.2]
  · rw [if_neg (mt hmem.1 hin), if_neg hin]

/-- On a chip that does not tick, only the bytes of the transfer change the chip's registers. -/
theorem State.writtenChip_quiet (reg : Byte) (bytes : List Byte) (s : State) (hq : s.Quiet (bytes.length + 4)) :
    s.writtenChip reg bytes = s.chip.store reg.toNat (landed (s.moveAt (bytes.length + 3)) bytes) := by
  rw [State.writtenChip, State.tickedChip_quiet s _ hq _ (by omega), hq _ (by omega), Memory.tick_nil]

theorem State.afterWrite_writeOk (reg : Byte) (bytes : List Byte) (s : State) :
    (s.afterWrite reg bytes).writeOk =
      if (s.moveAt (bytes.length + 3)).code = 0#8 then 1#64 else 0#64 := by
  by_cases h : (s.moveAt (bytes.length + 3)).code = 0#8
  · simp [State.writeOk, boolResult, h]
  · simp [State.writeOk, boolResult, beq_eq_false_iff_ne.mpr h, h]

/-- Settles O18: a write all of whose calls return is its closed form, and a quiet chip takes only the bytes that
landed. -/
theorem registerWriteStoresBytes : Obligations.RegisterWriteStoresBytes := by
  intro reg bytes s hl hmap hs hwf hr hq
  rw [State.memWrite_eq reg bytes s hs hl hr]
  refine ⟨rfl, State.afterWrite_writeOk reg bytes s, fun a => ?_⟩
  rw [State.afterWrite_chip, State.writtenChip_quiet reg bytes s hq,
    Memory.read_store_landed _ _ _ _ _ hwf hmap]

end Sys2Proof.Machine
end

section
/-! SUPPORT. The discipline of the transport calls (20_memory.md R57): each transaction is whole, in turn and inside the
register map, and what it was cut off in is in turn. -/

namespace Sys2Proof.Machine

/-! ### Runs of calls -/

theorem BusPhase.run_cons (p : BusPhase) (e : Event) (es : List Event) :
    p.run (e :: es) = (p.next e.call).bind fun q => q.run es := by
  rw [BusPhase.run]
  cases p.next e.call <;> rfl

theorem BusPhase.run_append (p : BusPhase) (es fs : List Event) :
    p.run (es ++ fs) = (p.run es).bind fun q => q.run fs := by
  induction es generalizing p with
  | nil => rfl
  | cons e es ih =>
    rw [List.cons_append, BusPhase.run_cons, BusPhase.run_cons]
    cases p.next e.call with
    | none => rfl
    | some q => exact ih q

/-- The phase after a call does not depend on what the environment answered. -/
theorem BusPhase.run_concat_congr (p : BusPhase) (es : List Event) {e f : Event} (h : e.call = f.call) :
    p.run (es ++ [e]) = p.run (es ++ [f]) := by
  simp only [BusPhase.run_append, BusPhase.run_cons, h]

/-- What comes before calls made in turn was made in turn. -/
theorem BusPhase.run_isSome_of_append {p : BusPhase} {es fs : List Event} (h : (p.run (es ++ fs)).isSome = true) :
    (p.run es).isSome = true := by
  rw [BusPhase.run_append] at h
  cases hes : p.run es with
  | none => rw [hes] at h; exact h
  | some q => rfl

/-! ### The transactions -/

/-- `k` bytes sent and `bs` still to send, all inside the map (R59, R62). -/
theorem BusPhase.run_writes (reg : Byte) (bs : List Byte) (k : Nat) (h : reg.toNat + k + bs.length ≤ Memory.size) :
    (BusPhase.addressed reg k).run (bs.map fun b => ⟨.write b, .done⟩) = some (.addressed reg (k + bs.length)) := by
  induction bs generalizing k with
  | nil => rfl
  | cons b bs ih =>
    rw [List.length_cons] at h
    have hin : reg.toNat + k < Memory.size := by omega
    rw [List.map_cons, BusPhase.run_cons, BusPhase.next, if_pos hin, List.length_cons, Nat.add_comm bs.length,
      ← Nat.add_assoc]
    exact ih (k + 1) (by omega)

/-- The last of the requested reads ends the transaction (R60). -/
theorem BusPhase.run_reads (data : List Byte) (h : data ≠ []) :
    (BusPhase.fetching data.length).run (data.map fun b => ⟨.read, .value b⟩) = some .free := by
  induction data with
  | nil => exact absurd rfl h
  | cons b data ih =>
    cases data with
    | nil => rfl
    | cons c data => exact ih (List.cons_ne_nil c data)

/-- A register read inside the map is one whole transaction (R60, R62). -/
theorem State.run_readTrace (reg : Byte) (n : Nat) (s : State) (h1 : 1 ≤ n) (hmap : reg.toNat + n ≤ Memory.size) :
    BusPhase.free.run (s.readTrace reg n) = some .free := by
  have hrequest : (BusPhase.turned reg).run [⟨.request s.addr n, .value (s.moveAt 4).code⟩] = some (.fetching n) := by
    rw [BusPhase.run_cons, BusPhase.next, if_pos ⟨h1, hmap⟩]; rfl
  have hreads := BusPhase.run_reads ((List.range n).map (s.sample reg n)) (by simpa using Nat.ne_of_gt h1)
  rw [List.length_map, List.length_range, List.map_map] at hreads
  calc BusPhase.free.run (s.readTrace reg n)
      = (BusPhase.turned reg).run ([⟨.request s.addr n, .value (s.moveAt 4).code⟩] ++
          (List.range n).map fun i => ⟨.read, .value (s.sample reg n i)⟩) := rfl
    _ = (BusPhase.fetching n).run ((List.range n).map fun i => ⟨.read, .value (s.sample reg n i)⟩) := by
        rw [BusPhase.run_append, hrequest]; rfl
    _ = some .free := hreads

/-- A register write of at least one byte inside the map is one whole transaction (R59, R62). -/
theorem State.run_writeTrace (reg : Byte) (bytes : List Byte) (s : State) (h1 : 1 ≤ bytes.length)
    (hmap : reg.toNat + bytes.length ≤ Memory.size) :
    BusPhase.free.run (s.writeTrace reg bytes) = some .free := by
  have haddress : BusPhase.free.run [⟨.setClock s.speed, .done⟩, ⟨.beginTx s.addr, .done⟩, ⟨.write reg, .done⟩] =
      some (.addressed reg 0) := rfl
  obtain ⟨m, hm⟩ : ∃ m, 0 + bytes.length = m + 1 := ⟨bytes.length - 1, by omega⟩
  rw [State.writeTrace, List.append_assoc, BusPhase.run_append, haddress, Option.bind_some, BusPhase.run_append,
    BusPhase.run_writes reg bytes 0 (by omega), hm]
  rfl

end Sys2Proof.Machine
end

section
/-! SUPPORT. What the block does on the bus, said once for a piece of a command and put together for the whole one:
which calls it makes and that they are in turn (20_memory.md R50 to R57), that the chip's registers stay in canonical
form, and which of them it may store to (R66). -/

namespace Sys2Proof.Machine

/-! ### Calls on the bus -/

/-- Register `a` is one of `regs`: first address and how many. -/
abbrev InRegs (regs : Nat × Nat) (a : Nat) : Prop := regs.1 ≤ a ∧ a < regs.1 + regs.2

/-- What the block does from `s` to `t` in at most `n` transport calls. A call that never returns (`hung`) is the last
one: it may cut a transaction off, and nothing is done after it. -/
structure State.Drives (allow : Call → Prop) (regs : Nat × Nat) (n : Nat) (s t : State) : Prop where
  /-- The calls are allowed, and whole transactions unless the last one never returned. -/
  calls : ∃ es, t.trace = s.trace ++ es ∧ (∀ e ∈ es, allow e.call) ∧ (BusPhase.free.run es).isSome = true ∧
    (t.hung = false → BusPhase.free.run es = some .free)
  chipWf : s.chip.wf → t.chip.wf
  /-- The block stores to `regs` only. -/
  spares : s.chip.wf → s.Quiet n → ∀ a, ¬ InRegs regs a → t.chip.read a = s.chip.read a
  /-- At most `n` moves are used up. -/
  quiet : t.hung = false → ∀ m, s.Quiet (n + m) → t.Quiet m
  waits : s.hung = true → t.hung = true ∧ t.trace = s.trace ∧ t.chip = s.chip

theorem State.Quiet.mono {s : State} {n m : Nat} (h : s.Quiet n) (hm : m ≤ n) : s.Quiet m :=
  fun k hk => h k (by omega)

/-- Nothing is done on the bus. -/
theorem State.Drives.of_eq {allow : Call → Prop} {regs : Nat × Nat} {s t : State} (htrace : t.trace = s.trace)
    (hchip : t.chip = s.chip) (hhung : t.hung = s.hung) (hmoves : t.moves = s.moves)
    (hfree : t.freeMoves = s.freeMoves) : s.Drives allow regs 0 t where
  calls := ⟨[], by simp [htrace], by simp, rfl, fun _ => rfl⟩
  chipWf := hchip ▸ id
  spares _ _ _ _ := by rw [hchip]
  quiet _ m h k hk := by rw [State.moveAt_congr hmoves hfree]; exact h k (by omega)
  waits h := ⟨hhung.trans h, htrace, hchip⟩

theorem State.Drives.refl {allow : Call → Prop} {regs : Nat × Nat} (s : State) : s.Drives allow regs 0 s :=
  .of_eq rfl rfl rfl rfl rfl

/-- More calls may be allowed, more moves used and more registers stored to than are. -/
theorem State.Drives.mono {allow allow' : Call → Prop} {regs regs' : Nat × Nat} {n n' : Nat} {s t : State}
    (h : s.Drives allow regs n t) (hallow : ∀ c, allow c → allow' c) (hregs : ∀ a, InRegs regs a → InRegs regs' a)
    (hn : n ≤ n') : s.Drives allow' regs' n' t where
  calls := by
    obtain ⟨es, htrace, hes, hphase⟩ := h.calls
    exact ⟨es, htrace, fun e he => hallow _ (hes e he), hphase⟩
  chipWf := h.chipWf
  spares hwf hq a ha := h.spares hwf (hq.mono hn) a (mt (hregs a) ha)
  quiet hh m hq := h.quiet hh m (hq.mono (by omega))
  waits := h.waits

/-- One piece after another; nothing follows a call that never returns. -/
theorem State.Drives.trans {allow : Call → Prop} {regs : Nat × Nat} {n m : Nat} {s t u : State}
    (h : s.Drives allow regs n t) (g : t.Drives allow regs m u) : s.Drives allow regs (n + m) u := by
  have hwaits : s.hung = true → u.hung = true ∧ u.trace = s.trace ∧ u.chip = s.chip := fun hs => by
    obtain ⟨ht, htrace, hchip⟩ := h.waits hs
    obtain ⟨hu, hutrace, huchip⟩ := g.waits ht
    exact ⟨hu, hutrace.trans htrace, huchip.trans hchip⟩
  obtain ⟨es, htrace, hallow, hsome, hwhole⟩ := h.calls
  by_cases ht : t.hung = true
  · obtain ⟨hu, hutrace, hchip⟩ := g.waits ht
    exact
      { calls := ⟨es, hutrace.trans htrace, hallow, hsome, fun hu' => absurd hu (by simp [hu'])⟩
        chipWf := fun hwf => hchip ▸ h.chipWf hwf
        spares := fun hwf hq a ha => by rw [hchip]; exact h.spares hwf (hq.mono (by omega)) a ha
        quiet := fun hu' => absurd hu (by simp [hu'])
        waits := hwaits }
  · have ht' : t.hung = false := by simpa using ht
    obtain ⟨fs, hutrace, hallow', hsome', hwhole'⟩ := g.calls
    have hrun : BusPhase.free.run (es ++ fs) = BusPhase.free.run fs := by
      rw [BusPhase.run_append, hwhole ht', Option.bind_some]
    exact
      { calls := ⟨es ++ fs, by rw [hutrace, htrace, List.append_assoc],
          fun e he => (List.mem_append.1 he).elim (hallow e) (hallow' e), by rw [hrun]; exact hsome',
          fun hu => hrun.trans (hwhole' hu)⟩
        chipWf := fun hwf => g.chipWf (h.chipWf hwf)
        spares := fun hwf hq a ha => (g.spares (h.chipWf hwf) (h.quiet ht' m hq) a ha).trans
          (h.spares hwf (hq.mono (by omega)) a ha)
        quiet := fun hu k hq => g.quiet hu k (h.quiet ht' (m + k) (by rwa [← Nat.add_assoc]))
        waits := hwaits }

theorem State.Drives.live {allow : Call → Prop} {regs : Nat × Nat} {s : State} {f : State → State}
    (h : s.Drives allow regs 0 (f s)) : s.Drives allow regs 0 (s.live f) := by
  unfold State.live
  split
  · exact .refl s
  · exact h

/-- A transaction that is cut off: the calls up to the one that never returns (R13 (b)). -/
theorem State.Stuck.drives {allow : Call → Prop} {regs : Nat × Nat} {calls : List Event} {k : Nat} {s t : State}
    (h : s.Stuck calls k t) (hs : s.hung = false) (hallow : ∀ e ∈ calls, allow e.call)
    (hwhole : BusPhase.free.run calls = some .free) : s.Drives allow regs calls.length t where
  calls := by
    obtain ⟨e, hget, htrace⟩ := h.trace
    have htake : calls.take (k + 1) = calls.take k ++ [e] := by rw [List.take_add_one, hget]; rfl
    have hsome : (BusPhase.free.run (calls.take (k + 1))).isSome = true :=
      BusPhase.run_isSome_of_append (fs := calls.drop (k + 1)) (by rw [List.take_append_drop, hwhole]; rfl)
    refine ⟨calls.take k ++ [⟨e.call, .never⟩], by rw [htrace, List.append_assoc], fun f hf => ?_, ?_, ?_⟩
    · rcases List.mem_append.1 hf with hf | hf
      · exact hallow f (List.mem_of_mem_take hf)
      · rw [List.mem_singleton.1 hf]; exact hallow e (List.mem_of_getElem? hget)
    · rwa [BusPhase.run_concat_congr (f := e) _ _ (by rfl), ← htake]
    · exact fun ht => absurd h.hung (by simp [ht])
  chipWf hwf := h.chip ▸ State.tickedChip_wf s hwf _
  spares _ hq a _ := by rw [h.chip, State.tickedChip_quiet s _ hq _ h.early]
  quiet ht := absurd h.hung (by simp [ht])
  waits hs' := absurd hs' (by simp [hs])

/-- All calls of a transaction returned. -/
theorem State.Drives.of_returned {allow : Call → Prop} {regs : Nat × Nat} {calls : List Event} {n : Nat} {s t : State}
    (hs : s.hung = false) (htrace : t.trace = s.trace ++ calls) (hallow : ∀ e ∈ calls, allow e.call)
    (hwhole : BusPhase.free.run calls = some .free) (hchipWf : s.chip.wf → t.chip.wf)
    (hspares : s.chip.wf → s.Quiet n → ∀ a, ¬ InRegs regs a → t.chip.read a = s.chip.read a)
    (hmoves : t.moves = s.moves.drop n) (hfree : t.freeMoves = s.freeMoves + (n - s.moves.length)) :
    s.Drives allow regs n t where
  calls := ⟨calls, htrace, hallow, by rw [hwhole]; rfl, fun _ => hwhole⟩
  chipWf := hchipWf
  spares := hspares
  quiet _ _ hq := hq.shift hmoves hfree
  waits hs' := absurd hs' (by simp [hs])

/-! ### Transactions of a block that is set up -/

/-- Speed and address, and whether the transport is initialised and a `BEGIN` has completed. -/
structure State.SameSetup (s t : State) : Prop where
  addr : t.addr = s.addr
  speed : t.speed = s.speed
  busInit : t.busInit = s.busInit
  begun : t.begun = s.begun

theorem State.SameSetup.refl (s : State) : s.SameSetup s := ⟨rfl, rfl, rfl, rfl⟩

theorem State.SameSetup.trans {s t u : State} (h : s.SameSetup t) (g : t.SameSetup u) : s.SameSetup u :=
  ⟨g.addr.trans h.addr, g.speed.trans h.speed, g.busInit.trans h.busInit, g.begun.trans h.begun⟩

theorem State.SameBlock.sameSetup {s t : State} (h : s.SameBlock t) : s.SameSetup t :=
  ⟨h.addr, h.speed, h.busInit, h.begun⟩

/-- The calls of a transaction for this speed, address and byte counts (R51, R52, R55); `T_INIT()` is none of them. -/
def Call.Fits (speed : BitVec 32) (addr : Byte) (counts : List Nat) : Call → Prop
  | .init => False
  | .setClock f => f = speed
  | .beginTx a => a = addr
  | .request a n => a = addr ∧ n ∈ counts
  | .write _ => True
  | .endTx _ => True
  | .read => True

theorem Call.Fits.mono {speed : BitVec 32} {addr : Byte} {counts counts' : List Nat} (hsub : counts ⊆ counts')
    (c : Call) (h : c.Fits speed addr counts) : c.Fits speed addr counts' := by
  cases c with
  | request a n => exact ⟨h.1, hsub h.2⟩
  | _ => exact h

theorem State.readTrace_fits (counts : List Nat) (reg : Byte) (n : Nat) (s : State) (hn : n ∈ counts) :
    ∀ e ∈ s.readTrace reg n, e.call.Fits s.speed s.addr counts := by
  simp [State.readTrace, Call.Fits, hn]

theorem State.writeTrace_fits (counts : List Nat) (reg : Byte) (bytes : List Byte) (s : State) :
    ∀ e ∈ s.writeTrace reg bytes, e.call.Fits s.speed s.addr counts := by
  simp only [State.writeTrace, List.forall_mem_append, List.forall_mem_map]
  simp [Call.Fits]

/-- From `s` to `t` the block makes transactions only, with its speed and address, which it keeps. -/
structure State.Transacts (counts : List Nat) (regs : Nat × Nat) (n : Nat) (s t : State) : Prop where
  setup : s.SameSetup t
  drives : s.Drives (Call.Fits s.speed s.addr counts) regs n t

variable {counts : List Nat} {regs : Nat × Nat}

theorem State.Transacts.trans {n m : Nat} {s t u : State} (h : s.Transacts counts regs n t)
    (g : t.Transacts counts regs m u) : s.Transacts counts regs (n + m) u := by
  have hdrives := g.drives
  rw [h.setup.speed, h.setup.addr] at hdrives
  exact ⟨h.setup.trans g.setup, h.drives.trans hdrives⟩

theorem State.Transacts.mono {counts' : List Nat} {n n' : Nat} {s t : State} (h : s.Transacts counts regs n t)
    (hsub : counts ⊆ counts') (hn : n ≤ n') : s.Transacts counts' regs n' t :=
  ⟨h.setup, h.drives.mono (Call.Fits.mono hsub) (fun _ => id) hn⟩

theorem State.Transacts.refl (s : State) : s.Transacts counts regs 0 s := ⟨.refl s, .refl s⟩

theorem State.Transacts.live {n : Nat} {s t : State} {f : State → State} (h : s.Transacts counts regs n t)
    (hf : t.hung = false → t.Transacts counts regs 0 (f t)) : s.Transacts counts regs n (t.live f) := by
  unfold State.live
  split
  · exact h
  · next hh => exact h.trans (hf (by simpa using hh))

theorem State.Transacts.ret {n : Nat} {s t : State} (h : s.Transacts counts regs n t) (v : State → Word) :
    s.Transacts counts regs n (t.ret v) :=
  h.live fun _ => ⟨⟨rfl, rfl, rfl, rfl⟩, .of_eq rfl rfl rfl rfl rfl⟩

theorem State.accept_transacts (i : Instr) (s : State) : s.Transacts counts regs 0 (s.accept i) :=
  ⟨⟨rfl, rfl, rfl, rfl⟩, .of_eq rfl rfl rfl rfl rfl⟩

theorem State.loadWb_transacts (bytes : List Byte) (s : State) : s.Transacts counts regs 0 (s.loadWb bytes) :=
  (State.Transacts.refl s).live fun _ => ⟨⟨rfl, rfl, rfl, rfl⟩, .of_eq rfl rfl rfl rfl rfl⟩

/-! ### One read, one write -/

theorem State.readTrace_length (reg : Byte) (n : Nat) (s : State) : (s.readTrace reg n).length = 5 + n := by
  simp [State.readTrace]; omega

theorem State.writeTrace_length (reg : Byte) (bytes : List Byte) (s : State) :
    (s.writeTrace reg bytes).length = bytes.length + 4 := by
  simp [State.writeTrace]

/-- A register read inside the map (R60, R61) stores nothing. -/
theorem State.memRead_transacts {reg : Byte} {n : Nat} (s : State) (hn : n ∈ counts) (h1 : 1 ≤ n)
    (hmap : reg.toNat + n ≤ Memory.size) : s.Transacts counts regs (5 + n) (s.memRead reg n) := by
  by_cases hh : s.hung = true
  · rw [State.memRead_hung _ _ _ hh]
    exact (State.Transacts.refl s).mono (List.Subset.refl _) (by omega)
  · have hs : s.hung = false := by simpa using hh
    have hfits := s.readTrace_fits counts reg n hn
    have hwhole := s.run_readTrace reg n h1 hmap
    rcases State.memRead_cases reg n s hs with ⟨_, e⟩ | ⟨k, hstuck⟩
    · rw [e]
      exact ⟨⟨rfl, rfl, rfl, rfl⟩, .of_returned hs rfl hfits hwhole (fun hwf => State.tickedChip_wf s hwf _)
        (fun _ hq a _ => by rw [State.afterRead_chip, State.tickedChip_quiet s _ hq _ (Nat.le_refl _)]) rfl rfl⟩
    · exact ⟨hstuck.same.sameSetup, s.readTrace_length reg n ▸ hstuck.drives hs hfits hwhole⟩

theorem State.writtenChip_wf (reg : Byte) (bytes : List Byte) (s : State) (h : s.chip.wf) :
    (s.writtenChip reg bytes).wf :=
  Memory.tick_wf _ _ (Memory.store_wf _ _ _ (State.tickedChip_wf s h _))

/-- A write on a chip that does not tick changes its own registers only. -/
theorem State.writtenChip_read_outside {reg : Byte} {bytes : List Byte} {s : State} {a : Nat} (hwf : s.chip.wf)
    (hmap : reg.toNat + bytes.length ≤ Memory.size) (hq : s.Quiet (bytes.length + 4))
    (ha : ¬ InRegs (reg.toNat, bytes.length) a) : (s.writtenChip reg bytes).read a = s.chip.read a := by
  rw [State.writtenChip_quiet reg bytes s hq, Memory.read_store_landed _ _ _ _ _ hwf hmap,
    if_neg fun h => ha ⟨h.1, h.2.1⟩]

theorem State.memWrite_hung (reg : Byte) (n : Nat) (s : State) (hs : s.hung = true) : s.memWrite reg n = s := by
  have hclock : s.tSetClock = s := State.transport_hung _ _ _ _ hs
  have hbegin : s.tBegin = s := State.transport_hung _ _ _ _ hs
  have hwrite : s.tWrite reg = s := State.transport_hung _ _ _ _ hs
  have hend : s.tEnd true = s := State.transport_hung _ _ _ _ hs
  rw [State.memWrite, hclock, hbegin, hwrite, State.writeAll_hung _ _ hs, hend]

/-- A register write of one to seven bytes inside the map (R59, R61) stores to their registers only. -/
theorem State.memWrite_transacts {reg : Byte} {bytes : List Byte} (s : State) (h1 : 1 ≤ bytes.length)
    (h7 : bytes.length ≤ 7) (hmap : reg.toNat + bytes.length ≤ Memory.size) :
    s.Transacts counts (reg.toNat, bytes.length) (bytes.length + 4)
      ((s.loadWb bytes).memWrite reg bytes.length) := by
  by_cases hh : s.hung = true
  · rw [State.loadWb, State.live_hung _ _ hh, State.memWrite_hung _ _ _ hh]
    exact (State.Transacts.refl s).mono (List.Subset.refl _) (by omega)
  · have hs : s.hung = false := by simpa using hh
    have hfits := s.writeTrace_fits counts reg bytes
    have hwhole := s.run_writeTrace reg bytes h1 hmap
    rcases State.memWrite_cases reg bytes s hs h7 with ⟨_, e⟩ | ⟨k, hstuck⟩
    · rw [e]
      exact ⟨⟨rfl, rfl, rfl, rfl⟩, .of_returned hs rfl hfits hwhole (fun hwf => s.writtenChip_wf reg bytes hwf)
        (fun hwf hq a ha => State.writtenChip_read_outside hwf hmap hq ha) rfl rfl⟩
    · have hload : s.Transacts counts (reg.toNat, bytes.length) 0 (s.loadWb bytes) := s.loadWb_transacts bytes
      have hhung : (s.loadWb bytes).hung = false := by rw [State.loadWb, State.live_eq _ _ hs]; exact hs
      refine ⟨hload.setup.trans hstuck.same.sameSetup, (hload.drives.trans (hstuck.drives hhung hfits hwhole)).mono
        (fun _ => id) (fun _ => id) ?_⟩
      rw [State.writeTrace_length, Nat.zero_add]

/-! ### The bodies of commands -/

theorem State.writeCommand_transacts {reg : Byte} {bytes : List Byte} {n : Nat} (s : State) (hlen : bytes.length = n)
    (h1 : 1 ≤ n) (h7 : n ≤ 7) (hmap : reg.toNat + n ≤ Memory.size) :
    s.Transacts counts (reg.toNat, n) (n + 4) (s.writeCommand reg bytes) := by
  subst hlen
  exact (s.memWrite_transacts h1 h7 hmap).ret _

theorem State.readCommand_transacts {reg : Byte} {n : Nat} (v : State → Word) (s : State) (hn : n ∈ counts) (h1 : 1 ≤ n)
    (hmap : reg.toNat + n ≤ Memory.size) : s.Transacts counts regs (5 + n) (s.readCommand reg n v) :=
  (s.memRead_transacts hn h1 hmap).ret v

theorem State.refreshStatus_transacts (s : State) (hn : 2 ∈ counts) : s.Transacts counts regs 7 s.refreshStatus :=
  (s.memRead_transacts hn (by decide) (by decide)).live fun _ => ⟨⟨rfl, rfl, rfl, rfl⟩, .of_eq rfl rfl rfl rfl rfl⟩

/-- The arming commands (R190, R191): a status read, and on a running chip one byte to CS2. -/
theorem State.armCommand_transacts (flagMask enableMask : Byte) (enable : Bool) (s : State) (hn : 2 ∈ counts) :
    s.Transacts counts (Config.regCs2.toNat, 1) 12 (s.armCommand flagMask enableMask enable) := by
  have hstatus : s.Transacts counts (Config.regCs2.toNat, 1) 7 s.refreshStatus := s.refreshStatus_transacts hn
  rw [State.armCommand]
  generalize s.refreshStatus = t at hstatus
  by_cases hh : t.hung = true
  · rw [State.live_hung _ _ hh]
    exact hstatus.mono (List.Subset.refl _) (by decide)
  · rw [State.live_eq _ _ (by simpa using hh)]
    split
    · have hcache : t.Transacts counts (Config.regCs2.toNat, 1) 0
          { t with cs2c := armedCs2 flagMask enableMask enable t.cs2c } :=
        ⟨⟨rfl, rfl, rfl, rfl⟩, .of_eq rfl rfl rfl rfl rfl⟩
      exact (hstatus.trans hcache).trans (State.writeCommand_transacts _ rfl (by decide) (by decide) (by decide))
    · exact (hstatus.ret _).mono (List.Subset.refl _) (by decide)

theorem State.takeBurst_transacts (s : State) : s.Transacts counts regs 0 s.takeBurst :=
  ⟨⟨rfl, rfl, rfl, rfl⟩, .of_eq rfl rfl rfl rfl rfl⟩

/-- What R170 does with a decoded read is no matter of the bus. -/
theorem State.settle_transacts (twice : Bool) (v : State → Word) (s : State) :
    s.Transacts counts regs 0 (s.settle twice v) := by
  unfold State.settle
  split
  · exact (State.Transacts.refl s).ret v
  · exact ⟨⟨rfl, rfl, rfl, rfl⟩, .of_eq rfl rfl rfl rfl rfl⟩

/-- One pass of the loop of R170: one read of nine bytes. -/
theorem State.timePass_transacts (twice : Bool) (v : State → Word) (s : State) (hn : 9 ∈ counts) :
    s.Transacts counts regs 14 (State.timePass twice v s) :=
  (s.memRead_transacts hn (by decide) (by decide)).live fun _ =>
    (State.takeBurst_transacts _).trans (State.settle_transacts twice v _)

/-- `NOW` and `EPOCH` (R170, R171) up to their second pass. -/
theorem State.timeCommand_transacts (twice : Bool) (v : State → Word) (s : State) (hn : 9 ∈ counts) :
    s.Transacts counts regs 28 (s.timeCommand twice v) := by
  have hclear : s.Transacts counts regs 0 { s with prevValid := false } :=
    ⟨⟨rfl, rfl, rfl, rfl⟩, .of_eq rfl rfl rfl rfl rfl⟩
  have hfirst := hclear.trans (State.timePass_transacts twice v _ hn)
  rw [State.timeCommand]
  split
  · exact hfirst.trans (State.timePass_transacts twice v _ hn)
  · exact hfirst.mono (List.Subset.refl _) (by decide)

/-! ### Commands -/

theorem State.present_next {i : Instr} {nb : Bool} {body : State → State} {s t : State}
    (h : s.present i nb body = .next t) :
    s.seq = .idle ∧ (nb = true → s.begun = true) ∧ t = body (s.accept i) := by
  rcases State.present_cases i nb body s with ⟨_, e⟩ | ⟨_, _, _, e⟩ | ⟨hq, hb, e⟩
  · rw [e] at h; cases h
  · rw [e] at h; cases h
  · rw [e] at h; cases h; exact ⟨hq, hb, rfl⟩

theorem State.Transacts.of_present {i : Instr} {nb : Bool} {body : State → State} {n : Nat} {s t : State}
    (h : s.present i nb body = .next t) (hbody : (s.accept i).Transacts [1, 2, 4, 9] regs n (body (s.accept i)))
    (hn : n ≤ 28) : s.Transacts [1, 2, 4, 9] regs 28 t := by
  obtain ⟨_, _, rfl⟩ := State.present_next h
  exact ((s.accept_transacts i).trans hbody).mono (List.Subset.refl _) (by omega)

/-- Every command but `BEGIN` makes transactions only, of the byte counts of R55, and stores to the registers R66 gives
it. -/
theorem exec_transacts {i : Instr} {s t : State} (hi : isBegin i = false) (h : exec i s = .next t) :
    s.Transacts [1, 2, 4, 9] (storeRange i) 28 t := by
  cases i with
  | begin speed address => cases hi
  | reset =>
    exact .of_present h (State.writeCommand_transacts _ rfl (by decide) (by decide) (by decide)) (by decide)
  | getstatus =>
    unfold exec execGetstatus at h
    exact .of_present h ((State.refreshStatus_transacts _ (by decide)).ret _) (by decide)
  | isrunning =>
    unfold exec execIsrunning at h
    exact .of_present h ((State.refreshStatus_transacts _ (by decide)).ret _) (by decide)
  | isalarm =>
    unfold exec execIsalarm at h
    exact .of_present h ((State.refreshStatus_transacts _ (by decide)).ret _) (by decide)
  | istimer =>
    unfold exec execIstimer at h
    exact .of_present h ((State.refreshStatus_transacts _ (by decide)).ret _) (by decide)
  | now twice => exact .of_present h (State.timeCommand_transacts _ _ _ (by decide)) (by decide)
  | epoch twice => exact .of_present h (State.timeCommand_transacts _ _ _ (by decide)) (by decide)
  | adjust date time =>
    exact .of_present h (State.writeCommand_transacts _ rfl (by decide) (by decide) (by decide)) (by decide)
  | adjuste t =>
    exact .of_present h (State.writeCommand_transacts _ rfl (by decide) (by decide) (by decide)) (by decide)
  | activealarm enable => exact .of_present h (State.armCommand_transacts _ _ _ _ (by decide)) (by decide)
  | activetimer enable => exact .of_present h (State.armCommand_transacts _ _ _ _ (by decide)) (by decide)
  | setalarm a =>
    exact .of_present h (State.writeCommand_transacts _ rfl (by decide) (by decide) (by decide)) (by decide)
  | getalarm =>
    exact .of_present h (State.readCommand_transacts _ _ (by decide) (by decide) (by decide)) (by decide)
  | settimer v =>
    exact .of_present h (State.writeCommand_transacts _ rfl (by decide) (by decide) (by decide)) (by decide)
  | gettimer =>
    exact .of_present h (State.readCommand_transacts _ _ (by decide) (by decide) (by decide)) (by decide)
  | setclockout b =>
    exact .of_present h (State.writeCommand_transacts _ rfl (by decide) (by decide) (by decide)) (by decide)
  | getclockout =>
    exact .of_present h (State.readCommand_transacts _ _ (by decide) (by decide) (by decide)) (by decide)

end Sys2Proof.Machine
end

section
/-! SUPPORT. The discipline of the bus over whole steps: the frame of a command on the chip (20_memory.md R66), the
arguments of its transport calls (R50 to R55), and the invariant that every step keeps. -/

namespace Sys2Proof.Machine

/-! ### `BEGIN` -/

/-- The first part of `BEGIN` (R150): `T_INIT()` where `SPEED` is 0, then speed and address stored. -/
def State.setUp (speed : BitVec 32) (address : Byte) (s : State) : State :=
  (if s.speed = 0#32 then s.tInit else s.skipInit).live fun s => { s with addr := address, speed := speed }

/-- The second part of `BEGIN` (R150): the status read, the record of a completed `BEGIN`, the result. -/
def State.finishBegin (s : State) : State :=
  (s.refreshStatus.live fun s => { s with begun := true }).ret fun s => boolResult (running s.cs1c)

theorem execBegin_next {speed : BitVec 32} {address : Byte} {s t : State}
    (h : exec (.begin speed address) s = .next t) :
    t = ((s.accept (.begin speed address)).setUp speed address).finishBegin := by
  unfold exec execBegin at h
  exact (State.present_next h).2.2

/-- `T_INIT()` is a whole run of calls of its own (R50, R57). -/
theorem State.tInit_drives {allow : Call → Prop} {regs : Nat × Nat} (s : State) (hallow : allow .init) :
    s.Drives allow regs 1 s.tInit := by
  by_cases hh : s.hung = true
  · rw [State.tInit, State.transport_hung _ _ _ _ hh]
    exact (State.Drives.refl s).mono (fun _ => id) (fun _ => id) (by decide)
  · have hs : s.hung = false := by simpa using hh
    have hcalls : ∀ e ∈ [(⟨.init, .done⟩ : Event)], allow e.call := by simpa using hallow
    rcases State.tInit_cases s hs with ⟨_, e⟩ | hstuck
    · rw [e]
      exact .of_returned hs rfl hcalls rfl (fun hwf => State.tickedChip_wf s hwf 1)
        (fun _ hq a _ => congrArg (Memory.read · a) (State.tickedChip_quiet s 1 hq 1 (by decide))) rfl rfl
    · exact hstuck.drives hs hcalls rfl

/-- `T_INIT()` is the only call before `BEGIN` has stored its speed, and it is made only where `SPEED` is 0. -/
theorem State.setUp_drives {regs : Nat × Nat} (speed : BitVec 32) (address : Byte) (s : State) :
    s.Drives (fun c => c = .init ∧ s.speed = 0#32) regs 1 (s.setUp speed address) := by
  have hinit : s.Drives (fun c => c = .init ∧ s.speed = 0#32) regs 1
      (if s.speed = 0#32 then s.tInit else s.skipInit) := by
    split
    · next h0 => exact s.tInit_drives ⟨rfl, h0⟩
    · have hskip : s.Drives (fun c => c = .init ∧ s.speed = 0#32) regs 0 s.skipInit :=
        State.Drives.live (.of_eq rfl rfl rfl rfl rfl)
      exact hskip.mono (fun _ => id) (fun _ => id) (by decide)
  exact hinit.trans (State.Drives.live (.of_eq rfl rfl rfl rfl rfl))

/-- A `BEGIN` that gets past its first part has left the transport initialised, if it was or `SPEED` is 0; one that does
not has changed nothing of the setup. -/
theorem State.setUp_cases (speed : BitVec 32) (address : Byte) (s : State) :
    ((s.setUp speed address).hung = true ∧ s.SameSetup (s.setUp speed address)) ∨
      (s.busInit = true ∨ s.speed = 0#32 → (s.setUp speed address).busInit = true) := by
  by_cases hh : s.hung = true
  · have hsame : s.setUp speed address = s := by
      rw [State.setUp, State.tInit, State.transport_hung _ _ _ _ hh, State.skipInit, State.live_hung _ _ hh, ite_self,
        State.live_hung _ _ hh]
    rw [hsame]
    exact .inl ⟨hh, .refl s⟩
  · have hs : s.hung = false := by simpa using hh
    by_cases h0 : s.speed = 0#32
    · rw [State.setUp, if_pos h0]
      rcases State.tInit_cases s hs with ⟨_, e⟩ | hstuck
      · rw [e, State.live_eq _ _ (by exact hs)]
        exact .inr fun _ => rfl
      · rw [State.live_hung _ _ hstuck.hung]
        exact .inl ⟨hstuck.hung, hstuck.same.sameSetup⟩
    · rw [State.setUp, if_neg h0, State.skipInit, State.live_eq _ _ hs, State.live_eq _ _ (by exact hs)]
      exact .inr fun h => h.resolve_right h0

theorem State.finishBegin_hung (s : State) (hs : s.hung = true) : s.finishBegin = s := by
  rw [State.finishBegin, State.refreshStatus, State.memRead_hung _ _ _ hs, State.live_hung _ _ hs,
    State.live_hung _ _ hs, State.ret_hung _ _ hs]

/-- The second part of `BEGIN` is a status read with the speed and address just stored. -/
theorem State.finishBegin_drives {regs : Nat × Nat} (s : State) :
    (s.finishBegin.addr = s.addr ∧ s.finishBegin.speed = s.speed ∧ s.finishBegin.busInit = s.busInit) ∧
      s.Drives (Call.Fits s.speed s.addr [2]) regs 7 s.finishBegin := by
  have hstatus : s.Transacts [2] regs 7 s.refreshStatus := s.refreshStatus_transacts (by decide)
  obtain ⟨hsetup, hdrives⟩ := hstatus
  rw [State.finishBegin]
  generalize s.refreshStatus = t at hsetup hdrives
  by_cases hh : t.hung = true
  · rw [State.live_hung _ _ hh, State.ret_hung _ _ hh]
    exact ⟨⟨hsetup.addr, hsetup.speed, hsetup.busInit⟩, hdrives⟩
  · have ht : t.hung = false := by simpa using hh
    rw [State.live_eq _ _ ht, State.ret_eq _ _ (by exact ht)]
    exact ⟨⟨hsetup.addr, hsetup.speed, hsetup.busInit⟩, State.Drives.trans (m := 0) hdrives
      (.of_eq rfl rfl rfl rfl rfl)⟩

/-- The calls of a `BEGIN`, in terms of the speed and address it leaves; it stores nothing to the chip. -/
theorem execBegin_drives {regs : Nat × Nat} {speed : BitVec 32} {address : Byte} {s t : State}
    (h : exec (.begin speed address) s = .next t) :
    s.Drives (fun c => (c = .init ∧ s.speed = 0#32) ∨ c.Fits t.speed t.addr [2]) regs 8 t := by
  obtain rfl := execBegin_next h
  generalize hu : (s.accept (.begin speed address)).setUp speed address = u
  obtain ⟨⟨haddr, hspeed, _⟩, hfinish⟩ := u.finishBegin_drives (regs := regs)
  rw [haddr, hspeed]
  have haccept : s.Drives (fun c => c = .init ∧ s.speed = 0#32) regs 0 (s.accept (.begin speed address)) :=
    .of_eq rfl rfl rfl rfl rfl
  have hsetUp := haccept.trans ((s.accept (.begin speed address)).setUp_drives speed address)
  rw [hu] at hsetUp
  exact (hsetUp.mono (fun _ => .inl) (fun _ => id) (Nat.le_refl _)).trans
    (hfinish.mono (fun _ => .inr) (fun _ => id) (Nat.le_refl _))

/-- A `BEGIN` waits in `T_INIT()`, or it leaves the transport initialised if it was or `SPEED` is 0 (R46, R150). -/
theorem execBegin_cases {regs : Nat × Nat} {speed : BitVec 32} {address : Byte} {s t : State}
    (h : exec (.begin speed address) s = .next t) :
    (s.SameSetup t ∧ s.Drives (· = .init) regs 1 t) ∨ (s.busInit = true ∨ s.speed = 0#32 → t.busInit = true) := by
  obtain rfl := execBegin_next h
  have haccept : s.Drives (· = .init) regs 0 (s.accept (.begin speed address)) := .of_eq rfl rfl rfl rfl rfl
  rcases (s.accept (.begin speed address)).setUp_cases speed address with ⟨hh, hsame⟩ | hinit
  · rw [State.finishBegin_hung _ hh]
    exact .inl ⟨⟨hsame.addr, hsame.speed, hsame.busInit, hsame.begun⟩, haccept.trans
      ((State.setUp_drives speed address _).mono (fun _ => And.left) (fun _ => id) (Nat.le_refl _))⟩
  · exact .inr fun hpre => (State.finishBegin_drives (regs := regs) _).1.2.2.trans (hinit hpre)

/-! ### The chip's frame -/

/-- Settles O49: a command's stores are those of its transactions, and `BEGIN`'s stores none. -/
theorem commandsStoreOnlyInTheirRegisters : Obligations.CommandsStoreOnlyInTheirRegisters := by
  intro i s t a hwf hq h ha
  cases hi : isBegin i with
  | false => exact (exec_transacts hi h).drives.spares hwf hq a ha
  | true =>
    cases i with
    | begin speed address => exact (execBegin_drives h).spares hwf (hq.mono (by decide)) a ha
    | _ => cases hi

/-! ### The arguments of the transport calls -/

/-- What a call that fits its transaction is not and which arguments it has (R51, R52, R55). -/
theorem Call.Fits.arguments {speed : BitVec 32} {addr : Byte} {counts : List Nat} {c : Call}
    (h : c.Fits speed addr counts) :
    c ≠ .init ∧ (∀ f, c = .setClock f → f = speed) ∧ (∀ a, c = .beginTx a → a = addr) ∧
      (∀ a n, c = .request a n → a = addr ∧ n ∈ counts) := by
  refine ⟨?_, ?_, ?_, ?_⟩
  · rintro rfl; exact h
  · rintro f rfl; exact h
  · rintro a rfl; exact h
  · rintro a n rfl; exact h

/-- All that a running block does that is not refused (R13 (b), R30 (d)). -/
theorem resume_next {s t : State} (h : resume s = .next t) :
    (s.hung = true ∧ t = s.envStep) ∨
      (s.hung = false ∧ ∃ v : State → Word, t = State.timePass (argFlag s.arg) v s) := by
  unfold resume at h
  split at h
  · next hh => cases h; exact .inl ⟨hh, rfl⟩
  · next hh =>
    have hs : s.hung = false := by simpa using hh
    split at h
    · cases h; exact .inr ⟨hs, nowResult, rfl⟩
    · split at h
      · cases h; exact .inr ⟨hs, epochCountResult, rfl⟩
      · cases h

theorem step_next_of_running {s t : State} (hq : s.seq ≠ .idle) (hreset : s.host.head? ≠ some .reset)
    (h : step s = .next t) : resume s = .next t := by
  rcases step_cases s with ⟨rest, hw, _⟩ | ⟨_, _, e⟩ | ⟨hidle, _, _⟩ | ⟨w, rest, hidle, _, _⟩
  · exact absurd (by rw [hw]; rfl) hreset
  · rw [← e, h]
  · exact absurd hidle hq
  · exact absurd hidle hq

/-- Settles O57: the calls of a command fit its transactions, but for `BEGIN`'s `T_INIT()`; a running block makes one
more read of nine bytes, or waits. -/
theorem transportCallArguments : Obligations.TransportCallArguments := by
  refine ⟨fun i s t _ h => ?_, fun s t hq hreset h => ?_⟩
  · cases hi : isBegin i with
    | false =>
      obtain ⟨hsetup, hdrives⟩ := exec_transacts hi h
      obtain ⟨es, htrace, hfits, _⟩ := hdrives.calls
      refine ⟨es, htrace, fun e he => ?_⟩
      obtain ⟨hinit, hargs⟩ := (hfits e he).arguments
      rw [hsetup.addr, hsetup.speed]
      exact ⟨fun hc => absurd hc hinit, hargs⟩
    | true =>
      cases i with
      | begin speed address =>
        obtain ⟨es, htrace, hallow, _⟩ := (execBegin_drives (regs := (0, 0)) h).calls
        refine ⟨es, htrace, fun e he => ?_⟩
        rcases hallow e he with ⟨hc, h0⟩ | hfits
        · simp [hc, h0]
        · obtain ⟨hinit, hargs⟩ := (hfits.mono (counts' := [1, 2, 4, 9]) (by decide)).arguments
          exact ⟨fun hc => absurd hc hinit, hargs⟩
      | _ => cases hi
  · rcases resume_next (step_next_of_running hq hreset h) with ⟨_, rfl⟩ | ⟨_, v, rfl⟩
    · exact ⟨[], by simp, by simp⟩
    · have hpass : s.Transacts [9] (0, 0) 14 (State.timePass (argFlag s.arg) v s) :=
        s.timePass_transacts (argFlag s.arg) v (by decide)
      obtain ⟨es, htrace, hfits, _⟩ := hpass.drives.calls
      rw [hpass.setup.addr, hpass.setup.speed]
      exact ⟨es, htrace, fun e he => by simpa using (hfits e he).arguments⟩

/-! ### The invariant -/

section
variable {allow : Call → Prop} {counts : List Nat} {regs : Nat × Nat} {n : Nat} {s t : State}

/-- The bus half of the invariant is kept by whatever the block does there; the other half is about the block. -/
theorem State.Inv.of_drives (hs : s.Inv) (h : s.Drives allow regs n t)
    (hbetween : t.hung = false → t.seq = .idle ∨ (t.Looping ∧ t.begun = true))
    (hwaiting : t.hung = true → t.seq ≠ .idle)
    (hbegun : t.begun = true → t.busInit = true) (hspeed : t.speed ≠ 0#32 → t.busInit = true)
    (hinit : t.busInit = false → s.busInit = false ∧ ∀ c, allow c → c = .init) : t.Inv := by
  obtain ⟨es, htrace, hallow, hsome, hwhole⟩ := h.calls
  have hrun : s.hung = false → BusPhase.free.run t.trace = BusPhase.free.run es := fun hh => by
    rw [htrace, BusPhase.run_append, hs.whole hh, Option.bind_some]
  exact
    { chipWf := h.chipWf hs.chipWf
      whole := fun ht => by
        have hh : s.hung = false := by
          by_contra hc
          exact absurd (h.waits (by simpa using hc)).1 (by simp [ht])
        rw [hrun hh, hwhole ht]
      disciplined := by
        cases hh : s.hung with
        | true => rw [(h.waits hh).2.1]; exact hs.disciplined
        | false => rw [hrun hh]; exact hsome
      between := hbetween
      waiting := hwaiting
      begunInit := hbegun
      speedInit := hspeed
      initFirst := fun ht e he => by
        obtain ⟨hbus, honly⟩ := hinit ht
        rw [htrace] at he
        rcases List.mem_append.1 he with he | he
        · exact hs.initFirst hbus e he
        · exact honly _ (hallow e he) }

/-- Transactions after a completed `BEGIN`. -/
theorem State.Inv.of_transacts (hs : s.Inv) (hbegun : s.begun = true) (h : s.Transacts counts regs n t)
    (hbetween : t.hung = false → t.seq = .idle ∨ t.Looping) (hwaiting : t.hung = true → t.seq ≠ .idle) : t.Inv := by
  have hbus : t.busInit = true := h.setup.busInit.trans (hs.begunInit hbegun)
  exact hs.of_drives h.drives (fun ht => (hbetween ht).imp_right fun hl => ⟨hl, h.setup.begun.trans hbegun⟩) hwaiting
    (fun _ => hbus) (fun _ => hbus) (fun hc => absurd hbus (by simp [hc]))

end

/-- `BEGIN` keeps the invariant: until `T_INIT()` has returned it makes no other call. -/
theorem execBegin_inv {speed : BitVec 32} {address : Byte} {s t : State} (hs : s.Inv)
    (h : exec (.begin speed address) s = .next t) (hidle : t.hung = false → t.seq = .idle)
    (hwaiting : t.hung = true → t.seq ≠ .idle) : t.Inv := by
  rcases execBegin_cases (regs := (0, 0)) h with ⟨hsame, hdrives⟩ | hinit
  · refine hs.of_drives hdrives (fun ht => .inl (hidle ht)) hwaiting ?_ ?_ ?_
    · rw [hsame.begun, hsame.busInit]; exact hs.begunInit
    · rw [hsame.speed, hsame.busInit]; exact hs.speedInit
    · rw [hsame.busInit]; exact fun hbus => ⟨hbus, fun _ => id⟩
  · have hbus : t.busInit = true := hinit <| by
      by_cases h0 : s.speed = 0#32
      · exact .inr h0
      · exact .inl (hs.speedInit h0)
    exact hs.of_drives (execBegin_drives (regs := (0, 0)) h) (fun ht => .inl (hidle ht)) hwaiting (fun _ => hbus)
      (fun _ => hbus) (fun hc => absurd hbus (by simp [hc]))

/-- How an accepted command comes out, and that it was accepted after a `BEGIN` or is one (R13, R233). -/
theorem exec_next_comesOut {i : Instr} {s t : State} (hs : s.Idle) (h : exec i s = .next t) :
    (isBegin i = true ∨ s.begun = true) ∧ s.ComesOut i t := by
  have hmay : isBegin i = true ∨ s.begun = true := by
    obtain ⟨body, hbody⟩ := exec_eq_present i s
    obtain ⟨_, hbegun, _⟩ := State.present_next (hbody.symm.trans h)
    cases hi : isBegin i with
    | true => exact .inl rfl
    | false => exact .inr (hbegun (by rw [hi]; rfl))
  obtain ⟨u, hu, hout⟩ := outcomesOfACommand i s hs hmay
  obtain rfl : u = t := by rw [h] at hu; cases hu; rfl
  exact ⟨hmay, hout⟩

theorem State.ComesOut.waiting {i : Instr} {s t : State} (h : s.ComesOut i t) (ht : t.hung = true) :
    t.seq ≠ .idle := by
  rcases h with ⟨_, hh⟩ | ⟨_, hq, _⟩ | ⟨hh, _⟩
  · exact absurd ht (by simp [hh])
  · exact hq
  · exact absurd ht (by simp [hh])

theorem State.ComesOut.between {i : Instr} {s t : State} (h : s.ComesOut i t) (ht : t.hung = false) :
    t.seq = .idle ∨ (t.Looping ∧ mayLoop i = true) := by
  rcases h with ⟨hq, _⟩ | ⟨hh, _⟩ | ⟨_, hl, _, hi⟩
  · exact .inl hq
  · exact absurd hh (by simp [ht])
  · exact .inr ⟨hl, hi⟩

/-- A command presented to an idle block keeps the invariant. -/
theorem exec_inv {i : Instr} {s t : State} (hs : s.Inv) (hq : s.seq = .idle) (h : exec i s = .next t) : t.Inv := by
  have hhung : s.hung = false := by
    by_contra hc
    exact hs.waiting (by simpa using hc) hq
  obtain ⟨hmay, hout⟩ := exec_next_comesOut ⟨hq, hhung⟩ h
  cases hi : isBegin i with
  | false =>
    have hbegun : s.begun = true := hmay.resolve_left (by simp [hi])
    exact hs.of_transacts hbegun (exec_transacts hi h) (fun ht => (hout.between ht).imp_right And.left) hout.waiting
  | true =>
    cases i with
    | begin speed address =>
      exact execBegin_inv hs h (fun ht => (hout.between ht).resolve_right fun hl => nomatch hl.2) hout.waiting
    | _ => cases hi

/-- One more pass of a looping command keeps the invariant. -/
theorem State.timePass_inv {s : State} (v : State → Word) (hs : s.Inv) (hhung : s.hung = false)
    (hq : s.seq ≠ .idle) : (State.timePass (argFlag s.arg) v s).Inv := by
  obtain ⟨⟨_, hop, _, _⟩, hbegun⟩ := (hs.between hhung).resolve_left hq
  have hpass : s.Transacts [9] (0, 0) 14 (State.timePass (argFlag s.arg) v s) :=
    s.timePass_transacts (argFlag s.arg) v (by decide)
  rcases State.timePass_outcomes (argFlag s.arg) v s hhung hq with ⟨⟨hidle, hh⟩, _⟩ | ⟨hh, hrun, _⟩ | ⟨htwice, hback⟩
  · exact hs.of_transacts hbegun hpass (fun _ => .inl hidle) (fun ht => absurd ht (by simp [hh]))
  · exact hs.of_transacts hbegun hpass (fun ht => absurd hh (by simp [ht])) (fun _ => hrun)
  · have hloop : (State.timePass (argFlag s.arg) v s).Looping :=
      ⟨hback.seq, by rw [hback.op]; exact hop, by rw [hback.arg]; exact htwice, hback.prevValid⟩
    exact hs.of_transacts hbegun hpass (fun _ => .inr hloop) (fun ht => absurd hback.hung (by simp [ht]))

/-- The environment's own moves keep the invariant: they touch the chip's registers only. -/
theorem State.envStep_inv {s : State} (hs : s.Inv) : s.envStep.Inv where
  chipWf := Memory.tick_wf _ _ hs.chipWf
  whole := by simpa using hs.whole
  disciplined := by simpa using hs.disciplined
  between := by simpa [State.Looping] using hs.between
  waiting := by simpa using hs.waiting
  begunInit := by simpa using hs.begunInit
  speedInit := by simpa using hs.speedInit
  initFirst := by simpa using hs.initFirst

theorem State.Inv.withHost {s : State} (hs : s.Inv) (rest : List HostInput) : ({ s with host := rest } : State).Inv :=
  ⟨hs.chipWf, hs.whole, hs.disciplined, hs.between, hs.waiting, hs.begunInit, hs.speedInit, hs.initFirst⟩

/-- Settles O12, by what the step is about: the reset input, a pass or the wait of a running command, the environment's
move in an idle block, or a presented command. -/
theorem stepKeepsTheInvariant : Obligations.StepKeepsTheInvariant := by
  intro s t hs h
  rcases step_cases s with ⟨rest, _, e⟩ | ⟨_, hq, e⟩ | ⟨_, _, e⟩ | ⟨w, rest, hq, _, ⟨i, _, e⟩ | ⟨op, _, e⟩⟩
  · rw [e] at h; cases h
    exact State.blockReset_inv hs.chipWf
  · rcases resume_next (e.symm.trans h) with ⟨_, rfl⟩ | ⟨hhung, v, rfl⟩
    · exact State.envStep_inv hs
    · exact State.timePass_inv v hs hhung hq
  · rw [e] at h; cases h
    exact State.envStep_inv hs
  · exact exec_inv (hs.withHost rest) hq (e.symm.trans h)
  · rw [e] at h; cases h

end Sys2Proof.Machine
end

section
/-! SUPPORT. The command word (30_encoding.md R90 to R101): the fields of an encoded operand, what the decoder can
answer, and which operand bits it looks at. -/

namespace Sys2Proof

/-! ### The fields of an encoded operand -/

@[simp] theorem argSpeed_operand_begin (speed : BitVec 32) (address : Byte) :
    argSpeed (Instr.begin speed address).operand = speed :=
  BitVec.extractLsb'_append_eq_right

@[simp] theorem argAddress_operand_begin (speed : BitVec 32) (address : Byte) :
    argAddress (Instr.begin speed address).operand = address := by
  have hhigh : argAddress (Instr.begin speed address).operand = (0#24 ++ address : BitVec 32).extractLsb' 0 8 :=
    BitVec.extractLsb'_append_eq_of_le (Nat.le_refl 32)
  exact hhigh.trans BitVec.extractLsb'_append_eq_right

@[simp] theorem argDate_operand_adjust (date : Date) (time : Time) :
    argDate (Instr.adjust date time).operand = date :=
  BitVec.extractLsb'_append_eq_left

@[simp] theorem argTime_operand_adjust (date : Date) (time : Time) :
    argTime (Instr.adjust date time).operand = time := by
  have hlow : argTime (Instr.adjust date time).operand = (0#8 ++ time : BitVec 32).extractLsb' 0 24 :=
    BitVec.extractLsb'_append_eq_of_add_le (by decide)
  exact hlow.trans BitVec.extractLsb'_append_eq_right

/-- A value alone in the low bits of a word is read whole. -/
theorem extractLsb'_setWidth_self {n m : Nat} (v : BitVec n) (h : n ≤ m) : (v.setWidth m).extractLsb' 0 n = v := by
  rw [BitVec.extractLsb'_setWidth_of_le (by omega), BitVec.extractLsb'_eq_self]

@[simp] theorem argAlarm_setWidth (a : BitVec 32) : argAlarm (a.setWidth 64) = a :=
  extractLsb'_setWidth_self a (by decide)

@[simp] theorem argTimer_setWidth (v : BitVec 16) : argTimer (v.setWidth 64) = v :=
  extractLsb'_setWidth_self v (by decide)

@[simp] theorem argByte_setWidth (b : Byte) : argByte (b.setWidth 64) = b :=
  extractLsb'_setWidth_self b (by decide)

/-- The count that is read fits `EPOCH_W` bits (R101). -/
theorem argEpoch_lt (epochW : Nat) (a : Word) : (argEpoch epochW a).toNat < 2 ^ epochW := by
  rw [argEpoch, BitVec.toNat_ofNat]
  exact lt_of_le_of_lt (Nat.mod_le _ _) (Nat.mod_lt _ (Nat.two_pow_pos epochW))

/-! ### Decoding an encoded command -/

/-- Decoding undoes encoding, by command: its opcode selects its own row of the map (R91), and each operand is read
whole from its field (R94 to R101). -/
theorem decodeAt_encode {epochW : Nat} (i : Instr) (hwf : i.wellFormedAt epochW = true) :
    decodeAt epochW (encode i) = .ok i := by
  unfold decodeAt encode
  rw [opField_mkCmd, argField_mkCmd]
  cases i with
  | begin speed address => simp [Instr.opcode]
  | adjust date time => simp [Instr.opcode]
  | adjuste t => simp [Instr.opcode, Instr.operand, argEpoch_eq epochW t (of_decide_eq_true hwf)]
  | now flag | epoch flag | activealarm flag | activetimer flag =>
    simp [Instr.opcode, Instr.operand, Machine.argFlag_flagOperand]
  | setalarm v | settimer v | setclockout v => simp [Instr.opcode, Instr.operand]
  | reset | getstatus | isrunning | isalarm | istimer | getalarm | gettimer | getclockout => rfl

/-- Settles O2, at this implementation's `EPOCH_W`. -/
theorem decodeOfEncodeIsTheCommand : Obligations.DecodeOfEncodeIsTheCommand :=
  fun i hwf => decodeAt_encode i hwf

/-- Settles O1. Eight words are decoded whatever `EPOCH_W` is; the last one's count fits thirty-two bits. -/
theorem wordsOfTheSpecDecode : Obligations.WordsOfTheSpecDecode := by
  have hcount : (Instr.adjuste 1694781045#64).wellFormed = true :=
    decide_eq_true (lt_of_lt_of_le (by decide) two_pow_32_le)
  have hword : encode (.adjuste 1694781045#64) = 0x090000000065044E75#72 := by decide
  have hadjuste : decode 0x090000000065044E75#72 = .ok (.adjuste 1694781045#64) :=
    hword ▸ decodeOfEncodeIsTheCommand _ hcount
  exact ⟨rfl, rfl, rfl, rfl, rfl, rfl, rfl, rfl, hadjuste⟩

/-! ### What the decoder can answer -/

/-- No command has a reserved opcode (R92). -/
theorem Instr.opcode_lt (i : Instr) : i.opcode.toNat < 0x12 := by
  cases i <;> simp [Instr.opcode]

/-- All that the decoder can answer: a well-formed command with the word's opcode, or, for an opcode that selects no
operation, the refusal by name (R91, R92). -/
theorem decodeAt_cases (epochW : Nat) (w : Cmd) :
    (∃ i, decodeAt epochW w = .ok i ∧ i.opcode = opField w ∧ i.wellFormedAt epochW = true) ∨
    (0x12 ≤ (opField w).toNat ∧ decodeAt epochW w = .error (.reservedOpcode (opField w))) := by
  unfold decodeAt
  split
  case h_10 hop => exact .inl ⟨_, rfl, BitVec.eq_of_toNat_eq hop.symm, decide_eq_true (argEpoch_lt epochW _)⟩
  case h_19 => exact .inr ⟨by grind, rfl⟩
  all_goals
    next hop => exact .inl ⟨_, rfl, BitVec.eq_of_toNat_eq hop.symm, rfl⟩

theorem decodeAt_ok {epochW : Nat} {w : Cmd} {i : Instr} (h : decodeAt epochW w = .ok i) :
    i.opcode = opField w ∧ i.wellFormedAt epochW = true := by
  rcases decodeAt_cases epochW w with ⟨j, hj, hfacts⟩ | ⟨_, herror⟩
  · cases hj.symm.trans h
    exact hfacts
  · cases herror.symm.trans h

/-- Settles O3: what is decoded is well-formed, so its own word decodes to it again. -/
theorem decodedCommandsAreWellFormed : Obligations.DecodedCommandsAreWellFormed := by
  intro w i h
  obtain ⟨hop, hwf⟩ := decodeAt_ok h
  exact ⟨hwf, hop, decodeOfEncodeIsTheCommand i hwf⟩

/-- An opcode selects an operation exactly when it is below the reserved ones (R92). -/
theorem decode_ok_iff (w : Cmd) : (∃ i, decode w = .ok i) ↔ (opField w).toNat < 0x12 := by
  constructor
  · rintro ⟨i, h⟩
    exact (decodeAt_ok h).1 ▸ i.opcode_lt
  · intro hlt
    rcases decodeAt_cases Config.epochWidth w with ⟨i, hi, _⟩ | ⟨hge, _⟩
    · exact ⟨i, hi⟩
    · omega

theorem decode_reserved {w : Cmd} (h : 0x12 ≤ (opField w).toNat) :
    decode w = .error (.reservedOpcode (opField w)) := by
  rcases decodeAt_cases Config.epochWidth w with ⟨i, hi, _⟩ | ⟨_, herror⟩
  · have hlt := (decode_ok_iff w).1 ⟨i, hi⟩
    omega
  · exact herror

/-! ### The operand bits the decoder looks at -/

/-- A field that lies within a mask does not change when the bits outside the mask are cleared. -/
theorem extractLsb'_and_mask {n start len : Nat} (a mask : BitVec n)
    (hmask : mask.extractLsb' start len = BitVec.allOnes len) :
    (a &&& mask).extractLsb' start len = a.extractLsb' start len := by
  rw [BitVec.extractLsb'_and, hmask, BitVec.and_allOnes]

theorem argSpeed_and_mask (a : Word) : argSpeed (a &&& 0x000000FFFFFFFFFF#64) = argSpeed a :=
  extractLsb'_and_mask _ _ (by decide)

theorem argAddress_and_mask (a : Word) : argAddress (a &&& 0x000000FFFFFFFFFF#64) = argAddress a :=
  extractLsb'_and_mask _ _ (by decide)

theorem argFlag_and_mask (a : Word) : argFlag (a &&& 0x0000000000000001#64) = argFlag a := by
  simp [argFlag]

theorem argDate_and_mask (a : Word) : argDate (a &&& 0xFFFFFFFF00FFFFFF#64) = argDate a :=
  extractLsb'_and_mask _ _ (by decide)

theorem argTime_and_mask (a : Word) : argTime (a &&& 0xFFFFFFFF00FFFFFF#64) = argTime a :=
  extractLsb'_and_mask _ _ (by decide)

theorem argEpoch_and_mask {epochW : Nat} (hw : epochW ≤ 64) (a : Word) :
    argEpoch epochW (a &&& BitVec.ofNat 64 (2 ^ epochW - 1)) = argEpoch epochW a := by
  have hpow : 2 ^ epochW ≤ 2 ^ 64 := Nat.pow_le_pow_right (by decide) hw
  have hmask : (BitVec.ofNat 64 (2 ^ epochW - 1)).toNat = 2 ^ epochW - 1 := by
    rw [BitVec.toNat_ofNat, Nat.mod_eq_of_lt (by have := Nat.two_pow_pos epochW; omega)]
  rw [argEpoch, BitVec.toNat_and, hmask, Nat.and_two_pow_sub_one_eq_mod, Nat.mod_mod, argEpoch]

theorem argAlarm_and_mask (a : Word) : argAlarm (a &&& 0x00000000FFFFFFFF#64) = argAlarm a :=
  extractLsb'_and_mask _ _ (by decide)

theorem argTimer_and_mask (a : Word) : argTimer (a &&& 0x000000000000FFFF#64) = argTimer a :=
  extractLsb'_and_mask _ _ (by decide)

theorem argByte_and_mask (a : Word) : argByte (a &&& 0x00000000000000FF#64) = argByte a :=
  extractLsb'_and_mask _ _ (by decide)

/-- A word decodes as the same word with its unnamed operand bits cleared (R93). -/
theorem decodeAt_clear_unused {epochW : Nat} (hw : epochW ≤ 64) (w : Cmd) :
    decodeAt epochW (mkCmd (opField w) (argField w &&& Machine.usedOperandBits epochW (opField w)))
      = decodeAt epochW w := by
  unfold decodeAt Machine.usedOperandBits
  rw [opField_mkCmd, argField_mkCmd]
  generalize argField w = a
  dsimp only
  split
  case h_1 hop => simp only [hop, argSpeed_and_mask, argAddress_and_mask]
  case h_7 hop | h_8 hop | h_11 hop | h_12 hop => simp only [hop, argFlag_and_mask]
  case h_9 hop => simp only [hop, argDate_and_mask, argTime_and_mask]
  case h_10 hop => simp only [hop, argEpoch_and_mask hw]
  case h_13 hop => simp only [hop, argAlarm_and_mask]
  case h_15 hop => simp only [hop, argTimer_and_mask]
  case h_17 hop => simp only [hop, argByte_and_mask]
  all_goals rfl

/-- Two words that differ in unnamed operand bits only are the same command, or have the same reserved opcode (R93). -/
theorem decode_congr {w v : Cmd} (hop : opField w = opField v)
    (harg : argField w &&& Machine.usedOperandBits Config.epochWidth (opField w)
      = argField v &&& Machine.usedOperandBits Config.epochWidth (opField v)) : decode w = decode v := by
  unfold decode
  rw [← decodeAt_clear_unused Config.epochWidth_le w, ← decodeAt_clear_unused Config.epochWidth_le v, harg, hop]

end Sys2Proof
end

section
/-! SUPPORT. The step of an idle block (30_encoding.md R90, R92, R93), by what the presented word decodes to. -/

namespace Sys2Proof.Machine

section
variable {s : State} {w : Cmd} {rest : List HostInput} (hhost : s.host = .command w :: rest) (hq : s.seq = .idle)
include hhost hq

/-- Of the things a step can be about, only the presented word is left. -/
theorem step_of_presented :
    (∃ i, decode w = .ok i ∧ step s = exec i { s with host := rest }) ∨
      ∃ op, decode w = .error (.reservedOpcode op) ∧ step s = .refused (.reservedOpcode op) := by
  rcases step_cases s with ⟨_, hw, _⟩ | ⟨_, hrun, _⟩ | ⟨_, hw, _⟩ | ⟨_, _, _, hw, hword⟩
  · rw [hhost] at hw; cases hw
  · exact absurd hq hrun
  · rw [hhost] at hw; cases hw
  · rw [hhost] at hw; cases hw
    exact hword

theorem step_of_decoded {i : Instr} (hd : decode w = .ok i) : step s = exec i { s with host := rest } := by
  rcases step_of_presented hhost hq with ⟨j, hj, hstep⟩ | ⟨op, herror, _⟩
  · cases hj.symm.trans hd
    exact hstep
  · cases herror.symm.trans hd

theorem step_of_reserved {op : Byte} (hd : decode w = .error (.reservedOpcode op)) :
    step s = .refused (.reservedOpcode op) := by
  rcases step_of_presented hhost hq with ⟨i, hi, _⟩ | ⟨_, herror, hstep⟩
  · cases hi.symm.trans hd
  · cases herror.symm.trans hd
    exact hstep

end

/-- Settles O4: the opcodes the decoder accepts, and its refusal of the others carried over to the step. -/
theorem reservedOpcodesAreRefused : Obligations.ReservedOpcodesAreRefused :=
  ⟨decode_ok_iff, fun _ _ _ hhost hq hop => step_of_reserved hhost hq (decode_reserved hop)⟩

/-- Settles O5: the two words decode alike, and a step sees no more of a word than what it decodes to. -/
theorem unusedOperandBitsAreIgnored : Obligations.UnusedOperandBitsAreIgnored := by
  intro s w v rest hq hop harg
  have hdecode : decode w = decode v := decode_congr hop harg
  cases hd : decode v with
  | ok i =>
    have hstep (u : Cmd) (hu : decode u = .ok i) :
        step { s with host := .command u :: rest } = exec i { s with host := rest } :=
      step_of_decoded (s := { s with host := .command u :: rest }) rfl hq hu
    rw [hstep w (hdecode.trans hd), hstep v hd]
  | error e =>
    have hstep (u : Cmd) (hu : decode u = .error e) :
        step { s with host := .command u :: rest } = .refused (.reservedOpcode e.1) :=
      step_of_reserved (s := { s with host := .command u :: rest }) rfl hq hu
    rw [hstep w (hdecode.trans hd), hstep v hd]

/-- Settles O6: what the decoder gives is well-formed anyway, so that hypothesis is not used. -/
theorem stepRunsThePresentedCommand : Obligations.StepRunsThePresentedCommand :=
  fun _ _ _ _ hhost hq hd _ => step_of_decoded hhost hq hd

end Sys2Proof.Machine
end

section
/-! SUPPORT. The digits of BCD bytes and words, and the year with its century bit (40_bcd_codec.md R120 to R126). -/

namespace Sys2Proof.Machine

/-! ### Digits -/

/-- A byte is its two nibbles. -/
theorem byte_toNat_nibbles (b : Byte) : b.toNat = nibble b 1 * 16 + nibble b 0 := by
  have := b.isLt
  simp only [nibble_eq, Nat.reduceMul, Nat.reducePow]; omega

/-- A word is its four nibbles. -/
theorem word16_toNat_nibbles (v : BitVec 16) :
    v.toNat = nibble v 3 * 4096 + nibble v 2 * 256 + nibble v 1 * 16 + nibble v 0 := by
  have := v.isLt
  simp only [nibble_eq, Nat.reduceMul, Nat.reducePow]; omega

theorem validBcd8_iff (b : Byte) : validBcd8 b = true ↔ nibble b 1 ≤ 9 ∧ nibble b 0 ≤ 9 := by
  simp only [validBcd8, Bool.and_eq_true, decide_eq_true_eq]

theorem validBcd16_iff (v : BitVec 16) :
    validBcd16 v = true ↔ nibble v 3 ≤ 9 ∧ nibble v 2 ≤ 9 ∧ nibble v 1 ≤ 9 ∧ nibble v 0 ≤ 9 := by
  simp only [validBcd16, Bool.and_eq_true, decide_eq_true_eq, and_assoc]

/-- The number of a written byte: the hundreds are gone (R121). -/
theorem bcd2bin8_bin2bcd8 (n : Nat) : bcd2bin8 (bin2bcd8 n) = n % 100 := by
  obtain ⟨h1, h0⟩ := bin2bcd8_digits n
  rw [bcd2bin8, h1, h0]; omega

theorem bin2bcd8_bcd2bin8 {b : Byte} (h : validBcd8 b = true) : bin2bcd8 (bcd2bin8 b) = b := by
  obtain ⟨h1, h0⟩ := (validBcd8_iff b).1 h
  obtain ⟨g1, g0⟩ := bin2bcd8_digits (bcd2bin8 b)
  apply BitVec.eq_of_toNat_eq
  rw [byte_toNat_nibbles, byte_toNat_nibbles b, g1, g0, bcd2bin8]; omega

/-- The number of a written word: the ten-thousands are gone (R123). -/
theorem bcd2bin16_bin2bcd16 (n : Nat) : bcd2bin16 (bin2bcd16 n) = n % 10000 := by
  obtain ⟨h3, h2, h1, h0⟩ := bin2bcd16_digits n
  rw [bcd2bin16, h3, h2, h1, h0]; omega

theorem bin2bcd16_bcd2bin16 {v : BitVec 16} (h : validBcd16 v = true) : bin2bcd16 (bcd2bin16 v) = v := by
  obtain ⟨h3, h2, h1, h0⟩ := (validBcd16_iff v).1 h
  obtain ⟨g3, g2, g1, g0⟩ := bin2bcd16_digits (bcd2bin16 v)
  apply BitVec.eq_of_toNat_eq
  rw [word16_toNat_nibbles, word16_toNat_nibbles v, g3, g2, g1, g0, bcd2bin16]
  omega

theorem validBcd8_bin2bcd8 (n : Nat) : validBcd8 (bin2bcd8 n) = true := by
  obtain ⟨h1, h0⟩ := bin2bcd8_digits n
  rw [validBcd8_iff, h1, h0]; omega

theorem validBcd16_bin2bcd16 (n : Nat) : validBcd16 (bin2bcd16 n) = true := by
  obtain ⟨h3, h2, h1, h0⟩ := bin2bcd16_digits n
  rw [validBcd16_iff, h3, h2, h1, h0]; omega

theorem bcd2bin8_le_of_valid {b : Byte} (h : validBcd8 b = true) : bcd2bin8 b ≤ 99 := by
  obtain ⟨h1, h0⟩ := (validBcd8_iff b).1 h
  unfold bcd2bin8; omega

/-- Settles O19: each conversion gives back the digits it took. -/
theorem bcdRoundTrips : Obligations.BcdRoundTrips :=
  ⟨fun _ h => bin2bcd8_bcd2bin8 h, fun n h => by rw [bcd2bin8_bin2bcd8]; omega,
    fun _ h => bin2bcd16_bcd2bin16 h, fun n h => by rw [bcd2bin16_bin2bcd16]; omega⟩

/-! ### Year and century -/

theorem bcd2bin8_eq (b : Byte) : bcd2bin8 b = b.toNat / 16 * 10 + b.toNat % 16 := by
  have := b.isLt
  simp only [bcd2bin8, nibble_eq, Nat.reduceMul, Nat.reducePow]; omega

theorem bcd2bin8_le (b : Byte) : bcd2bin8 b ≤ 165 := by
  have := b.isLt
  rw [bcd2bin8_eq]; omega

/-- Settles O20: the digits of any byte are worth at most 165, those of a valid one 99. -/
theorem yearDecoding : Obligations.YearDecoding := by
  intro y c
  have hdigits := bcd2bin8_le y
  have hcentury : (if c then 100 else 0) ≤ 100 := by split <;> decide
  rw [← bcd2bin8_eq, decodeYear]
  exact ⟨rfl, by omega, by omega, fun h => by have := bcd2bin8_le_of_valid h; omega⟩

/-- Settles O21: the rule tells years apart by their century modulo 4 only. -/
theorem centuryBitRule : Obligations.CenturyBitRule := by
  refine ⟨fun year => ⟨rfl, ?_⟩, fun year h => ?_, fun year h => ?_⟩
  · have hperiod : (year + 400) / 100 % 4 = year / 100 % 4 := by omega
    rw [centuryBit, centuryBit, hperiod]
  · exact if_pos (by omega)
  · exact if_neg (by omega)

/-- The century flag written for a year (R125). -/
theorem centuryBit_flag (year : Nat) : (centuryBit year).getLsbD 7 = decide (year / 100 % 4 ≠ 0) := by
  unfold centuryBit Config.centuryMask
  split <;> simp_all

/-- A year decoded from the digits it was written with (R124). -/
theorem decodeYear_bin2bcd8 (year : Nat) (c : Bool) :
    decodeYear (bin2bcd8 (year % 100)) c = 2000 + year % 100 + (if c then 100 else 0) := by
  rw [decodeYear, bcd2bin8_bin2bcd8, Nat.mod_mod]

/-- Settles O22: decoding gives century 20 or 21, whichever the flag says. -/
theorem yearIsReadBackInTwoCenturies : Obligations.YearIsReadBackInTwoCenturies := by
  intro year
  rw [decodeYear_bin2bcd8, centuryBit_flag]
  by_cases hcentury : year / 100 % 4 = 0
  · simp only [hcentury, ne_eq, not_true_eq_false, decide_false, Bool.false_eq_true, if_false]; omega
  · simp only [hcentury, ne_eq, not_false_eq_true, decide_true, if_true]; omega

end Sys2Proof.Machine
end

section
/-! SUPPORT. The calendar (40_bcd_codec.md R127 to R131). `DaysFromCivil` and `CivilFromDays` count in years that begin
on 1 March, so that the leap day comes last; the day number of each 1 March is what both turn on. -/

namespace Sys2Proof.Machine

/-! ### Years and months counted from March -/

/-- The year, counted from 1 March, that month `m` of year `y` falls into (`y1` of R128). -/
def marchYear (y m : Int) : Int := if m ≤ 2 then y - 1 else y

/-- The month counted from March, 0 .. 11 (`mp` of R128). -/
def marchMonth (m : Int) : Int := if m > 2 then m - 3 else m + 9

/-- Days from 1 March of the year 0 to 1 March of the year `y`. -/
def marchFirst (y : Int) : Int := y * 365 + y / 4 - y / 100 + y / 400

/-- Days from 1 March to the first of the month `mp` counted from March. -/
def monthFirst (mp : Int) : Int := (153 * mp + 2) / 5

theorem validDate_iff (y m d : Int) :
    validDate y m d = true ↔ (1 ≤ m ∧ m ≤ 12) ∧ 1 ≤ d ∧ d ≤ daysInMonth y m := by
  simp only [validDate, Bool.and_eq_true, decide_eq_true_eq]

/-- R128 without its eras of 400 years. -/
theorem daysFromCivil_eq (y m d : Int) :
    daysFromCivil y m d = marchFirst (marchYear y m) + monthFirst (marchMonth m) + (d - 1) - 719468 := by
  simp only [daysFromCivil, marchFirst, monthFirst, marchYear, marchMonth]
  generalize (if m ≤ 2 then y - 1 else y) = y1
  omega

theorem daysFromCivil_day (y m d : Int) : daysFromCivil y m d = daysFromCivil y m 1 + (d - 1) := by
  rw [daysFromCivil_eq, daysFromCivil_eq y m 1]; omega

theorem isLeap_iff (y : Int) : isLeap y = true ↔ y % 4 = 0 ∧ (y % 100 ≠ 0 ∨ y % 400 = 0) := by
  simp [isLeap]

theorem daysInMonth_two (y : Int) :
    daysInMonth y 2 = if y % 4 = 0 ∧ (y % 100 ≠ 0 ∨ y % 400 = 0) then 29 else 28 := by
  simp only [daysInMonth, if_true, isLeap_iff]

theorem div_succ (y : Int) {n : Int} (hn : n = 4 ∨ n = 100 ∨ n = 400) :
    (y + 1) / n = y / n + (if (y + 1) % n = 0 then 1 else 0) := by
  rcases hn with rfl | rfl | rfl <;> split <;> omega

/-- The year that begins on 1 March of `y` ends with the February of `y + 1`. -/
theorem marchFirst_succ (y : Int) : marchFirst (y + 1) = marchFirst y + 337 + daysInMonth (y + 1) 2 := by
  rw [daysInMonth_two, marchFirst, marchFirst, div_succ y (n := 4) (by decide), div_succ y (n := 100) (by decide),
    div_succ y (n := 400) (by decide)]
  split_ifs <;> omega

/-- The eras of R128: 400 years have 146097 days. -/
theorem marchFirst_era {yoe : Int} (era : Int) (h0 : 0 ≤ yoe ∧ yoe ≤ 399) :
    marchFirst (yoe + era * 400) = era * 146097 + (yoe * 365 + yoe / 4 - yoe / 100) := by
  unfold marchFirst; omega

theorem daysInMonth_of_ne_two (y : Int) {m : Int} (h1 : 1 ≤ m) (h12 : m ≤ 12) (hm : m ≠ 2) :
    daysInMonth y m = monthFirst (marchMonth m + 1) - monthFirst (marchMonth m) := by
  interval_cases m
  · rfl
  · exact absurd rfl hm
  all_goals rfl

theorem daysInMonth_two_bounds (y : Int) : 28 ≤ daysInMonth y 2 ∧ daysInMonth y 2 ≤ 29 := by
  rw [daysInMonth_two]; split <;> omega

/-! ### One day after the other -/

theorem daysFromCivil_next_month (y : Int) {m : Int} (h1 : 1 ≤ m) (h12 : m < 12) :
    daysFromCivil y (m + 1) 1 = daysFromCivil y m 1 + daysInMonth y m := by
  rw [daysFromCivil_eq, daysFromCivil_eq]
  by_cases hfeb : m = 2
  · subst hfeb
    have hyear := marchFirst_succ (y - 1)
    have hmarch : marchYear y (2 + 1) = y := if_neg (by decide)
    have hfebruary : marchYear y 2 = y - 1 := if_pos (by decide)
    have hmonths : monthFirst (marchMonth (2 + 1)) = 0 ∧ monthFirst (marchMonth 2) = 337 := ⟨rfl, rfl⟩
    rw [Int.sub_add_cancel] at hyear
    rw [hmarch, hfebruary]; omega
  · rw [daysInMonth_of_ne_two y h1 (by omega) hfeb]
    have hy : marchYear y (m + 1) = marchYear y m := by unfold marchYear; split_ifs <;> omega
    have hm : marchMonth (m + 1) = marchMonth m + 1 := by unfold marchMonth; split_ifs <;> omega
    rw [hy, hm]; omega

theorem daysFromCivil_next_year (y : Int) :
    daysFromCivil (y + 1) 1 1 = daysFromCivil y 12 1 + daysInMonth y 12 := by
  rw [daysFromCivil_eq, daysFromCivil_eq, daysInMonth_of_ne_two y (by decide) (by decide) (by decide)]
  have hy : marchYear (y + 1) 1 = marchYear y 12 := by simp [marchYear]
  have hm : marchMonth 1 = marchMonth 12 + 1 := rfl
  rw [hy, hm]; omega

/-- A valid date with no next day in its month is the last of the month. -/
theorem eq_daysInMonth_of_last {y m d : Int} (h : validDate y m d = true) (hlast : validDate y m (d + 1) = false) :
    d = daysInMonth y m := by
  obtain ⟨hm, h1, hd⟩ := (validDate_iff y m d).1 h
  have hnot : ¬ ((1 ≤ m ∧ m ≤ 12) ∧ 1 ≤ d + 1 ∧ d + 1 ≤ daysInMonth y m) := by
    rw [← validDate_iff, hlast]; decide
  omega

theorem weekday_succ (z : Int) : weekday z ≤ 6 ∧ weekday (z + 1) = (weekday z + 1) % 7 := by
  unfold weekday; omega

/-- Settles O23: a day is followed by the next one of its month, or by the first of the next month or year. -/
theorem dayCountFollowsTheCalendar : Obligations.DayCountFollowsTheCalendar := by
  refine ⟨by decide, fun y m d h => ⟨fun _ => ?_, fun hlast hm => ?_, fun hlast hm => ?_⟩, by decide, weekday_succ⟩
  · rw [daysFromCivil_day y m d, daysFromCivil_day y m (d + 1)]; omega
  · obtain ⟨⟨h1, _⟩, _⟩ := (validDate_iff y m d).1 h
    rw [daysFromCivil_next_month y h1 hm, daysFromCivil_day y m d, eq_daysInMonth_of_last h hlast]; omega
  · subst hm
    rw [daysFromCivil_next_year, daysFromCivil_day y 12 d, eq_daysInMonth_of_last h hlast]; omega

/-! ### Every day has a date -/

theorem daysInMonth_ge (y : Int) {m : Int} (h1 : 1 ≤ m) (h12 : m ≤ 12) : 28 ≤ daysInMonth y m := by
  by_cases hfeb : m = 2
  · subst hfeb; exact (daysInMonth_two_bounds y).1
  · rw [daysInMonth_of_ne_two y h1 h12 hfeb]; unfold monthFirst; omega

/-- A valid day comes before the first of the next month, counted from March. -/
theorem monthFirst_add_le {y m d : Int} (h : validDate y m d = true) :
    monthFirst (marchMonth m) + d ≤ monthFirst (marchMonth m + 1) := by
  obtain ⟨⟨h1, h12⟩, _, hd⟩ := (validDate_iff y m d).1 h
  by_cases hfeb : m = 2
  · subst hfeb
    have hlast : monthFirst (marchMonth 2) + 30 = monthFirst (marchMonth 2 + 1) := rfl
    have := daysInMonth_two_bounds y
    omega
  · have := daysInMonth_of_ne_two y h1 h12 hfeb
    omega

theorem validDate_first (y : Int) {m : Int} (h1 : 1 ≤ m) (h12 : m ≤ 12) : validDate y m 1 = true := by
  have := daysInMonth_ge y h1 h12
  rw [validDate_iff]; omega

/-- The day after a valid date is a valid date. -/
theorem exists_validDate_succ {y m d : Int} (h : validDate y m d = true) :
    ∃ y' m' d', validDate y' m' d' = true ∧ daysFromCivil y' m' d' = daysFromCivil y m d + 1 := by
  obtain ⟨_, hcalendar, _, _⟩ := dayCountFollowsTheCalendar
  obtain ⟨hnext, hmonth, hyear⟩ := hcalendar y m d h
  obtain ⟨⟨h1, h12⟩, _⟩ := (validDate_iff y m d).1 h
  by_cases hlast : validDate y m (d + 1) = false
  · rcases Int.lt_or_eq_of_le h12 with hm | hm
    · exact ⟨y, m + 1, 1, validDate_first y (by omega) (by omega), hmonth hlast hm⟩
    · exact ⟨y + 1, 1, 1, validDate_first (y + 1) (by decide) (by decide), hyear hlast hm⟩
  · rw [Bool.not_eq_false] at hlast
    exact ⟨y, m, d + 1, hlast, hnext hlast⟩

theorem daysFromCivil_newYear (y : Int) : daysFromCivil y 1 1 = marchFirst (y - 1) - 719162 := by
  have hmonth : monthFirst (marchMonth 1) = 306 := rfl
  rw [daysFromCivil_eq, hmonth, marchYear, if_pos (by decide)]; omega

theorem exists_validDate_add (y : Int) (n : Nat) :
    ∃ y' m' d', validDate y' m' d' = true ∧ daysFromCivil y' m' d' = daysFromCivil y 1 1 + n := by
  induction n with
  | zero => exact ⟨y, 1, 1, validDate_first y (by decide) (by decide), (Int.add_zero _).symm⟩
  | succ n ih =>
    obtain ⟨y₁, m₁, d₁, hvalid, hdays⟩ := ih
    obtain ⟨y₂, m₂, d₂, hvalid₂, hdays₂⟩ := exists_validDate_succ hvalid
    exact ⟨y₂, m₂, d₂, hvalid₂, by omega⟩

/-- Going on day by day from a 1 January that is early enough. -/
theorem exists_validDate (z : Int) : ∃ y m d, validDate y m d = true ∧ daysFromCivil y m d = z := by
  have hstart : daysFromCivil (min z 1970) 1 1 ≤ z := by
    rw [daysFromCivil_newYear]; unfold marchFirst; omega
  obtain ⟨y, m, d, hvalid, hdays⟩ := exists_validDate_add (min z 1970) (z - daysFromCivil (min z 1970) 1 1).toNat
  exact ⟨y, m, d, hvalid, by omega⟩

/-! ### From the day back to the date -/

/-- Day `doy` of year `yoe` of an era of 400 years: taking the leap days out of the day of the era leaves whole years of
365 days (`yoe` of R129). The proof counts in centuries, in leap periods of four years and in years. -/
theorem yearOfEra_eq {yoe doy doe : Int} (hyoe : 0 ≤ yoe ∧ yoe ≤ 399) (hdoy : 0 ≤ doy ∧ doy ≤ 365)
    (hleap : doy = 365 → isLeap (yoe + 1) = true)
    (hdoe : doe = yoe * 365 + yoe / 4 - yoe / 100 + doy) :
    (doe - doe / 1460 + doe / 36524 - doe / 146096) / 365 = yoe := by
  rw [isLeap_iff] at hleap
  obtain ⟨c, q, r, hyear, hc, hq, hr⟩ : ∃ c q r : Int, yoe = 100 * c + 4 * q + r ∧
      (0 ≤ c ∧ c ≤ 3) ∧ (0 ≤ q ∧ q ≤ 24) ∧ (0 ≤ r ∧ r ≤ 3) :=
    ⟨yoe / 100, yoe % 100 / 4, yoe % 4, by omega, by omega, by omega, by omega⟩
  replace hleap : doy = 365 → r = 3 ∧ (q = 24 → c = 3) := by omega
  replace hdoe : doe = 36524 * c + 1461 * q + 365 * r + doy := by omega
  have hcentury : doe / 36524 - doe / 146096 = c := by
    have hlast : doe = 146096 ∧ c = 3 ∨ doe ≤ 36524 * c + 36523 ∧ doe < 146096 := by omega
    rcases hlast with ⟨h, _⟩ | ⟨_, hlt⟩
    · rw [h]; omega
    · have : doe / 146096 = 0 := by omega
      omega
  have hlower : 25 * c + q + doy - 364 ≤ doe / 1460 := by omega
  have hupper : doe / 1460 ≤ 25 * c + q + doy := by omega
  omega

/-- Day `doy` of year `yoe` of era `era`, through the steps of R129. -/
theorem civilFromDays_era {era yoe doy mp d : Int} (hyoe : 0 ≤ yoe ∧ yoe ≤ 399) (hmp : 0 ≤ mp ∧ mp ≤ 11) (hd : 1 ≤ d)
    (hmonth : monthFirst mp + d ≤ monthFirst (mp + 1)) (hfeb : mp = 11 → d ≤ daysInMonth (yoe + 1) 2)
    (hdoy : doy = monthFirst mp + (d - 1)) :
    civilFromDays (era * 146097 + (yoe * 365 + yoe / 4 - yoe / 100 + doy) - 719468) =
      (if mp < 10 then yoe + era * 400 else yoe + era * 400 + 1, if mp < 10 then mp + 3 else mp - 9, d) := by
  rw [daysInMonth_two] at hfeb
  unfold monthFirst at hmonth hdoy
  have hbounds : 0 ≤ doy ∧ doy ≤ 365 := by omega
  have hleap : doy = 365 → isLeap (yoe + 1) = true := by
    rw [isLeap_iff]; split_ifs at hfeb <;> omega
  obtain ⟨doe, hdoe⟩ : ∃ doe, doe = yoe * 365 + yoe / 4 - yoe / 100 + doy := ⟨_, rfl⟩
  have hyear := yearOfEra_eq hyoe hbounds hleap hdoe
  have hrange : 0 ≤ doe ∧ doe ≤ 146096 := by
    rw [isLeap_iff] at hleap; omega
  have hera : (era * 146097 + doe) / 146097 = era := by omega
  have hday : doe - (365 * yoe + yoe / 4 - yoe / 100) = doy := by omega
  have hmonthOf : (5 * doy + 2) / 153 = mp := by omega
  have hdayOf : doy - (153 * mp + 2) / 5 + 1 = d := by omega
  rw [← hdoe]
  simp only [civilFromDays, Int.sub_add_cancel, hera, add_sub_cancel_left, hyear, hday, hmonthOf, hdayOf]
  refine Prod.ext ?_ rfl
  dsimp only
  split_ifs <;> omega

/-- R129 undoes R128. -/
theorem civilFromDays_daysFromCivil {y m d : Int} (h : validDate y m d = true) :
    civilFromDays (daysFromCivil y m d) = (y, m, d) := by
  obtain ⟨⟨h1, h12⟩, hd1, hd⟩ := (validDate_iff y m d).1 h
  obtain ⟨era, yoe, hyoe, hy⟩ : ∃ era yoe : Int, (0 ≤ yoe ∧ yoe ≤ 399) ∧ marchYear y m = yoe + era * 400 :=
    ⟨marchYear y m / 400, marchYear y m % 400, by omega, by omega⟩
  have hmp : 0 ≤ marchMonth m ∧ marchMonth m ≤ 11 := by unfold marchMonth; split_ifs <;> omega
  have hmonth := monthFirst_add_le h
  have hlast : marchMonth m = 11 → d ≤ daysInMonth (yoe + 1) 2 := by
    intro hmarch
    have hm : m = 2 := by unfold marchMonth at hmarch; split_ifs at hmarch <;> omega
    rw [hm, daysInMonth_two] at hd
    rw [hm, marchYear, if_pos (by decide)] at hy
    rw [daysInMonth_two]
    split_ifs at hd ⊢ <;> omega
  calc civilFromDays (daysFromCivil y m d)
      = civilFromDays (era * 146097 +
          (yoe * 365 + yoe / 4 - yoe / 100 + (monthFirst (marchMonth m) + (d - 1))) - 719468) := by
        rw [daysFromCivil_eq, hy, marchFirst_era era hyoe]; congr 1; omega
    _ = (y, m, d) := by
        rw [civilFromDays_era hyoe hmp hd1 hmonth hlast rfl, ← hy]
        unfold marchYear marchMonth
        ext <;> dsimp only <;> split_ifs <;> omega

/-- Settles O24: every day has a valid date, and `CivilFromDays` finds it. -/
theorem calendarFunctionsAreInverse : Obligations.CalendarFunctionsAreInverse := by
  refine ⟨fun z => ?_, fun y m d => civilFromDays_daysFromCivil⟩
  obtain ⟨y, m, d, hvalid, rfl⟩ := exists_validDate z
  rw [civilFromDays_daysFromCivil hvalid]
  exact ⟨hvalid, rfl⟩

/-! ### The sign of the count -/

theorem daysFromCivil_newYear_mono {y z : Int} (h : y ≤ z) : daysFromCivil y 1 1 ≤ daysFromCivil z 1 1 := by
  rw [daysFromCivil_newYear, daysFromCivil_newYear]
  rcases Int.lt_or_eq_of_le h with hlt | rfl
  · unfold marchFirst; omega
  · exact Int.le_refl _

/-- A valid date lies between 1 January of its year and that of the next. -/
theorem daysFromCivil_year_bounds {y m d : Int} (h : validDate y m d = true) :
    daysFromCivil y 1 1 ≤ daysFromCivil y m d ∧ daysFromCivil y m d < daysFromCivil (y + 1) 1 1 := by
  obtain ⟨⟨h1, h12⟩, hd1, _⟩ := (validDate_iff y m d).1 h
  have hlast := monthFirst_add_le h
  rw [daysFromCivil_newYear, daysFromCivil_newYear, daysFromCivil_eq, Int.add_sub_cancel]
  have hyear := marchFirst_succ (y - 1)
  have hfeb := daysInMonth_two_bounds (y - 1 + 1)
  rw [Int.sub_add_cancel] at hyear hfeb
  unfold monthFirst marchMonth marchYear at *
  split_ifs at * <;> omega

/-- The count is not negative exactly from the year 1970 on. -/
theorem daysFromCivil_nonneg_iff {y m d : Int} (h : validDate y m d = true) :
    0 ≤ daysFromCivil y m d ↔ 1970 ≤ y := by
  obtain ⟨hfrom, hto⟩ := daysFromCivil_year_bounds h
  have hepoch : daysFromCivil 1970 1 1 = 0 := by decide
  constructor
  · intro hdays
    by_contra hbefore
    have := daysFromCivil_newYear_mono (y := y + 1) (z := 1970) (by omega)
    omega
  · intro hyear
    have := daysFromCivil_newYear_mono hyear
    omega

end Sys2Proof.Machine
end

section
/-! SUPPORT. The packed date-time, alarm and timer values against their bytes (40_bcd_codec.md R132, R135 to R139). -/

namespace Sys2Proof.Machine

/-! ### The flag in bit 7 of a byte: voltage low (R132), century (R125, R135) -/

theorem getLsbD_seven (b : Byte) : b.getLsbD 7 = decide (128 ≤ b.toNat) := by
  have := b.isLt
  rw [BitVec.getLsbD, Nat.testBit_eq_decide_div_mod_eq, decide_eq_decide]
  omega

theorem clearFlag_toNat (b : Byte) : (b &&& ~~~ 0x80#8).toNat = b.toNat % 128 := by
  have hmask : (~~~ 0x80#8 : Byte).toNat = 2 ^ 7 - 1 := by decide
  rw [BitVec.toNat_and, hmask, Nat.and_two_pow_sub_one_eq_mod]

theorem clearFlag_of_clear {b : Byte} (h : b.getLsbD 7 = false) : b &&& ~~~ 0x80#8 = b := by
  rw [getLsbD_seven, decide_eq_false_iff_not] at h
  apply BitVec.eq_of_toNat_eq
  rw [clearFlag_toNat]; omega

theorem centuryBit_toNat (year : Nat) : (centuryBit year).toNat = 0 ∨ (centuryBit year).toNat = 128 := by
  unfold centuryBit; split
  · exact .inl rfl
  · exact .inr rfl

theorem or_centuryBit_toNat {b : Byte} (h : b.toNat < 128) (year : Nat) :
    (b ||| centuryBit year).toNat = b.toNat + (centuryBit year).toNat := by
  rw [BitVec.toNat_or]
  rcases centuryBit_toNat year with hclear | hset
  · rw [hclear, Nat.or_zero, Nat.add_zero]
  · rw [hset, Nat.or_comm, Nat.add_comm]
    exact (Nat.two_pow_add_eq_or_of_lt (i := 7) h 1).symm

/-- The month is read back without the century flag written with it (D25). -/
theorem clearFlag_or_centuryBit {b : Byte} (h : b.toNat < 128) (year : Nat) :
    (b ||| centuryBit year) &&& ~~~ 0x80#8 = b := by
  have := centuryBit_toNat year
  apply BitVec.eq_of_toNat_eq
  rw [clearFlag_toNat, or_centuryBit_toNat h]; omega

/-- The month byte with its flag cleared and written again is the same where the flag is the year's. -/
theorem clearFlag_or_centuryBit_of_flag {b : Byte} {year : Nat} (h : b.getLsbD 7 = (centuryBit year).getLsbD 7) :
    (b &&& ~~~ 0x80#8) ||| centuryBit year = b := by
  rw [getLsbD_seven, getLsbD_seven, decide_eq_decide] at h
  have hclear := clearFlag_toNat b
  have := centuryBit_toNat year
  apply BitVec.eq_of_toNat_eq
  rw [or_centuryBit_toNat (by omega), hclear]; omega

/-- Two digits of less than eighty leave bit 7 clear. -/
theorem toNat_lt_of_bcd2bin8_lt {b : Byte} (h : validBcd8 b = true) (hlt : bcd2bin8 b < 80) : b.toNat < 128 := by
  obtain ⟨_, h0⟩ := (validBcd8_iff b).1 h
  rw [bcd2bin8] at hlt
  rw [byte_toNat_nibbles]; omega

/-! ### The parts of a valid date-time (R130) -/

/-- `ValidDT` taken apart. -/
structure ValidFields (date : Date) (time : Time) : Prop where
  year : validBcd16 (dateYear date) = true
  month : validBcd8 (dateMonth date) = true
  day : validBcd8 (dateDay date) = true
  hour : validBcd8 (timeHour time) = true
  minute : validBcd8 (timeMinute time) = true
  second : validBcd8 (timeSecond time) = true
  date : validDate (bcd2bin16 (dateYear date)) (bcd2bin8 (dateMonth date)) (bcd2bin8 (dateDay date)) = true
  hour_le : bcd2bin8 (timeHour time) ≤ 23
  minute_le : bcd2bin8 (timeMinute time) ≤ 59
  second_le : bcd2bin8 (timeSecond time) ≤ 59

theorem validFields_of_validDT {date : Date} {time : Time} (h : validDT date time = true) : ValidFields date time := by
  simp only [validDT, Bool.and_eq_true, decide_eq_true_eq] at h
  obtain ⟨⟨⟨⟨⟨⟨⟨⟨⟨hyear, hmonth⟩, hday⟩, hhour⟩, hminute⟩, hsecond⟩, hdate⟩, hhour_le⟩, hminute_le⟩, hsecond_le⟩ := h
  exact ⟨hyear, hmonth, hday, hhour, hminute, hsecond, hdate, hhour_le, hminute_le, hsecond_le⟩

/-- The century flag of a date is bit 7 of its month byte (R96). -/
theorem dateCentury_eq (date : Date) : dateCentury date = (dateMonthByte date).getLsbD 7 := by
  simp [dateCentury, dateMonthByte]

theorem flag_of_consistentFlag {date : Date} (h : consistentFlag date = true) :
    (dateMonthByte date).getLsbD 7 = (centuryBit (bcd2bin16 (dateYear date))).getLsbD 7 := by
  rw [← dateCentury_eq]; exact beq_iff_eq.1 h

/-- The month written with the year's century flag is the month byte of a date whose flag is consistent (R135). -/
theorem dateMonth_or_centuryBit {date : Date} (h : consistentFlag date = true) :
    dateMonth date ||| centuryBit (bcd2bin16 (dateYear date)) = dateMonthByte date :=
  clearFlag_or_centuryBit_of_flag (flag_of_consistentFlag h)

/-- The low byte of a word holds its last two digits. -/
theorem nibble_lowByte (v : BitVec 16) :
    nibble (v.extractLsb' 0 8) 1 = nibble v 1 ∧ nibble (v.extractLsb' 0 8) 0 = nibble v 0 := by
  simp only [nibble_eq, extract_toNat, Nat.reduceMul, Nat.reducePow]; omega

/-- The year byte to write holds the last two of the four digits (R135). -/
theorem lowByte_bin2bcd16 (year : Nat) : (bin2bcd16 year).extractLsb' 0 8 = bin2bcd8 (year % 100) := by
  obtain ⟨h1, h0⟩ := nibble_lowByte (bin2bcd16 year)
  obtain ⟨_, _, g1, g0⟩ := bin2bcd16_digits year
  obtain ⟨f1, f0⟩ := bin2bcd8_digits (year % 100)
  apply BitVec.eq_of_toNat_eq
  rw [byte_toNat_nibbles, byte_toNat_nibbles (bin2bcd8 _), h1, h0, g1, g0, f1, f0]; omega

theorem dateYearByte_eq (date : Date) : dateYearByte date = (dateYear date).extractLsb' 0 8 := by
  apply BitVec.eq_of_toNat_eq
  simp only [dateYearByte, dateYear, extract_toNat]; omega

theorem dateYearByte_eq_bin2bcd8 {date : Date} (h : validBcd16 (dateYear date) = true) :
    dateYearByte date = bin2bcd8 (bcd2bin16 (dateYear date) % 100) := by
  rw [← lowByte_bin2bcd16, bin2bcd16_bcd2bin16 h, dateYearByte_eq]

/-! ### The time burst -/

theorem decodeYear_lt (y : Byte) (c : Bool) : decodeYear y c < 10000 := by
  obtain ⟨_, h, _⟩ := yearDecoding y c; omega

/-- A valid year byte and its century flag are written back as read. -/
theorem decodeYear_written {y : Byte} (c : Bool) (h : validBcd8 y = true) :
    bin2bcd8 (decodeYear y c % 100) = y ∧ (centuryBit (decodeYear y c)).getLsbD 7 = c := by
  have hdigits := bcd2bin8_le_of_valid h
  have hmod : decodeYear y c % 100 = bcd2bin8 y := by unfold decodeYear; split <;> omega
  refine ⟨by rw [hmod, bin2bcd8_bcd2bin8 h], ?_⟩
  rw [centuryBit_flag, decodeYear]
  cases c
  · rw [decide_eq_false_iff_not, if_neg (by decide)]; omega
  · rw [decide_eq_true_eq, if_pos rfl]; omega

/-- Settles O27: the year and the century flag are those the year byte was decoded with, the other bytes are fields. -/
theorem registersRoundTripThroughTheCodec : Obligations.RegistersRoundTripThroughTheCodec := by
  intro rb hyear hvl _
  obtain ⟨hdigits, hflag⟩ := decodeYear_written (rb[7].getLsbD 7) hyear
  have hyear4 : bcd2bin16 (dateYear (burstDate rb)) = decodeYear rb[8] (rb[7].getLsbD 7) := by
    rw [dateYear_burst, bcd2bin16_bin2bcd16, Nat.mod_eq_of_lt (decodeYear_lt _ _)]
  have hsecond : timeSecond (burstTime rb) = rb[2] := by
    rw [timeSecond_burst]; exact clearFlag_of_clear hvl
  have hmonth : dateMonth (burstDate rb) ||| centuryBit (bcd2bin16 (dateYear (burstDate rb))) = rb[7] := by
    rw [hyear4, dateMonth, dateMonthByte_burst]; exact clearFlag_or_centuryBit_of_flag hflag.symm
  have hyearByte : dateYearByte (burstDate rb) = rb[8] := by
    rw [burstDate, dateYearByte_packed, lowByte_bin2bcd16, hdigits]
  simp only [decodeBurst, encodeBurst, hsecond, hmonth, hyearByte, timeMinute_burst, timeHour_burst, dateDay_burst]

/-- A valid date-time of 2000 .. 2199 is decoded from the bytes it is written as (R139 (e)). -/
theorem decodeBurst_of_encodeBurst {rb : Vector Byte 9} {date : Date} {time : Time} (hvalid : validDT date time = true)
    (hflag : consistentFlag date = true)
    (hyear : 2000 ≤ bcd2bin16 (dateYear date) ∧ bcd2bin16 (dateYear date) ≤ 2199)
    (hbytes : encodeBurst date time = [rb[2], rb[3], rb[4], rb[5], rb[6], rb[7], rb[8]]) :
    decodeBurst rb = (date, time) := by
  have hfields := validFields_of_validDT hvalid
  rw [encodeBurst, dateMonth_or_centuryBit hflag] at hbytes
  simp only [List.cons.injEq] at hbytes
  obtain ⟨hsecond, hminute, hhour, hday, _, hmonth, hyearByte, _⟩ := hbytes
  have hyear4 : decodeYear rb[8] (rb[7].getLsbD 7) = bcd2bin16 (dateYear date) := by
    rw [← hyearByte, ← hmonth, flag_of_consistentFlag hflag, dateYearByte_eq_bin2bcd8 hfields.year]
    exact (yearIsReadBackInTwoCenturies _).2 hyear
  have hdate : burstDate rb = date := by
    apply date_ext
    · rw [dateYear_burst, hyear4, bin2bcd16_bcd2bin16 hfields.year]
    · rw [dateMonthByte_burst, hmonth]
    · rw [dateDay_burst, hday]
  have htime : burstTime rb = time := by
    apply time_ext
    · rw [timeHour_burst, hhour]
    · rw [timeMinute_burst, hminute]
    · have hlt := toNat_lt_of_bcd2bin8_lt hfields.second (by have := hfields.second_le; omega)
      rw [timeSecond_burst, ← hsecond]
      exact clearFlag_of_clear (by rw [getLsbD_seven, decide_eq_false_iff_not]; omega)
  rw [decodeBurst, hdate, htime]

/-- A field of a date-time result above bit 32 is a field of the date (R98). -/
theorem extract_dateTimeResult_date (date : Date) (time : Time) (i w : Nat) :
    (dateTimeResult date time).extractLsb' (32 + i) w = date.extractLsb' i w := by
  have h := BitVec.extractLsb'_append_eq_of_le (xhi := date) (xlo := (0#8 ++ time : BitVec 32)) (len := w)
    (Nat.le_add_right 32 i)
  rw [Nat.add_sub_cancel_left] at h
  exact h

/-- A field of a date-time result below bit 32 is a field of the time and the zero byte above it (R98). -/
theorem extract_dateTimeResult_time (date : Date) (time : Time) {i w : Nat} (h : i + w ≤ 32) :
    (dateTimeResult date time).extractLsb' i w = (0#8 ++ time : BitVec 32).extractLsb' i w :=
  BitVec.extractLsb'_append_eq_of_add_le h

theorem extract_zeroByte_time (time : Time) {i w : Nat} (h : i + w ≤ 24) :
    (0#8 ++ time : BitVec 32).extractLsb' i w = time.extractLsb' i w :=
  BitVec.extractLsb'_append_eq_of_add_le h

/-- Settles O28: every byte of the result is a field of the date or of the time. -/
theorem timeReadGivesItsFields : Obligations.TimeReadGivesItsFields := by
  intro rb
  have hyear : (dateTimeResult (burstDate rb) (burstTime rb)).extractLsb' 48 16 =
      bin2bcd16 (decodeYear rb[8] (rb[7].getLsbD 7)) :=
    (extract_dateTimeResult_date _ _ 16 16).trans (dateYear_burst rb)
  have hzero : (0#8 ++ burstTime rb : BitVec 32).extractLsb' 24 8 = 0x00#8 := BitVec.extractLsb'_append_eq_left
  have htime {i : Nat} (h : i + 8 ≤ 24) : (dateTimeResult (burstDate rb) (burstTime rb)).extractLsb' i 8 =
      (burstTime rb).extractLsb' i 8 := by
    rw [extract_dateTimeResult_time _ _ (by omega), extract_zeroByte_time _ h]
  refine ⟨?_, ?_, ?_, ?_, ?_, ?_, ?_, ?_⟩
  · rw [hyear]; exact validBcd16_bin2bcd16 _
  · rw [hyear, bcd2bin16_bin2bcd16, Nat.mod_eq_of_lt (decodeYear_lt _ _)]
  · exact (extract_dateTimeResult_date _ _ 8 8).trans (dateMonthByte_burst rb)
  · exact (extract_dateTimeResult_date _ _ 0 8).trans (dateDay_burst rb)
  · rw [extract_dateTimeResult_time _ _ (by decide), hzero]
  · exact (htime (by decide)).trans (timeHour_burst rb)
  · exact (htime (by decide)).trans (timeMinute_burst rb)
  · exact (htime (by decide)).trans (timeSecond_burst rb)

/-! ### Alarm and timer values -/

/-- The four bytes of an alarm value put together again (R136, R137). -/
theorem bytesToAlarm_extract (a : BitVec 32) :
    bytesToAlarm (a.extractLsb' 8 8) (a.extractLsb' 16 8) (a.extractLsb' 24 8) (a.extractLsb' 0 8) = a := by
  have := a.isLt
  apply BitVec.eq_of_toNat_eq
  simp only [bytesToAlarm_toNat, extract_toNat]; omega

theorem bytesToAlarm_and (b0 b1 b2 b3 mask : Byte) :
    bytesToAlarm b0 b1 b2 (b3 &&& mask) = bytesToAlarm b0 b1 b2 b3 &&& bytesToAlarm 0xFF#8 0xFF#8 0xFF#8 mask := by
  have hones (b : Byte) : b &&& 0xFF#8 = b := BitVec.and_allOnes
  have hlow := BitVec.and_append (x₁ := b0) (x₂ := 0xFF#8) (y₁ := b3) (y₂ := mask)
  have hhigh := BitVec.and_append (x₁ := b2) (x₂ := 0xFF#8) (y₁ := b1) (y₂ := 0xFF#8)
  have hall := BitVec.and_append (x₁ := b2 ++ b1) (x₂ := 0xFF#8 ++ 0xFF#8) (y₁ := b0 ++ b3) (y₂ := 0xFF#8 ++ mask)
  rw [hlow, hhigh, hones, hones, hones] at hall
  exact hall.symm

/-- A byte of a value, cut out of it as a number. -/
theorem extract_eq_ofNat {n : Nat} (v : BitVec n) (i : Nat) : v.extractLsb' i 8 = BitVec.ofNat 8 (v.toNat / 2 ^ i) := by
  apply BitVec.eq_of_toNat_eq
  rw [extract_toNat, BitVec.toNat_ofNat]

theorem lowByte_eq_ofNat {n : Nat} (v : BitVec n) : v.extractLsb' 0 8 = BitVec.ofNat 8 v.toNat := by
  rw [extract_eq_ofNat, Nat.pow_zero, Nat.div_one]

/-- Settles O29: the bytes are the fields of the value, and bit 3 is masked in the weekday byte only. -/
theorem alarmPacking : Obligations.AlarmPacking := by
  refine ⟨fun a => ⟨_, _, _, _, rfl, ?_, ?_, ?_, ?_, ?_⟩, bytesToAlarm_toNat⟩
  · exact extract_toNat a 8 8
  · exact extract_toNat a 16 8
  · have := a.isLt
    rw [extract_toNat]; omega
  · rw [lowByte_eq_ofNat]; rfl
  · rw [bytesToAlarm_and, bytesToAlarm_extract]; rfl

/-- Settles O30: a timer value is its two bytes. -/
theorem timerPacking : Obligations.TimerPacking := by
  refine ⟨fun v => ?_, bytesToTimer_toNat⟩
  have hvalue : BitVec.ofNat 8 v.toNat = BitVec.ofNat 8 (v.toNat % 0x100) := by
    apply BitVec.eq_of_toNat_eq
    rw [BitVec.toNat_ofNat, BitVec.toNat_ofNat, Nat.mod_mod]
  rw [timerToBytes, extract_eq_ofNat, lowByte_eq_ofNat, hvalue]; rfl

end Sys2Proof.Machine
end

section
/-! SUPPORT. The epoch conversion (40_bcd_codec.md R133, R134): a count of seconds is a day and a second of the day. -/

namespace Sys2Proof.Machine

/-! ### The two parts of a count -/

/-- The second of the day (R133). -/
def secondOfDay (time : Time) : Nat :=
  bcd2bin8 (timeHour time) * 3600 + bcd2bin8 (timeMinute time) * 60 + bcd2bin8 (timeSecond time)

theorem bcdToSeconds_eq (date : Date) (time : Time) :
    bcdToSeconds date time = dateDays date * 86400 + secondOfDay time := by
  unfold bcdToSeconds secondOfDay; push_cast; omega

/-- A count of seconds that fits the width is not truncated (R133). -/
theorem bcdToEpoch_of_lt {epochW : Nat} {date : Date} {time : Time} {days : Nat} (hdays : dateDays date = days)
    (hfits : days * 86400 + secondOfDay time < 2 ^ epochW) :
    bcdToEpoch epochW date time = days * 86400 + secondOfDay time := by
  have hseconds : bcdToSeconds date time = ((days * 86400 + secondOfDay time : Nat) : Int) := by
    rw [bcdToSeconds_eq, hdays]; push_cast; rfl
  rw [bcdToEpoch, hseconds, ← Int.natCast_mod, Int.toNat_natCast, Nat.mod_eq_of_lt hfits]

/-- The fields of the date of a count (R134). -/
theorem epochToBcd_date {t : Nat} {y m d : Int} (h : civilFromDays ((t / 86400 : Nat) : Int) = (y, m, d)) :
    dateYear (epochToBcd t).1 = bin2bcd16 y.toNat ∧
      dateMonthByte (epochToBcd t).1 = bin2bcd8 m.toNat ||| centuryBit y.toNat ∧
      dateDay (epochToBcd t).1 = bin2bcd8 d.toNat := by
  rw [epochToBcd, h]
  exact ⟨dateYear_packed .., dateMonthByte_packed .., dateDay_packed ..⟩

/-- The fields of the time of a count (R134). -/
theorem epochToBcd_time (t : Nat) :
    timeHour (epochToBcd t).2 = bin2bcd8 (t % 86400 / 3600) ∧
      timeMinute (epochToBcd t).2 = bin2bcd8 (t % 86400 % 3600 / 60) ∧
      timeSecond (epochToBcd t).2 = bin2bcd8 (t % 86400 % 60) :=
  ⟨timeHour_packed .., timeMinute_packed .., timeSecond_packed ..⟩

/-! ### From the date-time to the count and back -/

theorem secondOfDay_lt {date : Date} {time : Time} (h : ValidFields date time) : secondOfDay time < 86400 := by
  have := h.hour_le; have := h.minute_le; have := h.second_le
  unfold secondOfDay; omega

theorem epochToBcd_date_eq {date : Date} {time : Time} {t : Nat} (h : ValidFields date time)
    (hflag : consistentFlag date = true) (hdays : dateDays date = (t / 86400 : Nat)) : (epochToBcd t).1 = date := by
  have hcivil := civilFromDays_daysFromCivil h.date
  rw [← dateDays, hdays] at hcivil
  obtain ⟨hyear, hmonth, hday⟩ := epochToBcd_date hcivil
  rw [Int.toNat_natCast] at hyear hday
  rw [Int.toNat_natCast, Int.toNat_natCast] at hmonth
  apply date_ext
  · rw [hyear, bin2bcd16_bcd2bin16 h.year]
  · rw [hmonth, bin2bcd8_bcd2bin8 h.month, dateMonth_or_centuryBit hflag]
  · rw [hday, bin2bcd8_bcd2bin8 h.day]

theorem epochToBcd_time_eq {date : Date} {time : Time} {t : Nat} (h : ValidFields date time)
    (hsecond : secondOfDay time = t % 86400) : (epochToBcd t).2 = time := by
  have := h.minute_le; have := h.second_le
  obtain ⟨hh, hm, hs⟩ := epochToBcd_time t
  rw [← hsecond] at hh hm hs
  apply time_ext
  · have hhour : secondOfDay time / 3600 = bcd2bin8 (timeHour time) := by unfold secondOfDay; omega
    rw [hh, hhour, bin2bcd8_bcd2bin8 h.hour]
  · have hminute : secondOfDay time % 3600 / 60 = bcd2bin8 (timeMinute time) := by unfold secondOfDay; omega
    rw [hm, hminute, bin2bcd8_bcd2bin8 h.minute]
  · have hsecond : secondOfDay time % 60 = bcd2bin8 (timeSecond time) := by unfold secondOfDay; omega
    rw [hs, hsecond, bin2bcd8_bcd2bin8 h.second]

/-- Settles O25: the count is not truncated, and its two parts are the day and the second of the day it was made of. -/
theorem dateTimeRoundTripsThroughEpoch : Obligations.DateTimeRoundTripsThroughEpoch := by
  intro epochW date time _ _ hvalid hflag hyear hfits
  have hfields := validFields_of_validDT hvalid
  have hlt := secondOfDay_lt hfields
  have hnonneg : 0 ≤ dateDays date := (daysFromCivil_nonneg_iff hfields.date).2 (by omega)
  obtain ⟨days, hdays⟩ := Int.eq_ofNat_of_zero_le hnonneg
  rw [bcdToEpoch_of_lt hdays (by omega)]
  have hdate := epochToBcd_date_eq (t := days * 86400 + secondOfDay time) hfields hflag (by omega)
  have htime := epochToBcd_time_eq (t := days * 86400 + secondOfDay time) hfields (by omega)
  exact Prod.ext hdate htime

/-! ### From the count to the date-time and back -/

theorem secondOfDay_epochToBcd (t : Nat) : secondOfDay (epochToBcd t).2 = t % 86400 := by
  obtain ⟨hhour, hminute, hsecond⟩ := epochToBcd_time t
  rw [secondOfDay, hhour, hminute, hsecond, bcd2bin8_bin2bcd8, bcd2bin8_bin2bcd8, bcd2bin8_bin2bcd8]; omega

/-- The day of a count whose year has four digits. -/
theorem dateDays_epochToBcd {t : Nat} (hyear : (civilFromDays ((t / 86400 : Nat) : Int)).1 ≤ 9999) :
    dateDays (epochToBcd t).1 = (t / 86400 : Nat) := by
  obtain ⟨y, m, d, hvalid, hdays⟩ := exists_validDate ((t / 86400 : Nat) : Int)
  have hcivil := civilFromDays_daysFromCivil hvalid
  rw [hdays] at hcivil
  rw [hcivil] at hyear
  obtain ⟨⟨h1, h12⟩, hd1, _⟩ := (validDate_iff y m d).1 hvalid
  have hd31 : d ≤ 31 := by
    have := monthFirst_add_le hvalid
    unfold monthFirst at this; omega
  have hy1970 : 1970 ≤ y := (daysFromCivil_nonneg_iff hvalid).1 (by omega)
  obtain ⟨hy, hm, hd⟩ := epochToBcd_date hcivil
  have hmonth : dateMonth (epochToBcd t).1 = bin2bcd8 m.toNat := by
    rw [dateMonth, hm]
    exact clearFlag_or_centuryBit
      (toNat_lt_of_bcd2bin8_lt (validBcd8_bin2bcd8 _) (by rw [bcd2bin8_bin2bcd8]; omega)) _
  rw [← hdays, dateDays, hy, hmonth, hd, bcd2bin16_bin2bcd16, bcd2bin8_bin2bcd8, bcd2bin8_bin2bcd8]
  congr 1 <;> omega

/-- Settles O26: the date-time has the day and the second of the day of the count it was made of. -/
theorem epochRoundTripsThroughDateTime : Obligations.EpochRoundTripsThroughDateTime := by
  intro epochW t _ _ ht hyear
  have hcount : t / 86400 * 86400 + secondOfDay (epochToBcd t).2 = t := by
    rw [secondOfDay_epochToBcd]; omega
  rw [bcdToEpoch_of_lt (dateDays_epochToBcd hyear) (by rw [hcount]; exact ht), hcount]

end Sys2Proof.Machine
end

section
/-! SUPPORT. `ADJUST` followed by `NOW 0` on a chip that acknowledges and does not tick (42_time.md R172 corner (d)). -/

namespace Sys2Proof.Machine

/-! ### What each of the two commands does there -/

/-- A successful register write leaves a quiet chip's registers holding the bytes (R59). -/
theorem State.read_writtenChip {s : State} {reg : Byte} {bytes : List Byte} (hwf : s.chip.wf)
    (hq : s.Quiet (bytes.length + 4)) (hcode : (s.moveAt (bytes.length + 3)).code = 0#8)
    (hmap : reg.toNat + bytes.length ≤ Memory.size) {i : Nat} (hi : i < bytes.length) :
    (s.writtenChip reg bytes).read (reg.toNat + i) = some bytes[i] := by
  rw [State.writtenChip_quiet reg bytes s hq, Memory.read_store_landed _ _ _ _ _ hwf hmap,
    if_pos ⟨by omega, by omega, .inl hcode⟩, Nat.add_sub_cancel_left, List.getElem?_eq_getElem hi]

/-- A successful time read delivers what a quiet chip's registers hold (R60, R170). -/
theorem State.burst_getElem {s : State} (hq : s.Quiet 14) (hcode : (s.moveAt 3).code = 0#8)
    (hcount : (s.moveAt 4).code = 9#8) {i : Nat} (hi : i < 9) {b : Byte} (hread : s.chip.read i = some b) :
    s.burst[i] = b := by
  have hreg : (0x00#8 + BitVec.ofNat 8 i).toNat = i := by
    rw [BitVec.zero_add, BitVec.toNat_ofNat]; omega
  rw [State.burst, Vector.getElem_ofFn, State.sample, if_pos ⟨hcode, by rw [hcount]; rfl⟩, hreg,
    State.tickedChip_quiet s 14 hq _ (by omega), hread, Option.getD_some]

theorem encodeBurst_length (date : Date) (time : Time) : (encodeBurst date time).length = 7 := rfl

theorem exec_adjust_next {s : State} (date : Date) (time : Time) (h : s.Ready) (hr : s.Returns 11) :
    exec (.adjust date time) s = .next { (s.accept (.adjust date time)).afterWrite 0x02#8 (encodeBurst date time) with
      res := if (s.moveAt 10).code = 0#8 then 1#64 else 0#64, seq := .idle } := by
  have hpresent : exec (.adjust date time) s =
      .next ((s.accept (.adjust date time)).writeCommand 0x02#8 (encodeBurst date time)) :=
    State.present_ready _ _ _ s h
  have hwrite := State.writeCommand_eq 0x02#8 (encodeBurst date time) (s.accept (.adjust date time)) h.1.2
    (encodeBurst_length date time).le (State.accept_returns (.adjust date time) s 11 hr)
  rw [hpresent, hwrite, State.accept_moveAt, encodeBurst_length]

/-- `ADJUST` leaves the seven bytes in registers 0x02 .. 0x08 of a quiet chip, and the block ready (R172). -/
theorem exec_adjust_stores {s : State} (date : Date) (time : Time) (h : s.Ready) (hwf : s.chip.wf) (hr : s.Returns 11)
    (hq : s.Quiet 11) (hcode : (s.moveAt 10).code = 0#8) :
    ∃ t, exec (.adjust date time) s = .next t ∧ t.Ready ∧ t.moves = s.moves.drop 11 ∧
      t.freeMoves = s.freeMoves + (11 - s.moves.length) ∧
      ∀ i, (hi : i < 7) → t.chip.read (2 + i) = some (encodeBurst date time)[i] :=
  ⟨_, exec_adjust_next date time h hr, ⟨⟨rfl, h.1.2⟩, h.2⟩, rfl, rfl, fun _ hi =>
    State.read_writtenChip (s := s.accept (.adjust date time)) (reg := 0x02#8) (bytes := encodeBurst date time)
      hwf hq hcode (Nat.le_of_ble_eq_true rfl) hi⟩

theorem exec_now_once_next {s u : State} (hu : u = { s.accept (.now false) with prevValid := false }) (h : s.Ready)
    (hr : s.Returns 14) :
    exec (.now false) s = .next { u.afterBurst with
      res := dateTimeResult (burstDate u.burst) (burstTime u.burst), seq := .idle } := by
  have hpresent : exec (.now false) s = .next (State.timePass false nowResult u) := by
    rw [hu]; exact State.present_ready _ _ _ s h
  have hhung : u.hung = false := by rw [hu]; exact h.1.2
  have hreturns : u.Returns 14 := by rw [hu]; exact hr
  rcases State.timePass_cases false nowResult u hhung with ⟨_, hpass⟩ | ⟨k, hstuck⟩
  · rw [hpresent, hpass, State.settle_eq _ _ u.afterBurst hhung, if_pos (.inl rfl)]; rfl
  · have hreturn := hreturns k (hstuck.early.trans_eq (State.readTrace_length ..))
    rw [hstuck.stops] at hreturn
    cases hreturn

/-- The result of `NOW 0` is decoded from what the registers of a quiet chip hold (R170). -/
theorem exec_now_once_reads {s : State} (h : s.Ready) (hr : s.Returns 14) (hq : s.Quiet 14)
    (hcode : (s.moveAt 3).code = 0#8) (hcount : (s.moveAt 4).code = 9#8) :
    ∃ (t : State) (rb : Vector Byte 9), exec (.now false) s = .next t ∧
      t.res = dateTimeResult (burstDate rb) (burstTime rb) ∧
      ∀ i b, (hi : i < 9) → s.chip.read i = some b → rb[i] = b := by
  obtain ⟨u, hu⟩ : ∃ u : State, u = { s.accept (.now false) with prevValid := false } := ⟨_, rfl⟩
  refine ⟨_, u.burst, exec_now_once_next hu h hr, rfl, fun i b hi hread => ?_⟩
  subst hu
  exact State.burst_getElem hq hcode hcount hi hread

/-! ### One after the other -/

/-- Settles O60: the seven bytes `ADJUST` stores are what `NOW 0` reads and decodes. -/
theorem adjustedTimeIsReadBack : Obligations.AdjustedTimeIsReadBack := by
  intro s date time hready hwf hr hq hwrite haddress hcount hvalid hflag hfrom hto
  obtain ⟨t, hadjust, htready, hmoves, hfree, hstored⟩ :=
    exec_adjust_stores date time hready hwf (hr.mono (by decide)) (hq.mono (by decide)) hwrite
  obtain ⟨t', rb, hnow, hres, hread⟩ := exec_now_once_reads htready (hr.shift hmoves hfree) (hq.shift hmoves hfree)
    (by rw [State.moveAt_drop 11 hmoves hfree]; exact haddress)
    (by rw [State.moveAt_drop 11 hmoves hfree]; exact hcount)
  refine ⟨t, t', hadjust, hnow, ?_⟩
  have hbyte (i : Nat) (hi : i < 7) : rb[2 + i] = (encodeBurst date time)[i] := hread _ _ (by omega) (hstored i hi)
  have hbytes : encodeBurst date time = [rb[2], rb[3], rb[4], rb[5], rb[6], rb[7], rb[8]] := by
    rw [hbyte 0 (by decide), hbyte 1 (by decide), hbyte 2 (by decide), hbyte 3 (by decide), hbyte 4 (by decide),
      hbyte 5 (by decide), hbyte 6 (by decide)]
    rfl
  obtain ⟨hdate, htime⟩ := Prod.mk.inj (decodeBurst_of_encodeBurst hvalid hflag ⟨hfrom, hto⟩ hbytes)
  rw [hres, hdate, htime]

end Sys2Proof.Machine
end

section
/-! SUPPORT. The initialisation and status commands (41_init_status.md R150 to R155) where all their calls return: the
flag a status byte is tested for, the encoding of a command without operand, and the state each command leaves. -/

namespace Sys2Proof.Machine

/-! ### Flags -/

theorem boolResult_eq (b : Bool) : boolResult b = if b then 1#64 else 0#64 := by cases b <;> rfl

/-- A mask of one bit tests that bit. -/
theorem flagSet_twoPow (b : Byte) {i : Nat} (hi : i < 8) : flagSet (BitVec.twoPow 8 i) b = b.getLsbD i := by
  have hmask : BitVec.twoPow 8 i ≠ 0#8 := fun h => by
    have hbit := congrArg (BitVec.getLsbD · i) h
    simp [hi] at hbit
  rw [flagSet, BitVec.and_twoPow]
  cases b.getLsbD i <;> simp [hmask]

theorem flagSet_afMask (b : Byte) : flagSet Config.afMask b = b.getLsbD 3 := flagSet_twoPow b (i := 3) (by decide)

theorem flagSet_tfMask (b : Byte) : flagSet Config.tfMask b = b.getLsbD 2 := flagSet_twoPow b (i := 2) (by decide)

/-- The clock runs unless bit 5 of CS1, the STOP bit, is set (R153). -/
theorem running_eq (b : Byte) : running b = !b.getLsbD 5 := by
  have hstop : flagSet Config.stopMask b = b.getLsbD 5 := flagSet_twoPow b (i := 5) (by decide)
  rw [← hstop, flagSet, bne, Bool.not_not, running]

theorem boolResult_running (b : Byte) : boolResult (running b) = if b.getLsbD 5 then 0#64 else 1#64 := by
  rw [running_eq, boolResult_eq]
  cases b.getLsbD 5 <;> rfl

/-! ### Encoding -/

/-- A command that names no operand bit is known by its opcode (R93). -/
theorem decode_of_opcode {w : Cmd} {i : Instr} (hop : opField w = i.opcode) (hwf : i.wellFormed = true)
    (hnone : usedOperandBits Config.epochWidth i.opcode = 0#64) : decode w = .ok i := by
  have hword : opField (encode i) = i.opcode := opField_mkCmd _ _
  have hsame : decode w = decode (encode i) :=
    decode_congr (hop.trans hword.symm) (by rw [hword, hop, hnone, BitVec.and_zero, BitVec.and_zero])
  exact hsame.trans (decodeOfEncodeIsTheCommand i hwf)

/-! ### The status commands -/

/-- A status command (R152 to R155): the state after the status read, with the result `v` takes from it. -/
theorem State.present_status_ready {i : Instr} {s : State} (v : State → Word) (h : s.Ready) (hr : s.Returns 7) :
    s.present i true (fun u => u.refreshStatus.ret v) =
      .next { (s.accept i).afterStatus with res := v (s.accept i).afterStatus, seq := .idle } := by
  have hhung : (s.accept i).hung = false := h.1.2
  rw [State.present_ready _ _ _ s h, State.refreshStatus_eq _ hhung (State.accept_returns i s 7 hr),
    State.ret_eq _ _ (by exact hhung)]

/-- Settles O33: the result is the cached CS2, which is the second byte read. -/
theorem getStatusCachesAndReturnsCs2 : Obligations.GetStatusCachesAndReturnsCs2 := by
  refine ⟨fun w hop => decode_of_opcode hop rfl rfl, fun s h hr => ?_⟩
  unfold exec execGetstatus
  exact State.present_status_ready _ h hr

/-- Settles O34: the result tests the cached CS1, which is the first byte read. -/
theorem isRunningTestsStop : Obligations.IsRunningTestsStop := by
  refine ⟨fun w hop => decode_of_opcode hop rfl rfl, fun s h hr => ?_⟩
  unfold exec execIsrunning
  dsimp only
  rw [State.present_status_ready _ h hr, boolResult_running]
  rfl

/-- Settles O35: the result tests the cached CS2, which is the second byte read. -/
theorem isAlarmTestsAlarmFlag : Obligations.IsAlarmTestsAlarmFlag := by
  refine ⟨fun w hop => decode_of_opcode hop rfl rfl, fun s h hr => ?_⟩
  unfold exec execIsalarm
  dsimp only
  rw [State.present_status_ready _ h hr, boolResult_eq, flagSet_afMask]
  rfl

/-- Settles O36: the result tests the cached CS2, which is the second byte read. -/
theorem isTimerTestsTimerFlag : Obligations.IsTimerTestsTimerFlag := by
  refine ⟨fun w hop => decode_of_opcode hop rfl rfl, fun s h hr => ?_⟩
  unfold exec execIstimer
  dsimp only
  rw [State.present_status_ready _ h hr, boolResult_eq, flagSet_tfMask]
  rfl

/-! ### `RESET` -/

/-- A command that is one register write (R59): the state after the write, and whether the error code is 0. -/
theorem State.present_write_ready {i : Instr} {s : State} (reg : Byte) {bytes : List Byte} (h : s.Ready)
    (hl : bytes.length ≤ 7) (hr : s.Returns (bytes.length + 4)) :
    s.present i true (fun u => u.writeCommand reg bytes) = .next { (s.accept i).afterWrite reg bytes with
      res := if (s.moveAt (bytes.length + 3)).code = 0#8 then 1#64 else 0#64, seq := .idle } := by
  rw [State.present_ready _ _ _ s h,
    State.writeCommand_eq reg bytes (s.accept i) h.1.2 hl (State.accept_returns i s _ hr), State.accept_moveAt]

/-- Settles O32: one register write of two zeros. -/
theorem resetWritesTwoZeros : Obligations.ResetWritesTwoZeros :=
  fun _ h hr => State.present_write_ready 0x00#8 h (by decide) hr

/-! ### `BEGIN` -/

theorem exec_begin_idle (speed : BitVec 32) (address : Byte) {s : State} (h : s.Idle) :
    exec (.begin speed address) s = .next ((s.accept (.begin speed address)).setUp speed address).finishBegin := by
  unfold exec execBegin
  exact State.present_idle _ _ s h

/-- A `BEGIN` that finds a `SPEED` of 0 makes one call before it stores the new one. -/
theorem State.setUp_init (speed : BitVec 32) (address : Byte) {s : State} (hs : s.hung = false)
    (h0 : s.speed = 0#32) (hr : (s.moveAt 0).returns = true) :
    s.setUp speed address = { s.afterInit with addr := address, speed := speed } := by
  have hinit : s.tInit = s.afterInit := by
    rcases State.tInit_cases s hs with ⟨_, e⟩ | hstuck
    · exact e
    · exact absurd hr (by simp [hstuck.stops])
  rw [State.setUp, if_pos h0, hinit, State.live_eq _ _ (by exact hs)]

/-- A `BEGIN` that finds another `SPEED` makes no call before it stores the new one. -/
theorem State.setUp_skip (speed : BitVec 32) (address : Byte) {s : State} (hs : s.hung = false)
    (h0 : s.speed ≠ 0#32) :
    s.setUp speed address = { s with seq := s.seq.advance, addr := address, speed := speed } := by
  rw [State.setUp, if_neg h0, State.skipInit, State.live_eq _ _ hs, State.live_eq _ _ (by exact hs)]

/-- The rest of `BEGIN` is a status read of the STOP bit. -/
theorem State.finishBegin_eq {s : State} (hs : s.hung = false) (hr : s.Returns 7) :
    s.finishBegin = { s.afterStatus with
      begun := true
      res := if (s.sample 0x00#8 2 0).getLsbD 5 then 0#64 else 1#64
      seq := .idle } := by
  rw [State.finishBegin, State.refreshStatus_eq s hs hr, State.live_eq _ _ (by exact hs),
    State.ret_eq _ _ (by exact hs), boolResult_running]
  rfl

/-- Settles O31, by whether the old `SPEED` is 0: `T_INIT()` uses up one move before the status read, or none is used. -/
theorem beginInitialisesAndReportsRunning : Obligations.BeginInitialisesAndReportsRunning := by
  intro s speed address h hr
  have hhung : (s.accept (.begin speed address)).hung = false := h.2
  rw [exec_begin_idle speed address h]
  by_cases h0 : s.speed = 0#32
  · simp only [if_pos h0] at hr ⊢
    have hreturns := State.accept_returns (.begin speed address) s (1 + 7) hr
    rw [State.setUp_init speed address hhung h0 (hreturns 0 (by decide))]
    exact congrArg Host.Outcome.next (State.finishBegin_eq hhung (hreturns.shift rfl rfl))
  · simp only [if_neg h0] at hr ⊢
    rw [State.setUp_skip speed address hhung h0]
    exact congrArg Host.Outcome.next (State.finishBegin_eq hhung hr)

end Sys2Proof.Machine
end

section
/-! SUPPORT. What the status commands, `BEGIN` and the one-write commands leave unchanged, whether their calls return or
not (41_init_status.md R150 to R155): frames of the pieces they are made of, put together. -/

namespace Sys2Proof.Machine

/-- What holds before and after a step of the block holds after it, be a call outstanding that never returns or not. -/
theorem State.live_of {p : State → Prop} {f : State → State} {s : State} (h : p s) (hf : p (f s)) : p (s.live f) := by
  unfold State.live
  split
  · exact h
  · exact hf

/-! ### Frames of a status read -/

/-- What only the time commands and the writing commands touch is the same, and so are the host's inputs. -/
structure State.SameRest (s t : State) : Prop where
  cs3c : t.cs3c = s.cs3c
  wb : t.wb = s.wb
  curDate : t.curDate = s.curDate
  curTime : t.curTime = s.curTime
  prevDate : t.prevDate = s.prevDate
  prevValid : t.prevValid = s.prevValid
  host : t.host = s.host

theorem State.SameRest.trans {s t u : State} (h : s.SameRest t) (g : t.SameRest u) : s.SameRest u :=
  ⟨g.cs3c.trans h.cs3c, g.wb.trans h.wb, g.curDate.trans h.curDate, g.curTime.trans h.curTime,
    g.prevDate.trans h.prevDate, g.prevValid.trans h.prevValid, g.host.trans h.host⟩

theorem State.SameBlock.sameRest {s t : State} (h : s.SameBlock t) : s.SameRest t :=
  ⟨h.cs3c, h.wb, h.curDate, h.curTime, h.prevDate, h.prevValid, h.host⟩

theorem State.SameRest.ret {s t : State} (h : s.SameRest t) (v : State → Word) : s.SameRest (t.ret v) :=
  State.live_of (p := s.SameRest) h (h.trans ⟨rfl, rfl, rfl, rfl, rfl, rfl, rfl⟩)

/-- A register read changes no block register but `rb`, `err`, `avail` and `SEQ` (R60). -/
theorem State.memRead_sameBlock (reg : Byte) (n : Nat) (s : State) : s.SameBlock (s.memRead reg n) := by
  by_cases hh : s.hung = true
  · rw [State.memRead_hung _ _ _ hh]
    exact .rfl' s
  · rcases State.memRead_cases reg n s (by simpa using hh) with ⟨_, e⟩ | ⟨k, hstuck⟩
    · rw [e]
      constructor <;> rfl
    · exact hstuck.same

theorem State.refreshStatus_sameRest (s : State) : s.SameRest s.refreshStatus := by
  have hread := (s.memRead_sameBlock Config.regCs1 2).sameRest
  exact State.live_of (p := s.SameRest) hread (hread.trans ⟨rfl, rfl, rfl, rfl, rfl, rfl, rfl⟩)

/-- The four status commands are a status read and a result (R152 to R155). -/
theorem exec_eq_status {i : Instr} (hi : i ∈ [Instr.getstatus, .isrunning, .isalarm, .istimer]) (s : State) :
    isBegin i = false ∧ ∃ v, exec i s = s.present i true fun u => u.refreshStatus.ret v := by
  simp only [List.mem_cons, List.not_mem_nil, or_false] at hi
  rcases hi with rfl | rfl | rfl | rfl <;> exact ⟨rfl, _, rfl⟩

/-- Settles O51: the status read keeps what a transaction keeps, and touches only the first two bytes of the cache. -/
theorem statusCommandsKeepTheRest : Obligations.StatusCommandsKeepTheRest := by
  intro i s t hi h
  obtain ⟨hbegin, v, hexec⟩ := exec_eq_status hi s
  have setup : s.SameSetup t := (exec_transacts hbegin h).setup
  obtain ⟨_, _, rfl⟩ := State.present_next (hexec.symm.trans h)
  have rest := (State.refreshStatus_sameRest (s.accept i)).ret v
  exact ⟨setup.addr, setup.speed, rest.cs3c, rest.wb, rest.curDate, rest.curTime, rest.prevDate, rest.prevValid,
    setup.busInit, rest.host, setup.begun⟩

/-! ### The frame of `BEGIN` -/

theorem State.tInit_sameRest (s : State) : s.SameRest s.tInit := by
  by_cases hh : s.hung = true
  · rw [State.tInit, State.transport_hung _ _ _ _ hh]
    exact (State.SameBlock.rfl' s).sameRest
  · rcases State.tInit_cases s (by simpa using hh) with ⟨_, e⟩ | hstuck
    · rw [e]
      exact ⟨rfl, rfl, rfl, rfl, rfl, rfl, rfl⟩
    · exact hstuck.same.sameRest

theorem State.setUp_sameRest (speed : BitVec 32) (address : Byte) (s : State) : s.SameRest (s.setUp speed address) := by
  have hinit : s.SameRest (if s.speed = 0#32 then s.tInit else s.skipInit) := by
    split
    · exact s.tInit_sameRest
    · exact State.live_of (p := s.SameRest) (State.SameBlock.rfl' s).sameRest ⟨rfl, rfl, rfl, rfl, rfl, rfl, rfl⟩
  exact State.live_of (p := s.SameRest) hinit (hinit.trans ⟨rfl, rfl, rfl, rfl, rfl, rfl, rfl⟩)

theorem State.finishBegin_sameRest (s : State) : s.SameRest s.finishBegin := by
  have hstatus := s.refreshStatus_sameRest
  have hrecord := State.live_of (p := s.SameRest) (f := fun u => { u with begun := true }) hstatus
    (hstatus.trans ⟨rfl, rfl, rfl, rfl, rfl, rfl, rfl⟩)
  exact hrecord.ret _

/-- Settles O55: neither the first part of `BEGIN` nor its status read touches the rest. -/
theorem beginKeepsTheRest : Obligations.BeginKeepsTheRest := by
  intro speed address s t h
  obtain rfl := execBegin_next h
  obtain ⟨hcs3c, hwb, hcurDate, hcurTime, hprevDate, hprevValid, hhost⟩ :=
    (State.setUp_sameRest speed address (s.accept (.begin speed address))).trans (State.finishBegin_sameRest _)
  exact ⟨hcs3c, hwb, hcurDate, hcurTime, hprevDate, hprevValid, hhost⟩

/-! ### The frame of a register write -/

/-- What reads of the chip delivered is the same, and so are the host's inputs. -/
structure State.SameReadings (s t : State) : Prop where
  cs1c : t.cs1c = s.cs1c
  cs2c : t.cs2c = s.cs2c
  cs3c : t.cs3c = s.cs3c
  rb : t.rb = s.rb
  avail : t.avail = s.avail
  curDate : t.curDate = s.curDate
  curTime : t.curTime = s.curTime
  prevDate : t.prevDate = s.prevDate
  prevValid : t.prevValid = s.prevValid
  host : t.host = s.host

theorem State.SameReadings.refl (s : State) : s.SameReadings s := by constructor <;> rfl

theorem State.SameReadings.trans {s t u : State} (h : s.SameReadings t) (g : t.SameReadings u) : s.SameReadings u :=
  ⟨g.cs1c.trans h.cs1c, g.cs2c.trans h.cs2c, g.cs3c.trans h.cs3c, g.rb.trans h.rb, g.avail.trans h.avail,
    g.curDate.trans h.curDate, g.curTime.trans h.curTime, g.prevDate.trans h.prevDate,
    g.prevValid.trans h.prevValid, g.host.trans h.host⟩

theorem State.SameReadings.ret {s t : State} (h : s.SameReadings t) (v : State → Word) : s.SameReadings (t.ret v) := by
  refine State.live_of (p := s.SameReadings) h (h.trans ?_)
  constructor <;> rfl

theorem State.takeMove_sameReadings (s : State) : s.SameReadings s.takeMove := by constructor <;> simp

/-- A transport call keeps the readings if its effect does, whether it returns or not. -/
theorem State.transport_sameReadings {call : Call} {answer : State → EnvMove → Answer}
    {effect : State → EnvMove → State} (s : State) (heffect : ∀ (u : State) m, u.SameReadings (effect u m)) :
    s.SameReadings (s.transport call answer effect) := by
  have htake := s.takeMove_sameReadings
  have hreturned := htake.trans (heffect s.takeMove (s.moveAt 0))
  refine State.live_of (p := s.SameReadings) (.refl s) ?_
  dsimp only
  split
  · exact hreturned.trans (by constructor <;> rfl)
  · exact htake.trans (by constructor <;> rfl)

theorem State.land_sameReadings (m : EnvMove) (s : State) : s.SameReadings (s.land m) := by
  unfold State.land
  split
  · exact .refl s
  · constructor <;> rfl

theorem State.tWrite_sameReadings (b : Byte) (s : State) : s.SameReadings (s.tWrite b) :=
  s.transport_sameReadings fun _ _ => by constructor <;> rfl

theorem State.tEnd_sameReadings (stop : Bool) (s : State) : s.SameReadings (s.tEnd stop) :=
  s.transport_sameReadings fun u m => (u.land_sameReadings m).trans (by constructor <;> rfl)

theorem State.writeAll_sameReadings (bytes : List Byte) (s : State) : s.SameReadings (State.writeAll bytes s) := by
  induction bytes generalizing s with
  | nil => exact .refl s
  | cons b bytes ih => exact (s.tWrite_sameReadings b).trans (ih _)

/-- The calls of a register write (R59), one after the other. -/
theorem State.memWrite_sameReadings (reg : Byte) (n : Nat) (s : State) : s.SameReadings (s.memWrite reg n) := by
  have hclock : s.SameReadings s.tSetClock := s.transport_sameReadings fun u _ => .refl u
  have hopen : s.tSetClock.SameReadings s.tSetClock.tBegin :=
    State.transport_sameReadings _ fun _ _ => by constructor <;> rfl
  have haddress := (hclock.trans hopen).trans (State.tWrite_sameReadings reg _)
  exact (haddress.trans (State.writeAll_sameReadings _ _)).trans (State.tEnd_sameReadings true _)

theorem State.writeCommand_sameReadings (reg : Byte) (bytes : List Byte) (s : State) :
    s.SameReadings (s.writeCommand reg bytes) := by
  have hload : s.SameReadings (s.loadWb bytes) :=
    State.live_of (p := s.SameReadings) (.refl s) (by constructor <;> rfl)
  exact (hload.trans (State.memWrite_sameReadings reg bytes.length _)).ret _

/-- The six one-write commands (R151, R172, R173, R192, R194, R196). -/
theorem exec_eq_write {date : Date} {time : Time} {n : Word} {a : BitVec 32} {v : BitVec 16} {b : Byte} {i : Instr}
    (hi : i ∈ [Instr.reset, .adjust date time, .adjuste n, .setalarm a, .settimer v, .setclockout b]) (s : State) :
    isBegin i = false ∧ ∃ reg bytes, exec i s = s.present i true fun u => u.writeCommand reg bytes := by
  simp only [List.mem_cons, List.not_mem_nil, or_false] at hi
  rcases hi with rfl | rfl | rfl | rfl | rfl | rfl <;> exact ⟨rfl, _, _, rfl⟩

/-- Settles O53: one write keeps what a transaction keeps, and reads nothing. -/
theorem writingCommandsKeepTheRest : Obligations.WritingCommandsKeepTheRest := by
  intro date time n a v b i s t hi h
  obtain ⟨hbegin, reg, bytes, hexec⟩ := exec_eq_write hi s
  have setup : s.SameSetup t := (exec_transacts hbegin h).setup
  obtain ⟨_, _, rfl⟩ := State.present_next (hexec.symm.trans h)
  have readings := (s.accept i).writeCommand_sameReadings reg bytes
  exact ⟨setup.addr, setup.speed, readings.cs1c, readings.cs2c, readings.cs3c, readings.rb, readings.avail,
    readings.curDate, readings.curTime, readings.prevDate, readings.prevValid, setup.busInit, readings.host,
    setup.begun⟩

end Sys2Proof.Machine
end

section
/-! SUPPORT. The time commands (42_time.md R170 to R173) where all their calls return: what one pass of the loop of R170
leaves, the states of `NOW`, `EPOCH`, `ADJUST` and `ADJUSTE` put together from it, and the frame of `NOW` and `EPOCH`. -/

namespace Sys2Proof.Machine

/-! ### One pass of the loop -/

/-- The command ends with the burst just read (R170). -/
def State.endPass (v : State → Word) (s : State) : State := { s.afterBurst with res := v s.afterBurst, seq := .idle }

/-- The date just read is kept and the loop goes back (R170). -/
def State.goBack (s : State) : State :=
  { s.afterBurst with prevDate := burstDate s.burst, prevValid := true, seq := .run 0 }

@[simp] theorem State.goBack_op (s : State) : s.goBack.op = s.op := rfl
@[simp] theorem State.goBack_arg (s : State) : s.goBack.arg = s.arg := rfl
@[simp] theorem State.goBack_hung (s : State) : s.goBack.hung = s.hung := rfl
@[simp] theorem State.goBack_host (s : State) : s.goBack.host = s.host := rfl
@[simp] theorem State.goBack_moves (s : State) : s.goBack.moves = s.moves.drop 14 := rfl
@[simp] theorem State.goBack_freeMoves (s : State) :
    s.goBack.freeMoves = s.freeMoves + (14 - s.moves.length) := rfl

/-- In a transaction that is cut off some call never returns. -/
theorem State.Stuck.not_returns {calls : List Event} {k : Nat} {s t : State} (h : s.Stuck calls k t) :
    ¬ s.Returns calls.length := fun hr => by
  have hk := hr k h.early
  rw [h.stops] at hk
  cases hk

theorem State.timePass_eq {twice : Bool} {v : State → Word} {s : State} (hs : s.hung = false) (hr : s.Returns 14) :
    State.timePass twice v s =
      if twice = false ∨ (s.prevValid = true ∧ s.prevDate = burstDate s.burst) then s.endPass v else s.goBack := by
  rcases State.timePass_cases twice v s hs with ⟨_, hpass⟩ | ⟨k, hstuck⟩
  · rw [hpass, State.settle_eq _ _ s.afterBurst hs]
    rfl
  · exact absurd (by rwa [State.readTrace_length]) hstuck.not_returns

theorem State.timePass_once {v : State → Word} {s : State} (hs : s.hung = false) (hr : s.Returns 14) :
    State.timePass false v s = s.endPass v := by
  rw [State.timePass_eq hs hr, if_pos (.inl rfl)]

/-- Without a previous date a pass that looks for a second one goes back. -/
theorem State.timePass_first {v : State → Word} {s : State} (hs : s.hung = false) (hr : s.Returns 14)
    (hprev : s.prevValid = false) : State.timePass true v s = s.goBack := by
  rw [State.timePass_eq hs hr, if_neg (by simp [hprev])]

/-- With a previous date a pass compares the two. -/
theorem State.timePass_again {v : State → Word} {s : State} (hs : s.hung = false) (hr : s.Returns 14)
    (hprev : s.prevValid = true) :
    State.timePass true v s = if s.prevDate = burstDate s.burst then s.endPass v else s.goBack := by
  simp only [State.timePass_eq hs hr, hprev, true_and, Bool.true_eq_false, false_or]

/-! ### A later step -/

/-- A step of a looping command is one more pass (R30 (d)), its result the one of its opcode. -/
theorem step_of_looping {s : State} (hloop : s.Looping) (hs : s.hung = false) (hreset : s.host.head? ≠ some .reset) :
    step s = .next (State.timePass true (if s.op = 0x06#8 then nowResult else epochCountResult) s) := by
  obtain ⟨hseq, hop, hflag, _⟩ := hloop
  have hresume : step s = resume s := by
    rcases step_cases s with ⟨rest, hw, _⟩ | ⟨_, _, e⟩ | ⟨hidle, _, _⟩ | ⟨w, rest, hidle, _, _⟩
    · exact absurd (by rw [hw]; rfl) hreset
    · exact e
    · exact absurd (hseq.symm.trans hidle) nofun
    · exact absurd (hseq.symm.trans hidle) nofun
  rw [hresume, resume, if_neg (by simp [hs]), hflag]
  rcases hop with hop | hop <;> simp [hop]

/-- Settles O16: a looping command has a previous date, so its next pass compares. -/
theorem loopingStepMakesOnePass : Obligations.LoopingStepMakesOnePass := by
  intro s hloop hs hreset hr
  obtain ⟨_, hop, _, hprev⟩ := id hloop
  rw [step_of_looping hloop hs hreset, State.timePass_again hs hr hprev]
  rcases hop with hop | hop
  · rw [if_pos hop, if_pos hop]; rfl
  · have hne : s.op ≠ 0x06#8 := by rw [hop]; decide
    rw [if_neg hne, if_neg hne]; rfl

/-! ### `NOW` and `EPOCH` -/

theorem State.present_time_once {i : Instr} (v : State → Word) {s : State} (h : s.Ready) (hr : s.Returns 14) :
    s.present i true (fun u => u.timeCommand false v) =
      .next (State.endPass v { s.accept i with prevValid := false }) := by
  rw [State.present_ready _ _ _ s h]
  exact congrArg Host.Outcome.next
    (State.timePass_once (s := { s.accept i with prevValid := false }) h.1.2 (State.accept_returns i s 14 hr))

/-- The first of two passes goes back, so the second starts 14 moves later and compares with the date of the first. -/
theorem State.timeCommand_twice (v : State → Word) {s u : State} (hu : u = { s with prevValid := false })
    (hs : s.hung = false) (hr : s.Returns 28) :
    s.timeCommand true v =
      if burstDate u.burst = burstDate u.goBack.burst then u.goBack.endPass v else u.goBack.goBack := by
  have hhung : u.hung = false := by rw [hu]; exact hs
  have hreturns : u.Returns 28 := by rw [hu]; exact hr
  have hfirst : State.timePass true v u = u.goBack :=
    State.timePass_first hhung (hreturns.mono (by decide)) (by rw [hu])
  have hlater : u.goBack.Returns 14 := State.Returns.shift (n := 14) hreturns u.goBack_moves u.goBack_freeMoves
  calc s.timeCommand true v
      = State.timePass true v (State.timePass true v u) := by rw [hu]; rfl
    _ = State.timePass true v u.goBack := by rw [hfirst]
    _ = _ := State.timePass_again (u.goBack_hung.trans hhung) hlater rfl

theorem State.present_time_twice {i : Instr} (v : State → Word) {s u : State}
    (hu : u = { s.accept i with prevValid := false }) (h : s.Ready) (hr : s.Returns 28) :
    s.present i true (fun u => u.timeCommand true v) =
      .next (if burstDate u.burst = burstDate u.goBack.burst then u.goBack.endPass v else u.goBack.goBack) := by
  rw [State.present_ready _ _ _ s h,
    State.timeCommand_twice v hu (show (s.accept i).hung = false from h.1.2) (State.accept_returns i s 28 hr)]

/-- Settles O37: one pass, or two of which the second compares. -/
theorem nowReadsOnceOrUntilDatesAgree : Obligations.NowReadsOnceOrUntilDatesAgree :=
  fun _ h => ⟨State.present_time_once nowResult h, State.present_time_twice nowResult rfl h⟩

/-- Settles O38: the passes of `NOW`, with another result. -/
theorem epochConvertsTheTimeRead : Obligations.EpochConvertsTheTimeRead :=
  fun _ h => ⟨State.present_time_once epochCountResult h, State.present_time_twice epochCountResult rfl h⟩

/-! ### `ADJUST` and `ADJUSTE` -/

/-- Settles O39: one register write. -/
theorem adjustWritesTheEncodedTime : Obligations.AdjustWritesTheEncodedTime :=
  fun _ date time h hr => exec_adjust_next date time h hr

/-- Settles O40: one register write of the bytes that stand for the converted count. -/
theorem adjustEpochWritesTheConvertedCount : Obligations.AdjustEpochWritesTheConvertedCount :=
  fun _ _ h hr => State.present_write_ready 0x02#8 h (encodeBurst_length _ _).le hr

/-! ### The frame of `NOW` and `EPOCH` -/

/-- The write buffer and the host's inputs are the same. -/
structure State.SameWbHost (s t : State) : Prop where
  wb : t.wb = s.wb
  host : t.host = s.host

theorem State.SameWbHost.trans {s t u : State} (h : s.SameWbHost t) (g : t.SameWbHost u) : s.SameWbHost u :=
  ⟨g.wb.trans h.wb, g.host.trans h.host⟩

theorem State.settle_sameWbHost (twice : Bool) (v : State → Word) (s : State) : s.SameWbHost (s.settle twice v) := by
  unfold State.settle
  split
  · exact State.live_of (p := s.SameWbHost) ⟨rfl, rfl⟩ ⟨rfl, rfl⟩
  · exact ⟨rfl, rfl⟩

/-- A pass reads, caches and decides; none of the three writes or takes an input. -/
theorem State.timePass_sameWbHost (twice : Bool) (v : State → Word) (s : State) :
    s.SameWbHost (State.timePass twice v s) := by
  have hsame := s.memRead_sameBlock Config.regCs1 9
  have hread : s.SameWbHost (s.memRead Config.regCs1 9) := ⟨hsame.wb, hsame.host⟩
  have hcache : s.SameWbHost (s.memRead Config.regCs1 9).takeBurst := hread.trans ⟨rfl, rfl⟩
  exact State.live_of (p := s.SameWbHost) hread (hcache.trans (State.settle_sameWbHost twice v _))

theorem State.timeCommand_sameWbHost (twice : Bool) (v : State → Word) (s : State) :
    s.SameWbHost (s.timeCommand twice v) := by
  have hclear : s.SameWbHost { s with prevValid := false } := ⟨rfl, rfl⟩
  have hfirst := hclear.trans (State.timePass_sameWbHost twice v _)
  rw [State.timeCommand]
  split
  · exact hfirst.trans (State.timePass_sameWbHost twice v _)
  · exact hfirst

/-- `NOW` and `EPOCH` are the loop of R170, with a result each. -/
theorem exec_eq_time {twice : Bool} {i : Instr} (hi : i ∈ [Instr.now twice, .epoch twice]) (s : State) :
    isBegin i = false ∧ ∃ v, exec i s = s.present i true fun u => u.timeCommand twice v := by
  simp only [List.mem_cons, List.not_mem_nil, or_false] at hi
  rcases hi with rfl | rfl <;> exact ⟨rfl, _, rfl⟩

/-- Settles O52: the passes keep what a transaction keeps, and write nothing. -/
theorem timeCommandsKeepTheRest : Obligations.TimeCommandsKeepTheRest := by
  intro twice i s t hi h
  obtain ⟨hbegin, v, hexec⟩ := exec_eq_time hi s
  have setup : s.SameSetup t := (exec_transacts hbegin h).setup
  obtain ⟨_, _, rfl⟩ := State.present_next (hexec.symm.trans h)
  have rest := (s.accept i).timeCommand_sameWbHost twice v
  exact ⟨setup.addr, setup.speed, rest.wb, setup.busInit, rest.host, setup.begun⟩

end Sys2Proof.Machine
end

section
/-! SUPPORT. The loop of `NOW 1` has no bound (42_time.md R170 corner (a), 70_reset_and_hazards.md R242): an environment
whose reads all fail, and deliver another byte in each pass than in the one before. -/

namespace Sys2Proof.Machine

/-! ### The environment -/

/-- A call that returns, with an error code, and delivers `b` where it is a `T_READ` (R58, R60). -/
def failedCall (b : Byte) : EnvMove := ⟨true, 2#8, b, 0, []⟩

/-- The moves of `n` failed time reads of 14 calls each, the first delivering `b` only, each later one the complement of
the byte before. -/
def unequalReads : Nat → Byte → List EnvMove
  | 0, _ => []
  | n + 1, b => List.replicate 14 (failedCall b) ++ unequalReads n (~~~ b)

theorem unequalReads_return (n : Nat) (b : Byte) : ∀ m ∈ unequalReads n b, m.returns = true := by
  induction n generalizing b with
  | zero => exact fun _ hm => absurd hm List.not_mem_nil
  | succ n ih =>
    intro m hm
    rcases List.mem_append.1 hm with hm | hm
    · rw [List.eq_of_mem_replicate hm]; rfl
    · exact ih _ m hm

theorem byte_ne_complement (b : Byte) : b ≠ ~~~ b := fun h => by
  have hbit := congrArg (BitVec.getLsbD · 0) h
  simp at hbit

/-- The coming `n` reads of `s` are such failed ones, and the first gives another date than the one kept, if there is
one. -/
structure State.FacesUnequalReads (n : Nat) (b : Byte) (s : State) : Prop where
  hung : s.hung = false
  moves : s.moves = unequalReads n b
  differs : s.prevValid = true → dateDay s.prevDate ≠ b

section
variable {n : Nat} {b : Byte} {s : State} (h : s.FacesUnequalReads (n + 1) b)
include h

theorem State.FacesUnequalReads.moves_eq :
    s.moves = List.replicate 14 (failedCall b) ++ unequalReads n (~~~ b) := h.moves

theorem State.FacesUnequalReads.moveAt {k : Nat} (hk : k < 14) : s.moveAt k = failedCall b := by
  have hlength : k < s.moves.length := by
    rw [h.moves_eq, List.length_append, List.length_replicate]; omega
  rw [State.moveAt, dif_pos hlength]
  simp only [h.moves_eq, List.getElem_append, List.length_replicate, hk, dif_pos, List.getElem_replicate]

theorem State.FacesUnequalReads.returns : s.Returns 14 := fun k hk => by rw [h.moveAt hk]; rfl

/-- The day of the date read is the byte the reads deliver (R60, R132). -/
theorem State.FacesUnequalReads.dateDay_burst : dateDay (burstDate s.burst) = b := by
  have hfailed : ¬ ((s.moveAt 3).code = 0#8 ∧ (s.moveAt 4).code.toNat = 9) := by
    rw [h.moveAt (by decide)]
    rintro ⟨hcode, _⟩
    cases hcode
  rw [Sys2Proof.Machine.dateDay_burst, State.burst, Vector.getElem_ofFn, State.sample, if_neg hfailed,
    h.moveAt (by decide)]
  rfl

/-- A pass in this environment goes back, and faces the reads that are left. -/
theorem State.FacesUnequalReads.timePass (v : State → Word) :
    State.timePass true v s = s.goBack ∧ s.goBack.FacesUnequalReads n (~~~ b) ∧
      s.goBack.freeMoves = s.freeMoves := by
  refine ⟨?_, ⟨s.goBack_hung.trans h.hung, ?_, fun _ => ?_⟩, ?_⟩
  · have hgo : ¬ (true = false ∨ (s.prevValid = true ∧ s.prevDate = burstDate s.burst)) := by
      rintro (hc | ⟨hprev, heq⟩)
      · cases hc
      · exact h.differs hprev (by rw [heq]; exact h.dateDay_burst)
    rw [State.timePass_eq h.hung h.returns, if_neg hgo]
  · rw [State.goBack_moves, h.moves_eq]
    exact List.drop_left' List.length_replicate
  · exact fun heq => byte_ne_complement b (h.dateDay_burst.symm.trans heq)
  · rw [State.goBack_freeMoves, h.moves_eq, List.length_append, List.length_replicate]
    omega

end

/-! ### The loop -/

/-- A looping command that goes back still loops. -/
theorem State.goBack_looping {s : State} (hop : s.op = 0x06#8 ∨ s.op = 0x07#8) (hflag : argFlag s.arg = true) :
    s.goBack.Looping := ⟨rfl, by rwa [State.goBack_op], by rwa [State.goBack_arg], rfl⟩

/-- One pass per step, for as many steps as there are such reads. -/
theorem run_of_facesUnequalReads (n : Nat) {b : Byte} {s : State} (h : s.FacesUnequalReads n b) (hloop : s.Looping)
    (hhost : s.host = []) :
    ∃ t, Host.Core.run core n s = .next t ∧ t.hung = false ∧ t.Looping ∧ t.freeMoves = s.freeMoves := by
  induction n generalizing b s with
  | zero => exact ⟨s, rfl, h.hung, hloop, rfl⟩
  | succ n ih =>
    have hstep := step_of_looping hloop h.hung (by rw [hhost]; nofun)
    obtain ⟨_, hop, hflag, _⟩ := hloop
    obtain ⟨hpass, hnext, hfree⟩ := h.timePass (if s.op = 0x06#8 then nowResult else epochCountResult)
    rw [hpass] at hstep
    obtain ⟨t, hrun, hhung, hlooping, hkept⟩ := ih hnext (State.goBack_looping hop hflag)
      (s.goBack_host.trans hhost)
    exact ⟨t, (run_succ_of_step n hstep).trans hrun, hhung, hlooping, hkept.trans hfree⟩

/-- The step that accepts `NOW 1` makes the first two passes (log 2). -/
theorem exec_now_of_facesUnequalReads {n : Nat} {b : Byte} {s : State} (hready : s.Ready)
    (h : s.FacesUnequalReads (n + 2) b) :
    ∃ t, exec (.now true) s = .next t ∧ t.FacesUnequalReads n (~~~ ~~~ b) ∧ t.Looping ∧ t.host = s.host ∧
      t.freeMoves = s.freeMoves := by
  obtain ⟨u, hu⟩ : ∃ u : State, u = { s.accept (.now true) with prevValid := false } := ⟨_, rfl⟩
  have hstart : u.FacesUnequalReads (n + 2) b := by
    rw [hu]; exact ⟨h.hung, h.moves, nofun⟩
  have hop : u.op = 0x06#8 := by rw [hu]; rfl
  have hflag : argFlag u.arg = true := by rw [hu]; exact argFlag_flagOperand true
  have hhost : u.goBack.goBack.host = s.host := by rw [State.goBack_host, State.goBack_host, hu]; rfl
  have hkept : u.freeMoves = s.freeMoves := by rw [hu]; rfl
  obtain ⟨hfirst, hsecond, hfree⟩ := hstart.timePass nowResult
  obtain ⟨hpass, hlater, hfree'⟩ := hsecond.timePass nowResult
  have hexec : exec (.now true) s = .next (State.timePass true nowResult (State.timePass true nowResult u)) := by
    rw [hu]; exact State.present_ready _ _ _ s hready
  rw [hfirst, hpass] at hexec
  exact ⟨_, hexec, hlater, State.goBack_looping (.inl hop) hflag, hhost,
    (hfree'.trans hfree).trans hkept⟩

/-- A block after a `BEGIN` to which the host presents `NOW 1`, with `n + 2` such reads to come. -/
def neverAgreeing (n : Nat) : State :=
  { State.reset with
    begun := true
    host := [.command (encode (.now true))]
    moves := unequalReads (n + 2) 1#8 }

/-- Settles O58: the step that accepts `NOW 1` uses up two of the reads, each of the `n` later steps one. -/
theorem nowMayLoopBeyondAnyBound : Obligations.NowMayLoopBeyondAnyBound := by
  intro n
  obtain ⟨t, hexec, hfaces, hloop, hhost, hfree⟩ :=
    exec_now_of_facesUnequalReads (n := n) (b := 1#8) (s := { neverAgreeing n with host := [] })
      ⟨⟨rfl, rfl⟩, rfl⟩ ⟨rfl, rfl, nofun⟩
  have hstep : step (neverAgreeing n) = .next t :=
    (step_of_decoded rfl rfl (decodeOfEncodeIsTheCommand (.now true) rfl)).trans hexec
  obtain ⟨t', hrun, hhung, hlooping, hkept⟩ := run_of_facesUnequalReads n hfaces hloop hhost
  exact ⟨neverAgreeing n, t', ⟨⟨rfl, rfl⟩, rfl⟩, rfl, unequalReads_return _ _, (run_succ_of_step n hstep).trans hrun,
    hhung, hlooping, hkept.trans hfree⟩

end Sys2Proof.Machine
end

section
/-! SUPPORT. The alarm, timer and clock-out commands (43_alarm_timer_clkout.md R190 to R197): the state each leaves where
all its calls return, and what the reading and the arming ones leave unchanged whether they return or not. -/

namespace Sys2Proof.Machine

/-! ### The writing commands -/

/-- Settles O43: one register write of the value's bytes. -/
theorem setAlarmWritesFourBytes : Obligations.SetAlarmWritesFourBytes :=
  ⟨fun w hop => by rw [decode, decodeAt, hop]; rfl,
    fun _ a h hr => State.present_write_ready 0x09#8 (bytes := alarmToBytes a) h (by simp [alarmToBytes]) hr⟩

/-- Settles O45: one register write of the value's bytes. -/
theorem setTimerWritesTwoBytes : Obligations.SetTimerWritesTwoBytes :=
  ⟨fun w hop => by rw [decode, decodeAt, hop]; rfl,
    fun _ v h hr => State.present_write_ready 0x0E#8 (bytes := timerToBytes v) h (by simp [timerToBytes]) hr⟩

/-- Settles O47: one register write of the byte. -/
theorem setClockOutWritesOneByte : Obligations.SetClockOutWritesOneByte :=
  ⟨fun w hop => by rw [decode, decodeAt, hop]; rfl,
    fun _ b h hr => State.present_write_ready 0x0D#8 (bytes := [b]) h (by simp) hr⟩

/-! ### The reading commands -/

/-- A command that is one register read (R60): the state after the read, with the result `v` takes from it. -/
theorem State.present_read_ready {i : Instr} {s : State} (reg : Byte) (n : Nat) (v : State → Word) (h : s.Ready)
    (hr : s.Returns (5 + n)) :
    s.present i true (fun u => u.readCommand reg n v) = .next { (s.accept i).afterRead reg n with
      res := v ((s.accept i).afterRead reg n), seq := .idle } := by
  rw [State.present_ready _ _ _ s h,
    State.readCommand_eq reg n v (s.accept i) h.1.2 (State.accept_returns i s _ hr)]

theorem alarmResult_eq (b0 b1 b2 b3 : Byte) : alarmResult (bytesToAlarm b0 b1 b2 b3) =
    BitVec.ofNat 64 (b2.toNat * 0x1000000 + b1.toNat * 0x10000 + b0.toNat * 0x100 + b3.toNat) := by
  rw [alarmResult, ← BitVec.ofNat_toNat, bytesToAlarm_toNat]

theorem timerResult_eq (b0 b1 : Byte) : timerResult (bytesToTimer b0 b1) =
    BitVec.ofNat 64 (b0.toNat * 0x100 + b1.toNat) := by
  rw [timerResult, ← BitVec.ofNat_toNat, bytesToTimer_toNat]

/-- Settles O44: the result repacks the four bytes read. -/
theorem getAlarmRepacksFourBytes : Obligations.GetAlarmRepacksFourBytes := by
  refine ⟨fun w hop => decode_of_opcode hop rfl rfl, fun s h hr => ?_⟩
  unfold exec execGetalarm
  rw [State.present_read_ready _ 4 _ h hr, alarmResult_eq]
  rfl

/-- Settles O46: the result joins the two bytes read. -/
theorem getTimerReadsTwoBytes : Obligations.GetTimerReadsTwoBytes := by
  refine ⟨fun w hop => decode_of_opcode hop rfl rfl, fun s h hr => ?_⟩
  unfold exec execGettimer
  rw [State.present_read_ready _ 2 _ h hr, timerResult_eq]
  rfl

/-- Settles O48: the result is the byte read. -/
theorem getClockOutReadsOneByte : Obligations.GetClockOutReadsOneByte :=
  ⟨fun _ hop => decode_of_opcode hop rfl rfl,
    fun _ h hr => State.present_read_ready 0x0D#8 1 (fun u => byteResult u.rb[0]) h hr⟩

/-! ### The frame of the reading commands -/

/-- A command that is one register read changes no block register but `RES`, `rb`, `err`, `avail` and `SEQ` (R60). -/
theorem State.readCommand_sameBlock (reg : Byte) (n : Nat) (v : State → Word) (s : State) :
    s.SameBlock { s.readCommand reg n v with res := s.res } := by
  have hread := s.memRead_sameBlock reg n
  exact State.live_of (p := fun t => s.SameBlock { t with res := s.res }) { hread with res := rfl }
    { hread with res := rfl }

/-- The three reading commands (R193, R195, R197). -/
theorem exec_eq_read {i : Instr} (hi : i ∈ [Instr.getalarm, .gettimer, .getclockout]) (s : State) :
    ∃ reg n v, exec i s = s.present i true fun u => u.readCommand reg n v := by
  simp only [List.mem_cons, List.not_mem_nil, or_false] at hi
  rcases hi with rfl | rfl | rfl <;> exact ⟨_, _, _, rfl⟩

/-- Settles O50: one read keeps what a register read keeps. -/
theorem readingCommandsKeepTheRest : Obligations.ReadingCommandsKeepTheRest := by
  intro i s t hi h
  obtain ⟨reg, n, v, hexec⟩ := exec_eq_read hi s
  obtain ⟨_, _, rfl⟩ := State.present_next (hexec.symm.trans h)
  have same := (s.accept i).readCommand_sameBlock reg n v
  exact ⟨same.addr, same.speed, same.cs1c, same.cs2c, same.cs3c, same.wb, same.curDate, same.curTime, same.prevDate,
    same.prevValid, same.busInit, same.host, same.begun⟩

/-! ### The arming commands -/

/-- The state an arming command leaves on a running chip (R190, R191): the new CS2 cached and written. -/
def State.afterArming (cs2 : Byte) (s : State) : State :=
  { ({ s.afterStatus with cs2c := cs2 } : State).afterWrite 0x01#8 [cs2] with
    res := if (s.moveAt 11).code = 0#8 then 1#64 else 0#64, seq := .idle }

/-- The status read of an arming command returns, and the STOP bit it read decides how the command goes on. -/
theorem State.armCommand_eq {flagMask enableMask : Byte} {enable : Bool} {s : State} (hs : s.hung = false)
    (hr : s.Returns 7) :
    s.armCommand flagMask enableMask enable =
      if s.afterStatus.cs1c.getLsbD 5 then { s.afterStatus with res := 0#64, seq := .idle }
      else ({ s.afterStatus with cs2c := armedCs2 flagMask enableMask enable s.afterStatus.cs2c } : State).writeCommand
        0x01#8 [armedCs2 flagMask enableMask enable s.afterStatus.cs2c] := by
  rw [State.armCommand, State.refreshStatus_eq s hs hr, State.live_eq _ _ (by exact hs), running_eq]
  cases s.afterStatus.cs1c.getLsbD 5 with
  | false => rfl
  | true => exact State.ret_eq _ _ (by exact hs)

/-- The write to CS2 uses the moves after the seven of the status read. -/
theorem State.writeCommand_afterStatus {cs2 : Byte} {s : State} (hs : s.hung = false) (hr : s.Returns 12) :
    ({ s.afterStatus with cs2c := cs2 } : State).writeCommand 0x01#8 [cs2] = s.afterArming cs2 := by
  rw [State.writeCommand_eq 0x01#8 [cs2] { s.afterStatus with cs2c := cs2 } (by exact hs) (by simp)
      (State.Returns.shift (n := 7) hr rfl rfl), State.moveAt_drop (s := s) 7 rfl rfl]
  rfl

/-- An arming command by whether the chip is stopped. -/
theorem State.present_arm_ready {i : Instr} {s : State} (flagMask enableMask : Byte) (enable : Bool) (h : s.Ready)
    (hr : s.Returns 7) :
    if (s.accept i).afterStatus.cs1c.getLsbD 5 then
      s.present i true (fun u => u.armCommand flagMask enableMask enable) =
        .next { (s.accept i).afterStatus with res := 0#64, seq := .idle }
    else s.Returns 12 →
      s.present i true (fun u => u.armCommand flagMask enableMask enable) =
        .next ((s.accept i).afterArming (armedCs2 flagMask enableMask enable (s.accept i).afterStatus.cs2c)) := by
  have hs : (s.accept i).hung = false := h.1.2
  rw [State.present_ready _ _ _ s h, State.armCommand_eq hs (State.accept_returns i s 7 hr)]
  split
  · rfl
  · exact fun hall => congrArg Host.Outcome.next (State.writeCommand_afterStatus hs (State.accept_returns i s 12 hall))

/-- Settles O41: the flag is AF, the enable AIE. -/
theorem activeAlarmArmsARunningChip : Obligations.ActiveAlarmArmsARunningChip :=
  fun _ enable h hr => State.present_arm_ready Config.afMask Config.aieMask enable h hr

/-- Settles O42: the flag is TF, the enable TIE. -/
theorem activeTimerArmsARunningChip : Obligations.ActiveTimerArmsARunningChip :=
  fun _ enable h hr => State.present_arm_ready Config.tfMask Config.tieMask enable h hr

/-! ### The frame of the arming commands -/

/-- What only the time commands touch is the same, and so are the host's inputs. -/
structure State.SameTimes (s t : State) : Prop where
  cs3c : t.cs3c = s.cs3c
  curDate : t.curDate = s.curDate
  curTime : t.curTime = s.curTime
  prevDate : t.prevDate = s.prevDate
  prevValid : t.prevValid = s.prevValid
  host : t.host = s.host

theorem State.SameTimes.trans {s t u : State} (h : s.SameTimes t) (g : t.SameTimes u) : s.SameTimes u :=
  ⟨g.cs3c.trans h.cs3c, g.curDate.trans h.curDate, g.curTime.trans h.curTime, g.prevDate.trans h.prevDate,
    g.prevValid.trans h.prevValid, g.host.trans h.host⟩

theorem State.SameRest.sameTimes {s t : State} (h : s.SameRest t) : s.SameTimes t :=
  ⟨h.cs3c, h.curDate, h.curTime, h.prevDate, h.prevValid, h.host⟩

theorem State.SameReadings.sameTimes {s t : State} (h : s.SameReadings t) : s.SameTimes t :=
  ⟨h.cs3c, h.curDate, h.curTime, h.prevDate, h.prevValid, h.host⟩

/-- A status read, and then a write or a result of false. -/
theorem State.armCommand_sameTimes (flagMask enableMask : Byte) (enable : Bool) (s : State) :
    s.SameTimes (s.armCommand flagMask enableMask enable) := by
  have hstatus := s.refreshStatus_sameRest
  refine State.live_of (p := s.SameTimes) hstatus.sameTimes ?_
  split
  · have hcache : s.SameTimes
        { s.refreshStatus with cs2c := armedCs2 flagMask enableMask enable s.refreshStatus.cs2c } :=
      hstatus.sameTimes.trans ⟨rfl, rfl, rfl, rfl, rfl, rfl⟩
    exact hcache.trans (State.writeCommand_sameReadings _ _ _).sameTimes
  · exact (hstatus.ret _).sameTimes

/-- The two arming commands (R190, R191). -/
theorem exec_eq_arm {enable : Bool} {i : Instr} (hi : i ∈ [Instr.activealarm enable, .activetimer enable]) (s : State) :
    isBegin i = false ∧ ∃ flagMask enableMask, exec i s =
      s.present i true fun u => u.armCommand flagMask enableMask enable := by
  simp only [List.mem_cons, List.not_mem_nil, or_false] at hi
  rcases hi with rfl | rfl <;> exact ⟨rfl, _, _, rfl⟩

/-- Settles O54: an arming command keeps what a transaction keeps, and what only the time commands touch. -/
theorem armingCommandsKeepTheRest : Obligations.ArmingCommandsKeepTheRest := by
  intro enable i s t hi h
  obtain ⟨hbegin, flagMask, enableMask, hexec⟩ := exec_eq_arm hi s
  have setup : s.SameSetup t := (exec_transacts hbegin h).setup
  obtain ⟨_, _, rfl⟩ := State.present_next (hexec.symm.trans h)
  have times := (s.accept i).armCommand_sameTimes flagMask enableMask enable
  exact ⟨setup.addr, setup.speed, times.cs3c, times.curDate, times.curTime, times.prevDate, times.prevValid,
    setup.busInit, times.host, setup.begun⟩

end Sys2Proof.Machine
end

section
/-! SUPPORT. An idle block with nothing presented (60_exceptions.md R221): its step is the environment's (20_memory.md
R58). -/

namespace Sys2Proof.Machine

/-- Of the things a step can be about, only the environment's move is left (R58, R221). -/
theorem step_of_idle_of_no_input {s : State} (hq : s.seq = .idle) (hhost : s.host = []) : step s = .next s.envStep := by
  rcases step_cases s with ⟨rest, hw, _⟩ | ⟨_, hrun, _⟩ | ⟨_, _, e⟩ | ⟨w, rest, _, hw, _⟩
  · exact absurd (hhost.symm.trans hw) nofun
  · exact absurd hq hrun
  · exact e
  · exact absurd (hhost.symm.trans hw) nofun

/-- Settles O14: the environment's move keeps the block's registers and the trace, and ticks the chip once. -/
theorem idleBlockOnlyWaits : Obligations.IdleBlockOnlyWaits := fun s hq hhost =>
  ⟨s.envStep, step_of_idle_of_no_input hq hhost, s.envStep_sameBlock, s.envStep_seq.trans hq, s.envStep_rb, s.envStep_err,
    s.envStep_avail, s.envStep_trace, s.envStep_hung, s.envStep_chip⟩

end Sys2Proof.Machine
end

section
/-! SUPPORT. Reset and hazards (70_reset_and_hazards.md R230 to R245): the reset input, the commands that are refused, and
the stale cache of R243. The last is said as a relation between two states that differ in the cached bytes only: every
piece of a command keeps it, and a status read makes the two bytes it caches the same. -/

namespace Sys2Proof.Machine

/-! ### Refusals and the reset input -/

/-- Settles O7: an idle block that presents any other command looks for a completed `BEGIN`. -/
theorem commandsBeforeBeginAreRefused : Obligations.CommandsBeforeBeginAreRefused := by
  intro i s hq hbegun hi
  obtain ⟨body, hbody⟩ := exec_eq_present i s
  rcases State.present_cases i (!isBegin i) body s with ⟨hrun, _⟩ | ⟨_, _, _, e⟩ | ⟨_, hb, _⟩
  · exact absurd hq hrun
  · exact hbody.trans e
  · exact absurd (hbegun.symm.trans (hb (by simp [hi]))) nofun

theorem exec_of_running (i : Instr) {s : State} (hq : s.seq ≠ .idle) : exec i s = .refused .busy := by
  obtain ⟨body, hbody⟩ := exec_eq_present i s
  exact hbody.trans (if_pos hq)

/-- A running block takes none of the host's inputs (R30 (b), R245). -/
theorem resume_host {s t : State} (h : resume s = .next t) : t.host = s.host := by
  rcases resume_next h with ⟨_, rfl⟩ | ⟨_, v, rfl⟩
  · exact s.envStep_host
  · exact (s.timePass_sameWbHost _ v).host

/-- Settles O8: presenting a command looks at `SEQ` first, and so does a step that is not about the reset input. -/
theorem runningBlockAcceptsNoCommand : Obligations.RunningBlockAcceptsNoCommand := by
  refine ⟨fun i s k hq => exec_of_running i (by simp [hq]), fun s k w rest hq hhost => ?_⟩
  rcases step_cases s with ⟨rest', hw, _⟩ | ⟨_, _, e⟩ | ⟨hidle, _, _⟩ | ⟨_, _, hidle, _, _⟩
  · exact absurd (hhost.symm.trans hw) nofun
  · exact ⟨e, fun t ht => resume_host (e.symm.trans ht)⟩
  · exact absurd (hq.symm.trans hidle) nofun
  · exact absurd (hq.symm.trans hidle) nofun

theorem step_of_reset {s : State} {rest : List HostInput} (hhost : s.host = .reset :: rest) :
    step s = .next ({ s with host := rest } : State).blockReset := by
  rcases step_cases s with ⟨rest', hw, e⟩ | ⟨hreset, _, _⟩ | ⟨_, hw, _⟩ | ⟨w, rest', _, hw, _⟩
  · obtain rfl : rest = rest' := (List.cons.inj (hhost.symm.trans hw)).2
    exact e
  · exact absurd (by rw [hhost]; rfl) hreset
  · exact absurd (hhost.symm.trans hw) nofun
  · exact absurd (hhost.symm.trans hw) nofun

/-- Settles O9: the step is the block reset, whose fields are those of the state after reset but for the chip's registers
and pointer and what the environment and the host will do. -/
theorem resetInputClearsTheBlockOnly : Obligations.ResetInputClearsTheBlockOnly := by
  intro s rest hhost
  obtain ⟨hspeed, haddr, hcs1c, hcs2c, hcs3c, hres, hseq, hbus⟩ := resetValues
  exact ⟨_, step_of_reset hhost, hspeed, haddr, hcs1c, hcs2c, hcs3c, hres, hseq, rfl, hbus, rfl,
    State.blockReset_chip _, State.blockReset_ptr _, State.blockReset_moves _, State.blockReset_freeMoves _,
    State.blockReset_host _⟩

/-! ### States that differ in the cached bytes only -/

/-- `t` is `s` but for the cached status bytes. -/
def State.SameButCache (s t : State) : Prop := ∃ a b c, t = s.withCache a b c

/-- What such states have in common of the fields that the calls of a command and its outcome are made of. -/
structure State.SameOutside (s t : State) : Prop where
  addr : t.addr = s.addr
  speed : t.speed = s.speed
  wb : t.wb = s.wb
  sent : t.sent = s.sent
  res : t.res = s.res
  trace : t.trace = s.trace
  chip : t.chip = s.chip
  seq : t.seq = s.seq
  hung : t.hung = s.hung
  moves : t.moves = s.moves
  freeMoves : t.freeMoves = s.freeMoves

theorem State.SameButCache.sameOutside {s t : State} (h : s.SameButCache t) : s.SameOutside t := by
  obtain ⟨a, b, c, rfl⟩ := h
  constructor <;> rfl

/-- A step of the block keeps the relation if it does so where no call is outstanding. -/
theorem State.SameButCache.live {s t : State} {f : State → State} (h : s.SameButCache t)
    (hf : (f s).SameButCache (f t)) : (s.live f).SameButCache (t.live f) := by
  unfold State.live
  rw [h.sameOutside.hung]
  split
  · exact h
  · exact hf

theorem State.SameButCache.ret {s t : State} {v : State → Word} (h : s.SameButCache t) (hv : v t = v s) :
    (s.ret v).SameButCache (t.ret v) := by
  refine h.live ?_
  rw [hv]
  obtain ⟨a, b, c, rfl⟩ := h
  exact ⟨a, b, c, rfl⟩

/-! ### Transport calls -/

theorem State.SameButCache.takeMove {s t : State} (h : s.SameButCache t) : s.takeMove.SameButCache t.takeMove := by
  obtain ⟨a, b, c, rfl⟩ := h
  exact ⟨a, b, c, by rw [State.takeMove_eq, State.takeMove_eq]; rfl⟩

/-- A transport call keeps the relation if its effect does and its answer does not depend on the cache. -/
theorem State.SameButCache.transport {s t : State} {call : Call} {answer : State → EnvMove → Answer}
    {effect : State → EnvMove → State} (h : s.SameButCache t) (hanswer : ∀ m, answer t m = answer s m)
    (heffect : ∀ {u w : State} m, u.SameButCache w → (effect u m).SameButCache (effect w m)) :
    (s.transport call answer effect).SameButCache (t.transport call answer effect) := by
  have hreturned := heffect (s.moveAt 0) h.takeMove
  have htake := h.takeMove
  refine h.live ?_
  obtain ⟨a, b, c, rfl⟩ := h
  have hmove : (s.withCache a b c).moveAt 0 = s.moveAt 0 := rfl
  dsimp only
  rw [hmove, hanswer]
  split
  · obtain ⟨a', b', c', e⟩ := hreturned
    exact ⟨a', b', c', by rw [e]; rfl⟩
  · obtain ⟨a', b', c', e⟩ := htake
    exact ⟨a', b', c', by rw [e]; rfl⟩

section
variable {s t : State} (h : s.SameButCache t)
include h

theorem State.SameButCache.tInit : s.tInit.SameButCache t.tInit :=
  h.transport (fun _ => rfl) fun _ ⟨a, b, c, e⟩ => ⟨a, b, c, by rw [e]; rfl⟩

theorem State.SameButCache.tSetClock : s.tSetClock.SameButCache t.tSetClock := by
  unfold State.tSetClock
  rw [h.sameOutside.speed]
  exact h.transport (fun _ => rfl) fun _ => id

theorem State.SameButCache.tBegin : s.tBegin.SameButCache t.tBegin := by
  unfold State.tBegin
  rw [h.sameOutside.addr]
  exact h.transport (fun _ => rfl) fun _ ⟨a, b, c, e⟩ => ⟨a, b, c, by rw [e]; rfl⟩

theorem State.SameButCache.tWrite (x : Byte) : (s.tWrite x).SameButCache (t.tWrite x) :=
  h.transport (fun _ => rfl) fun _ ⟨a, b, c, e⟩ => ⟨a, b, c, by rw [e]; rfl⟩

theorem State.SameButCache.land (m : EnvMove) : (s.land m).SameButCache (t.land m) := by
  unfold State.land
  rw [h.sameOutside.sent]
  obtain ⟨a, b, c, rfl⟩ := h
  split <;> exact ⟨a, b, c, rfl⟩

theorem State.SameButCache.tEnd (stop : Bool) : (s.tEnd stop).SameButCache (t.tEnd stop) :=
  h.transport (fun _ => rfl) fun m hu => by
    obtain ⟨a, b, c, e⟩ := hu.land m
    exact ⟨a, b, c, by rw [e]; rfl⟩

theorem State.SameButCache.tReq (n : Nat) : (s.tReq n).SameButCache (t.tReq n) := by
  unfold State.tReq
  rw [h.sameOutside.addr]
  exact h.transport (fun _ => rfl) fun _ ⟨a, b, c, e⟩ => ⟨a, b, c, by rw [e]; rfl⟩

theorem State.SameButCache.tRead (i : Nat) : (s.tRead i).SameButCache (t.tRead i) :=
  h.transport (fun _ => by obtain ⟨a, b, c, rfl⟩ := h; rfl) fun _ ⟨a, b, c, e⟩ => ⟨a, b, c, by rw [e]; rfl⟩

/-! ### Transactions -/

theorem State.SameButCache.readAll (n i : Nat) : (State.readAll n i s).SameButCache (State.readAll n i t) := by
  induction n generalizing i s t with
  | zero => exact h
  | succ n ih => exact ih (h.tRead i) (i + 1)

theorem State.SameButCache.memRead (reg : Byte) (n : Nat) : (s.memRead reg n).SameButCache (t.memRead reg n) :=
  ((((h.tSetClock.tBegin).tWrite reg).tEnd false).tReq n).readAll n 0

theorem State.SameButCache.writeAll (bytes : List Byte) :
    (State.writeAll bytes s).SameButCache (State.writeAll bytes t) := by
  induction bytes generalizing s t with
  | nil => exact h
  | cons x bytes ih => exact ih (h.tWrite x)

theorem State.SameButCache.memWrite (reg : Byte) (n : Nat) : (s.memWrite reg n).SameButCache (t.memWrite reg n) := by
  unfold State.memWrite
  rw [h.sameOutside.wb]
  exact (((h.tSetClock.tBegin).tWrite reg).writeAll _).tEnd true

/-! ### The bodies of commands -/

theorem State.SameButCache.writeCommand (reg : Byte) (bytes : List Byte) :
    (s.writeCommand reg bytes).SameButCache (t.writeCommand reg bytes) := by
  have hload : (s.loadWb bytes).SameButCache (t.loadWb bytes) :=
    h.live (by obtain ⟨a, b, c, rfl⟩ := h; exact ⟨a, b, c, rfl⟩)
  have hwrite := hload.memWrite reg bytes.length
  refine hwrite.ret ?_
  obtain ⟨a, b, c, e⟩ := hwrite
  rw [e]
  rfl

theorem State.SameButCache.readCommand (reg : Byte) (n : Nat) {v : State → Word}
    (hv : ∀ (u : State) a b c, v (u.withCache a b c) = v u) :
    (s.readCommand reg n v).SameButCache (t.readCommand reg n v) := by
  have hread := h.memRead reg n
  refine hread.ret ?_
  obtain ⟨a, b, c, e⟩ := hread
  rw [e, hv]

end

/-! ### A status read, and what follows it -/

/-- One wait for an outstanding call is as good as two. -/
theorem State.live_live (f g : State → State) (s : State) : (s.live f).live g = s.live fun u => (f u).live g := by
  by_cases hh : s.hung = true
  · rw [State.live_hung _ _ hh, State.live_hung _ _ hh, State.live_hung _ _ hh]
  · have hs : s.hung = false := by simpa using hh
    rw [State.live_eq f _ hs, State.live_eq _ _ hs]

/-- `t` is `s` but for the third cached byte, which no status read caches and no command looks at. -/
def State.SameButThird (s t : State) : Prop := ∃ c, t = s.withCache s.cs1c s.cs2c c

theorem State.SameButThird.sameButCache {s t : State} (h : s.SameButThird t) : s.SameButCache t :=
  ⟨_, _, h⟩

/-- What follows a status read starts, if it starts, from the same two cached bytes (R152, R243). -/
theorem State.SameButCache.refreshStatus_live {s t : State} {g : State → State} (h : s.SameButCache t)
    (hg : ∀ {u w : State}, u.SameButThird w → (g u).SameButCache (g w)) :
    (s.refreshStatus.live g).SameButCache (t.refreshStatus.live g) := by
  have hread := h.memRead Config.regCs1 2
  unfold State.refreshStatus
  rw [State.live_live, State.live_live]
  refine hread.live ?_
  have hcached : State.SameButThird
      { s.memRead Config.regCs1 2 with
        cs1c := (s.memRead Config.regCs1 2).rb[0], cs2c := (s.memRead Config.regCs1 2).rb[1] }
      { t.memRead Config.regCs1 2 with
        cs1c := (t.memRead Config.regCs1 2).rb[0], cs2c := (t.memRead Config.regCs1 2).rb[1] } := by
    obtain ⟨a, b, c, e⟩ := hread
    exact ⟨c, by rw [e]; rfl⟩
  exact hcached.sameButCache.live (hg hcached)

theorem State.SameButThird.ret {s t : State} {v : State → Word} (h : s.SameButThird t)
    (hv : ∀ (u : State) c, v (u.withCache u.cs1c u.cs2c c) = v u) : (s.ret v).SameButCache (t.ret v) := by
  obtain ⟨c, rfl⟩ := h
  exact State.SameButCache.ret ⟨_, _, c, rfl⟩ (hv s c)

/-- The status commands (R152 to R155). -/
theorem State.SameButCache.statusCommand {s t : State} {v : State → Word} (h : s.SameButCache t)
    (hv : ∀ (u : State) c, v (u.withCache u.cs1c u.cs2c c) = v u) :
    (s.refreshStatus.ret v).SameButCache (t.refreshStatus.ret v) :=
  h.refreshStatus_live fun {u w} hu => by
    obtain ⟨c, rfl⟩ := hu
    exact ⟨u.cs1c, u.cs2c, c, by rw [hv]; rfl⟩

/-- The arming commands (R190, R191): what they write is made of the bytes just cached. -/
theorem State.SameButCache.armCommand {s t : State} (h : s.SameButCache t) (flagMask enableMask : Byte)
    (enable : Bool) :
    (s.armCommand flagMask enableMask enable).SameButCache (t.armCommand flagMask enableMask enable) :=
  h.refreshStatus_live fun {u w} hu => by
    have hresult := hu.ret (v := fun _ => boolResult false) fun _ _ => rfl
    obtain ⟨c, rfl⟩ := hu
    have hrunning : (u.withCache u.cs1c u.cs2c c).cs1c = u.cs1c := rfl
    dsimp only
    rw [hrunning]
    split
    · exact State.SameButCache.writeCommand ⟨_, _, c, rfl⟩ Config.regCs2 _
    · exact hresult

theorem State.SameButCache.setUp {s t : State} (h : s.SameButCache t) (speed : BitVec 32) (address : Byte) :
    (s.setUp speed address).SameButCache (t.setUp speed address) := by
  have hskip : s.skipInit.SameButCache t.skipInit :=
    h.live (by obtain ⟨a, b, c, rfl⟩ := h; exact ⟨a, b, c, rfl⟩)
  have hinit : (if s.speed = 0#32 then s.tInit else s.skipInit).SameButCache
      (if t.speed = 0#32 then t.tInit else t.skipInit) := by
    rw [h.sameOutside.speed]
    split
    · exact h.tInit
    · exact hskip
  refine hinit.live ?_
  obtain ⟨a, b, c, e⟩ := hinit
  exact ⟨a, b, c, by rw [e]; rfl⟩

theorem State.SameButCache.finishBegin {s t : State} (h : s.SameButCache t) :
    s.finishBegin.SameButCache t.finishBegin := by
  unfold State.finishBegin State.ret
  rw [State.live_live, State.live_live]
  refine h.refreshStatus_live fun {u w} hu => ?_
  have hbegun : State.SameButThird { u with begun := true } { w with begun := true } := by
    obtain ⟨c, rfl⟩ := hu
    exact ⟨c, rfl⟩
  exact hbegun.ret fun _ _ => rfl

/-! ### The loop of `NOW` and `EPOCH` -/

/-- The nine bytes read replace the whole cache (R22 to R24, R170). -/
theorem State.takeBurst_withCache (a b c : Byte) (s : State) : (s.withCache a b c).takeBurst = s.takeBurst := rfl

theorem State.SameButCache.timePass {s t : State} (h : s.SameButCache t) (twice : Bool) (v : State → Word) :
    (State.timePass twice v s).SameButCache (State.timePass twice v t) := by
  have hread := h.memRead Config.regCs1 9
  refine hread.live ?_
  obtain ⟨a, b, c, e⟩ := hread
  rw [e, State.takeBurst_withCache]
  exact ⟨_, _, _, rfl⟩

theorem State.SameButCache.timeCommand {s t : State} (h : s.SameButCache t) (twice : Bool) (v : State → Word) :
    (s.timeCommand twice v).SameButCache (t.timeCommand twice v) := by
  have hclear : State.SameButCache { s with prevValid := false } { t with prevValid := false } := by
    obtain ⟨a, b, c, rfl⟩ := h
    exact ⟨a, b, c, rfl⟩
  have hfirst := hclear.timePass twice v
  unfold State.timeCommand
  split
  · exact hfirst.timePass twice v
  · exact hfirst

/-! ### Every command -/

theorem State.present_of_begun {i : Instr} {nb : Bool} {body : State → State} {s : State} (hq : s.seq = .idle)
    (hbegun : nb = true → s.begun = true) : s.present i nb body = .next (body (s.accept i)) := by
  rcases State.present_cases i nb body s with ⟨hrun, _⟩ | ⟨_, hnb, hb, _⟩ | ⟨_, _, e⟩
  · exact absurd hq hrun
  · exact absurd (hb.symm.trans (hbegun hnb)) nofun
  · exact e

/-- What a command does once accepted, with the proof that it does not depend on the cached bytes it finds (R243). -/
theorem exec_eq_present_of_sameButCache (i : Instr) :
    ∃ body : State → State, (∀ s, exec i s = s.present i (!isBegin i) body) ∧
      ∀ {s t : State}, s.SameButCache t → (body s).SameButCache (body t) := by
  cases i with
  | begin speed address => exact ⟨_, fun _ => rfl, fun h => (h.setUp speed address).finishBegin⟩
  | reset => exact ⟨_, fun _ => rfl, fun h => h.writeCommand ..⟩
  | getstatus => exact ⟨_, fun _ => rfl, fun h => h.statusCommand fun _ _ => rfl⟩
  | isrunning => exact ⟨_, fun _ => rfl, fun h => h.statusCommand fun _ _ => rfl⟩
  | isalarm => exact ⟨_, fun _ => rfl, fun h => h.statusCommand fun _ _ => rfl⟩
  | istimer => exact ⟨_, fun _ => rfl, fun h => h.statusCommand fun _ _ => rfl⟩
  | now twice => exact ⟨_, fun _ => rfl, fun h => h.timeCommand ..⟩
  | epoch twice => exact ⟨_, fun _ => rfl, fun h => h.timeCommand ..⟩
  | adjust date time => exact ⟨_, fun _ => rfl, fun h => h.writeCommand ..⟩
  | adjuste n => exact ⟨_, fun _ => rfl, fun h => h.writeCommand ..⟩
  | activealarm enable => exact ⟨_, fun _ => rfl, fun h => h.armCommand ..⟩
  | activetimer enable => exact ⟨_, fun _ => rfl, fun h => h.armCommand ..⟩
  | setalarm a => exact ⟨_, fun _ => rfl, fun h => h.writeCommand ..⟩
  | getalarm => exact ⟨_, fun _ => rfl, fun h => h.readCommand _ _ fun _ _ _ _ => rfl⟩
  | settimer v => exact ⟨_, fun _ => rfl, fun h => h.writeCommand ..⟩
  | gettimer => exact ⟨_, fun _ => rfl, fun h => h.readCommand _ _ fun _ _ _ _ => rfl⟩
  | setclockout b => exact ⟨_, fun _ => rfl, fun h => h.writeCommand ..⟩
  | getclockout => exact ⟨_, fun _ => rfl, fun h => h.readCommand _ _ fun _ _ _ _ => rfl⟩

/-- Settles O59: the two runs of the command end in states that differ in the cached bytes at most. -/
theorem staleCacheIsInvisible : Obligations.StaleCacheIsInvisible := by
  intro i s t a b c h
  obtain ⟨body, hexec, hbody⟩ := exec_eq_present_of_sameButCache i
  obtain ⟨hq, hbegun, rfl⟩ := State.present_next ((hexec s).symm.trans h)
  have haccept : (s.accept i).SameButCache ((s.withCache a b c).accept i) := ⟨a, b, c, rfl⟩
  have same := (hbody haccept).sameOutside
  exact ⟨_, (hexec _).trans (State.present_of_begun hq hbegun), same.res, same.trace, same.chip, same.seq, same.hung,
    same.moves, same.freeMoves⟩

end Sys2Proof.Machine
end
